-- ==== Sys2Proof/Word.lean ====
section
/-! DEFINITION. The words of the machine: bytes of the instruction stream, 64-bit Values, 64-bit stream
addresses (`00_scope.md` R9, R10, R11; `10_state.md` R21). -/

namespace Sys2Proof

/-- A byte: 8 bits, bit 0 the least significant (`00_scope.md` R10). -/
abbrev Byte := BitVec 8

/-- A Value: the 64-bit pattern of an IEEE 754 binary64 number (`00_scope.md` R9 `VALUE_BITS`, R11).
The pattern is what registers, RAM, VRAM and the stack store (`20_memory.md` R52). -/
abbrev Value := BitVec 64

/-- A stream address: unsigned, `8*ADDR_BYTES` = 64 bits (`10_state.md` R21; `00_scope.md` R9). -/
abbrev Addr := BitVec 64

end Sys2Proof
end

