-- ==== Sys2Proof/Syntax.lean ====
section
/-! DEFINITION. The instructions of the mipt-VM, one constructor for each row of the opcode table
(`30_encoding.md` R77), and their mnemonics. -/

namespace Sys2Proof

/-- The 31 mnemonics of the catalogue (`30_encoding.md` R77). `inp` stands for `in`, `outN` for `out_n`,
`pwInv` for `pw_1`, and `gInit`, `gDrawOn`, `gDrawOff`, `gDraw`, `gFill` for the five `g_` names. -/
inductive Mnemonic where
  | push | pop | dup
  | add | sub | mul | div
  | sin | cos | sqrt | pw2 | pwInv | abs
  | inp | out | outN
  | jmp | ja | jae | jb | jbe | je | jne | call | ret | halt
  | gInit | gDrawOn | gDrawOff | gDraw | gFill
  deriving DecidableEq, Repr

/-- The tagged operand of `push` and `pop` (`30_encoding.md` R70, R74). A RAM or VRAM index is the raw
Value of the stream; the handler converts it (R73). -/
inductive Operand where
  /-- tag `CONST`: a Value, taken bit for bit -/
  | const (v : Value)
  /-- tag `REG`: a 1-byte register index, not yet checked against 26 -/
  | reg (i : Byte)
  /-- tag `RAM`: a Value index into RAM -/
  | ram (index : Value)
  /-- tag `VRAM`: a Value index into VRAM -/
  | vram (index : Value)
  deriving DecidableEq, Repr

/-- One constructor per row of `opcode_table.json`, in the table's order. -/
inductive Instr where
  | push (source : Operand)
  | pop (dest : Operand)
  | dup
  | add
  | sub
  | mul
  | div
  | sin
  | cos
  | sqrt
  | pw2
  | pwInv
  | abs
  | inp
  | out
  | outN
  | jmp (target : Addr)
  | ja (target : Addr)
  | jae (target : Addr)
  | jb (target : Addr)
  | jbe (target : Addr)
  | je (target : Addr)
  | jne (target : Addr)
  | call (target : Addr)
  | ret
  | halt
  | gInit
  | gDrawOn
  | gDrawOff
  | gDraw
  | gFill
  deriving DecidableEq, Repr

/-- The mnemonic of an instruction: the row of the opcode table it belongs to. -/
def Instr.mnemonic : Instr → Mnemonic
  | .push _ => .push
  | .pop _ => .pop
  | .dup => .dup
  | .add => .add
  | .sub => .sub
  | .mul => .mul
  | .div => .div
  | .sin => .sin
  | .cos => .cos
  | .sqrt => .sqrt
  | .pw2 => .pw2
  | .pwInv => .pwInv
  | .abs => .abs
  | .inp => .inp
  | .out => .out
  | .outN => .outN
  | .jmp _ => .jmp
  | .ja _ => .ja
  | .jae _ => .jae
  | .jb _ => .jb
  | .jbe _ => .jbe
  | .je _ => .je
  | .jne _ => .jne
  | .call _ => .call
  | .ret => .ret
  | .halt => .halt
  | .gInit => .gInit
  | .gDrawOn => .gDrawOn
  | .gDrawOff => .gDrawOff
  | .gDraw => .gDraw
  | .gFill => .gFill

end Sys2Proof
end

