-- ==== Sys2Proof/WellFormed.lean ====
section
/-! DEFINITION. Which terms of `Instr` are instructions of the machine: the one check that the encoding
makes on operands beyond their widths (`30_encoding.md` R72). -/

namespace Sys2Proof

/-- `pop` admits the tags `REG`, `RAM` and `VRAM`, and not `CONST` (`30_encoding.md` R72). -/
def Operand.isDestination : Operand → Bool
  | .const _ => false
  | .reg _ => true
  | .ram _ => true
  | .vram _ => true

/-- Every term is well-formed but `pop` with a constant. A register index of 26 or more is well-formed: it
decodes, and the handler faults on it (`40_execution_engine.md` R91, item 6). -/
def Instr.wellFormed : Instr → Bool
  | .pop dest => dest.isDestination
  | _ => true

end Sys2Proof
end

