-- ==== Sys2Proof/Config.lean ====
section
/-! DEFINITION. What an implementation fixes (`00_scope.md` R9): the OPEN parameters as one record of plain
data, which State carries and no step changes (log 1), and the opaque constants, which no proof can see
into: SIN and COS (log 3) and the bits of a drawn NaN (log 2). The reference values of the record's fields
stand in `Machine/Reference.lean`. -/

namespace Sys2Proof

/-- `OPCODE_MAP`: the opcode byte of each mnemonic (`30_encoding.md` R77, R78). OPEN. -/
structure OpcodeMap where
  push : Byte
  pop : Byte
  dup : Byte
  add : Byte
  sub : Byte
  mul : Byte
  div : Byte
  sin : Byte
  cos : Byte
  sqrt : Byte
  pw2 : Byte
  pwInv : Byte
  abs : Byte
  inp : Byte
  out : Byte
  outN : Byte
  jmp : Byte
  ja : Byte
  jae : Byte
  jb : Byte
  jbe : Byte
  je : Byte
  jne : Byte
  call : Byte
  ret : Byte
  halt : Byte
  gInit : Byte
  gDrawOn : Byte
  gDrawOff : Byte
  gDraw : Byte
  gFill : Byte
  deriving DecidableEq, Repr

/-- `TAG_MAP`: the byte of each operand type tag (`30_encoding.md` R72). OPEN. -/
structure TagMap where
  const : Byte
  reg : Byte
  ram : Byte
  vram : Byte
  deriving DecidableEq, Repr

/-- The two maps that fix the encoding. -/
structure Encoding where
  opcodes : OpcodeMap
  tags : TagMap
  deriving DecidableEq, Repr

/-- The OPEN parameters of `00_scope.md` R9 that are plain data. Their constraints are `Config.Admissible`
in `Safety.lean`. -/
structure Config where
  /-- `RAM_SIZE`: number of RAM cells, at least 1 -/
  ramSize : Nat
  /-- `VRAM_W`: VRAM width in cells, at least 1 -/
  vramW : Nat
  /-- `VRAM_H`: VRAM height in cells, at least 1 -/
  vramH : Nat
  /-- `STACK_INIT_CAP`: stack capacity after reset, at least 1 -/
  stackInitCap : Nat
  /-- `STACK_MAX`: the largest capacity, at least `STACK_INIT_CAP` -/
  stackMax : Nat
  /-- `EPSILON`: tolerance of `je` and `jne`, greater than 0 -/
  epsilon : Value
  /-- `MAX_PROGRAM`: the largest stream length, at most 2^53 -/
  maxProgram : Nat
  /-- `OPCODE_MAP` and `TAG_MAP` -/
  encoding : Encoding
  deriving DecidableEq, Repr

/-- `VRAM_W*VRAM_H`, the number of VRAM cells (`10_state.md` R31). -/
def Config.vramSize (c : Config) : Nat := c.vramW * c.vramH

/-- `SIN`: the host's sine, an OPEN configuration function (`42_arithmetic.md` R109; D18). No body: nothing
in Lean can evaluate it. DESIGN CHOICE (log 3), safe. -/
opaque Config.sin : Value → Value

/-- `COS`: the host's cosine, an OPEN configuration function (`42_arithmetic.md` R110; D18). No body.
DESIGN CHOICE (log 3), safe. -/
opaque Config.cos : Value → Value

/-- The raw bits of the n-th NaN draw (`42_arithmetic.md` R102: a NaN result's sign bit and payload are a
draw, and a model must not fix them). No body: a free value. DESIGN CHOICE (log 2), safe. -/
opaque Config.nanBits : Nat → Value

end Sys2Proof
end

