-- ==== Sys2Proof/Decode.lean ====
section
/-! DEFINITION. Reading an instruction from the bytes of the stream, and writing one: the stream reader's
operations (`20_memory.md` R38 to R45), the opcode and tag maps (`30_encoding.md` R72, R77 to R79), the decoder
(R73, R75; `40_execution_engine.md` R85 to R87), and after it the encoder (R68 to R71). -/

namespace Sys2Proof

/-! ### The reference maps -/

/-- The reference `OPCODE_MAP`: the catalogue's order from `0x01` (`30_encoding.md` R77). -/
def OpcodeMap.reference : OpcodeMap where
  push := 0x01#8
  pop := 0x02#8
  dup := 0x03#8
  add := 0x04#8
  sub := 0x05#8
  mul := 0x06#8
  div := 0x07#8
  sin := 0x08#8
  cos := 0x09#8
  sqrt := 0x0A#8
  pw2 := 0x0B#8
  pwInv := 0x0C#8
  abs := 0x0D#8
  inp := 0x0E#8
  out := 0x0F#8
  outN := 0x10#8
  jmp := 0x11#8
  ja := 0x12#8
  jae := 0x13#8
  jb := 0x14#8
  jbe := 0x15#8
  je := 0x16#8
  jne := 0x17#8
  call := 0x18#8
  ret := 0x19#8
  halt := 0x1A#8
  gInit := 0x1B#8
  gDrawOn := 0x1C#8
  gDrawOff := 0x1D#8
  gDraw := 0x1E#8
  gFill := 0x1F#8

/-- The reference `TAG_MAP` (`30_encoding.md` R72). -/
def TagMap.reference : TagMap where
  const := 0x00#8
  reg := 0x01#8
  ram := 0x02#8
  vram := 0x03#8

/-- The reference encoding, the one of `opcode_table.json`. -/
def Encoding.reference : Encoding where
  opcodes := OpcodeMap.reference
  tags := TagMap.reference

/-! ### The maps as tables -/

/-- Every mnemonic, in the catalogue's order. -/
def Mnemonic.all : List Mnemonic :=
  [.push, .pop, .dup, .add, .sub, .mul, .div, .sin, .cos, .sqrt, .pw2, .pwInv, .abs, .inp, .out, .outN, .jmp, .ja, .jae, .jb, .jbe, .je, .jne, .call, .ret, .halt, .gInit, .gDrawOn, .gDrawOff, .gDraw, .gFill]

/-- The opcode byte a map gives a mnemonic (`30_encoding.md` R78). -/
def OpcodeMap.code (t : OpcodeMap) : Mnemonic → Byte
  | .push => t.push
  | .pop => t.pop
  | .dup => t.dup
  | .add => t.add
  | .sub => t.sub
  | .mul => t.mul
  | .div => t.div
  | .sin => t.sin
  | .cos => t.cos
  | .sqrt => t.sqrt
  | .pw2 => t.pw2
  | .pwInv => t.pwInv
  | .abs => t.abs
  | .inp => t.inp
  | .out => t.out
  | .outN => t.outN
  | .jmp => t.jmp
  | .ja => t.ja
  | .jae => t.jae
  | .jb => t.jb
  | .jbe => t.jbe
  | .je => t.je
  | .jne => t.jne
  | .call => t.call
  | .ret => t.ret
  | .halt => t.halt
  | .gInit => t.gInit
  | .gDrawOn => t.gDrawOn
  | .gDrawOff => t.gDrawOff
  | .gDraw => t.gDraw
  | .gFill => t.gFill

/-- The mnemonic of an opcode byte. `none` is an unused slot of the table, an invalid opcode
(`30_encoding.md` R79). -/
def OpcodeMap.lookup (t : OpcodeMap) (b : Byte) : Option Mnemonic :=
  Mnemonic.all.find? fun m => t.code m == b

/-- The four operand type tags (`30_encoding.md` R70, R72). -/
inductive Tag where
  | const | reg | ram | vram
  deriving DecidableEq, Repr

/-- The byte a map gives a tag. -/
def TagMap.code (t : TagMap) : Tag → Byte
  | .const => t.const
  | .reg => t.reg
  | .ram => t.ram
  | .vram => t.vram

/-- The tag of a byte, among the tags an instruction admits. `none` is an unassigned or not admitted tag
(`30_encoding.md` R72). Where two tags have one byte it takes the first in the list: DESIGN CHOICE (log 22). -/
def TagMap.lookup (t : TagMap) (admitted : List Tag) (b : Byte) : Option Tag :=
  admitted.find? fun g => t.code g == b

/-- `push` admits all four tags (`30_encoding.md` R72). -/
def pushTags : List Tag := [.const, .reg, .ram, .vram]

/-- `pop` admits `REG`, `RAM` and `VRAM` (`30_encoding.md` R72). -/
def popTags : List Tag := [.reg, .ram, .vram]

/-- The tag of an operand. -/
def Operand.tag : Operand → Tag
  | .const _ => .const
  | .reg _ => .reg
  | .ram _ => .ram
  | .vram _ => .vram

/-! ### The stream reader

The reader works on the bytes from the cursor to the end of the stream. A read of `n` bytes at `ip` is in range
(`ip + n ≤ len`, `20_memory.md` R38) exactly when that list has `n` bytes. -/

/-- Why no instruction can be read: the three faults of fetch and decode (`40_execution_engine.md` R91,
items 1 to 4). -/
inductive DecodeError where
  /-- the opcode byte has no descriptor (`30_encoding.md` R79) -/
  | invalidOpcode
  /-- the tag byte is unassigned or not admitted (`30_encoding.md` R72) -/
  | invalidOperand
  /-- a byte at or past `len` is needed (`20_memory.md` R38) -/
  | outOfBounds
  deriving DecidableEq, Repr

/-- What a reader gives: the item read and the bytes after it. -/
abbrev Read (α : Type) := Except DecodeError (α × List Byte)

/-- `decodeU`: bytes as an unsigned little-endian integer, the byte at the lower offset the less significant
(`00_scope.md` R12; `20_memory.md` R43). -/
def decodeU : List Byte → Nat
  | [] => 0
  | b :: bs => b.toNat + 256 * decodeU bs

/-- The `n` little-endian bytes of an integer, the inverse of `decodeU` (`00_scope.md` R12). -/
def encodeU : Nat → Nat → List Byte
  | 0, _ => []
  | n + 1, w => BitVec.ofNat 8 w :: encodeU n (w / 256)

/-- `ADDR_BYTES` (`00_scope.md` R9; D4). -/
def addrBytes : Nat := 8

/-- `ReadByte()` (`20_memory.md` R39). -/
def readByte : List Byte → Read Byte
  | [] => .error .outOfBounds
  | b :: rest => .ok (b, rest)

/-- `MemRead(ip, n)` and the advance of the cursor by `n` (`20_memory.md` R38). -/
def readBytes (n : Nat) (bs : List Byte) : Read (List Byte) :=
  if bs.length < n then .error .outOfBounds else .ok (bs.take n, bs.drop n)

/-- `ReadValue()`: 8 bytes, little-endian (`20_memory.md` R40; `decode64`, `00_scope.md` R12). -/
def readValue (bs : List Byte) : Read Value :=
  (readBytes 8 bs).map fun (b, r) => (BitVec.ofNat 64 (decodeU b), r)

/-- `ReadAddress()`: `ADDR_BYTES` bytes, unsigned little-endian, not range-checked (`20_memory.md` R41). -/
def readAddress (bs : List Byte) : Read Addr :=
  (readBytes addrBytes bs).map fun (b, r) => (BitVec.ofNat 64 (decodeU b), r)

/-! ### The decoder -/

/-- The operand that follows a tag byte (`30_encoding.md` R70, R73). -/
def decodeTail : Tag → List Byte → Read Operand
  | .const, bs => (readValue bs).map fun (v, r) => (.const v, r)
  | .reg, bs => (readByte bs).map fun (i, r) => (.reg i, r)
  | .ram, bs => (readValue bs).map fun (v, r) => (.ram v, r)
  | .vram, bs => (readValue bs).map fun (v, r) => (.vram v, r)

/-- `DecodeTagged(allowed)`: the tag byte, its check, then the operand bytes, in this order
(`30_encoding.md` R73; `40_execution_engine.md` R91, item 3). -/
def decodeOperand (t : TagMap) (allowed : List Tag) (bs : List Byte) : Read Operand :=
  match readByte bs with
  | .error err => .error err
  | .ok (b, rest) =>
    match t.lookup allowed b with
    | none => .error .invalidOperand
    | some g => decodeTail g rest

/-- The instruction at the head of the bytes and the bytes after it: the opcode byte selects the descriptor,
whose stream operands are then read (`40_execution_engine.md` R85, R86, R87). Total: any bytes give an
instruction or a named error. -/
def decode (e : Encoding) (bs : List Byte) : Read Instr :=
  match readByte bs with
  | .error err => .error err
  | .ok (b, rest) =>
    match e.opcodes.lookup b with
    | none => .error .invalidOpcode
    | some m =>
    match m with
    | .push => (decodeOperand e.tags pushTags rest).map fun (o, r) => (.push o, r)
    | .pop => (decodeOperand e.tags popTags rest).map fun (o, r) => (.pop o, r)
    | .dup => .ok (.dup, rest)
    | .add => .ok (.add, rest)
    | .sub => .ok (.sub, rest)
    | .mul => .ok (.mul, rest)
    | .div => .ok (.div, rest)
    | .sin => .ok (.sin, rest)
    | .cos => .ok (.cos, rest)
    | .sqrt => .ok (.sqrt, rest)
    | .pw2 => .ok (.pw2, rest)
    | .pwInv => .ok (.pwInv, rest)
    | .abs => .ok (.abs, rest)
    | .inp => .ok (.inp, rest)
    | .out => .ok (.out, rest)
    | .outN => .ok (.outN, rest)
    | .jmp => (readAddress rest).map fun (a, r) => (.jmp a, r)
    | .ja => (readAddress rest).map fun (a, r) => (.ja a, r)
    | .jae => (readAddress rest).map fun (a, r) => (.jae a, r)
    | .jb => (readAddress rest).map fun (a, r) => (.jb a, r)
    | .jbe => (readAddress rest).map fun (a, r) => (.jbe a, r)
    | .je => (readAddress rest).map fun (a, r) => (.je a, r)
    | .jne => (readAddress rest).map fun (a, r) => (.jne a, r)
    | .call => (readAddress rest).map fun (a, r) => (.call a, r)
    | .ret => .ok (.ret, rest)
    | .halt => .ok (.halt, rest)
    | .gInit => .ok (.gInit, rest)
    | .gDrawOn => .ok (.gDrawOn, rest)
    | .gDrawOff => .ok (.gDrawOff, rest)
    | .gDraw => .ok (.gDraw, rest)
    | .gFill => .ok (.gFill, rest)

/-- The length `L` of a tagged operand with its tag byte. -/
def Operand.length : Operand → Nat
  | .const _ => 9
  | .reg _ => 2
  | .ram _ => 9
  | .vram _ => 9

/-- The length `L` of an instruction in bytes (`30_encoding.md` R75). -/
def Instr.length : Instr → Nat
  | .push o => 1 + o.length
  | .pop o => 1 + o.length
  | .jmp _ | .ja _ | .jae _ | .jb _ | .jbe _ | .je _ | .jne _ | .call _ => 1 + addrBytes
  | .dup | .add | .sub | .mul | .div | .sin | .cos | .sqrt | .pw2 | .pwInv | .abs | .inp | .out | .outN
  | .ret | .halt | .gInit | .gDrawOn | .gDrawOff | .gDraw | .gFill => 1

/-! ### The encoder -/

/-- `encode64`: the 8 stream bytes of a Value (`00_scope.md` R12). -/
def encodeValue (v : Value) : List Byte := encodeU 8 v.toNat

/-- The `ADDR_BYTES` stream bytes of an address (`30_encoding.md` R71). -/
def encodeAddress (a : Addr) : List Byte := encodeU addrBytes a.toNat

/-- The tag byte and the operand bytes of a tagged operand (`30_encoding.md` R70). -/
def encodeOperand (t : TagMap) (o : Operand) : List Byte :=
  t.code o.tag ::
    match o with
    | .const v => encodeValue v
    | .reg i => [i]
    | .ram v => encodeValue v
    | .vram v => encodeValue v

/-- The bytes of an instruction after its opcode byte (`30_encoding.md` R68 to R71). -/
def encodeFields (e : Encoding) : Instr → List Byte
  | .push o => encodeOperand e.tags o
  | .pop o => encodeOperand e.tags o
  | .jmp a | .ja a | .jae a | .jb a | .jbe a | .je a | .jne a | .call a => encodeAddress a
  | .dup | .add | .sub | .mul | .div | .sin | .cos | .sqrt | .pw2 | .pwInv | .abs | .inp | .out | .outN
  | .ret | .halt | .gInit | .gDrawOn | .gDrawOff | .gDraw | .gFill => []

/-- The bytes of an instruction: the opcode byte, then the operand fields with no padding
(`30_encoding.md` R68). -/
def encode (e : Encoding) (i : Instr) : List Byte :=
  e.opcodes.code i.mnemonic :: encodeFields e i

/-! ### The opcode table's numbering -/

/-- The longest instruction, in bytes (`30_encoding.md` R75). -/
def maxLength : Nat := 10

/-- The stream bytes of an instruction whose bits are `w`, byte 0 in bits 7..0, with every bit from `nbits`
up zero. -/
def tableBytes (nbits w : Nat) : List Byte := encodeU maxLength (w % 2 ^ nbits)

/-- The instruction the decoder reads from the bits `w`, under the reference maps of the opcode table.
`none` where the decoder refuses. -/
def decodeTableWord (nbits w : Nat) : Option Instr :=
  match decode Encoding.reference (tableBytes nbits w) with
  | .ok (i, _) => some i
  | .error _ => none

end Sys2Proof
end

