-- ==== Sys2Proof/Machine/Memory.lean ====
section
/-! DEFINITION. A region of Value cells, RAM or VRAM (`10_state.md` R30, R31; `20_memory.md` R36, R52), as a list
of (index, Value) pairs in one canonical form: indices strictly rising, and no entry equal to `+0.0`, what an
unlisted index reads as (`10_state.md` R27). The unit is the spec's own: one whole Value (`20_memory.md` R46;
log 7). -/

namespace Sys2Proof.Machine

/-- A region's cells that hold something else than `+0.0`. -/
abbrev Memory := List (Nat × Value)

/-- `+0.0`: all 64 bits zero (`00_scope.md` R11). -/
def plusZero : Value := 0#64

/-- What a cell that nothing has written reads as: `+0.0`, stated by the spec (`10_state.md` R27). -/
def Memory.unlisted : Value := plusZero

/-- The Value of cell `i` (`20_memory.md` R52). -/
def Memory.read : Memory → Nat → Value
  | [], _ => Memory.unlisted
  | (a, v) :: m, i => if a = i then v else Memory.read m i

/-- The pair of a cell, or nothing where the Value is what an unlisted cell reads as. -/
def Memory.entry (i : Nat) (v : Value) : Memory :=
  if v = Memory.unlisted then [] else [(i, v)]

/-- The region with cell `i` holding `v` (`20_memory.md` R52), in canonical form. -/
def Memory.write : Memory → Nat → Value → Memory
  | [], i, v => Memory.entry i v
  | (a, w) :: m, i, v =>
    if i < a then Memory.entry i v ++ (a, w) :: m
    else if i = a then Memory.entry i v ++ m
    else (a, w) :: Memory.write m i v

/-- The region with the cells `0` to `n-1` all holding `v` (`45_graphics.md` R137), in canonical form. -/
def Memory.fill (n : Nat) (v : Value) : Memory :=
  if v = Memory.unlisted then [] else (List.range n).map fun i => (i, v)

/-- A copy of the cells `0` to `n-1`, in index order (`60_exceptions.md` R148). -/
def Memory.cells (m : Memory) (n : Nat) : List Value := (List.range n).map m.read

/-- The canonical form. -/
abbrev Memory.wf (m : Memory) : Prop :=
  m.Pairwise (fun c d => c.1 < d.1) ∧ ∀ c ∈ m, c.2 ≠ Memory.unlisted

/-- Every listed cell is a cell of a region of `n` cells. -/
abbrev Memory.within (m : Memory) (n : Nat) : Prop := ∀ c ∈ m, c.1 < n

end Sys2Proof.Machine
end

