-- ==== Sys2Proof/Machine/Float.lean ====
section
/-! DEFINITION. The arithmetic of Values (`00_scope.md` R11, R14; `42_arithmetic.md` R101, R102): IEEE 754 binary64,
round to nearest with ties to even, subnormals kept, nothing traps. The spec names the format and does not spell
its bits out; the layout (1 sign bit, 11 exponent bits with bias 1023, 52 fraction bits) is PRESUMED from IEEE 754
(log 20).

Every finite Value is a whole multiple of 2^-1074, so an operation computes on exact naturals in that unit and
rounds once at the end. An operation that can give a NaN takes the drawn NaN as its first argument (R102). -/

namespace Sys2Proof.Machine

/-! ### Fields of a Value -/

/-- The sign bit, bit 63. -/
def signBit (v : Value) : Bool := v.getLsbD 63

/-- Bits 62..0, a natural number that grows with the absolute value. -/
def magnitude (v : Value) : Nat := v.toNat % 2 ^ 63

/-- The exponent field, bits 62..52. -/
def expField (v : Value) : Nat := magnitude v / 2 ^ 52

/-- The fraction field, bits 51..0. -/
def fracField (v : Value) : Nat := v.toNat % 2 ^ 52

/-- The magnitude of an infinity: exponent field all ones, fraction 0. -/
def infMagnitude : Nat := 2047 * 2 ^ 52

/-- A Value from its sign and its bits 62..0. -/
def pack (neg : Bool) (mag : Nat) : Value :=
  BitVec.ofNat 64 ((if neg then 2 ^ 63 else 0) + mag)

/-- `1.0`. -/
def one : Value := 0x3FF0000000000000#64

/-- What a bit pattern stands for. -/
inductive Exact where
  | nan
  | inf (neg : Bool)
  /-- the number `units * 2^-1074`, negated if `neg` (a zero keeps its sign) -/
  | fin (neg : Bool) (units : Nat)
  deriving DecidableEq, Repr

/-- The absolute value of a finite Value as a multiple of 2^-1074. -/
def unitsOf (v : Value) : Nat :=
  if expField v = 0 then fracField v else (2 ^ 52 + fracField v) * 2 ^ (expField v - 1)

/-- The number, infinity or NaN of a bit pattern. -/
def classify (v : Value) : Exact :=
  if expField v = 2047 then (if fracField v = 0 then .inf (signBit v) else .nan)
  else .fin (signBit v) (unitsOf v)

/-- Whether a Value is a NaN. -/
def isNaN (v : Value) : Bool := decide (infMagnitude < magnitude v)

/-- The NaN of a draw: any bits, with the exponent field set to all ones and a zero fraction made nonzero. Every NaN
is the NaN of its own bits (`42_arithmetic.md` R102: the sign bit and payload are a draw). -/
def asNaN (raw : Value) : Value :=
  if fracField raw = 0 then pack (signBit raw) (infMagnitude + 1)
  else pack (signBit raw) (infMagnitude + fracField raw)

/-! ### Rounding to nearest, ties to even -/

/-- The whole number nearest to a number whose floor is `q` and which compares with `q + 1/2` as `o` says; the even
one at the midpoint. -/
def nearestEven (q : Nat) (o : Ordering) : Nat :=
  match o with
  | .lt => q
  | .gt => q + 1
  | .eq => if q % 2 = 0 then q else q + 1

/-- The exponent of the spacing of Values around a number of `floor` units: the spacing is 2^(this) units, which
leaves 53 significant bits, and never below one unit (subnormals are kept). -/
def gridExp (floor : Nat) : Nat := floor.log2 - 52

/-- The Value of `nearestEven q o` spacings of size `2^k` units. A significand that rounds up to 2^53 carries into
the exponent field; what reaches 2^1024 is infinite. -/
def packRounded (neg : Bool) (k q : Nat) (o : Ordering) : Value :=
  pack neg (min (k * 2 ^ 52 + nearestEven q o) infMagnitude)

/-- The Value nearest to `num / den` units (`den` positive), ties to even. -/
def roundRat (neg : Bool) (num den : Nat) : Value :=
  let k := gridExp (num / den)
  let d := den * 2 ^ k
  packRounded neg k (num / d) (compare (2 * (num % d)) d)

/-- The floor of the square root, by bits from `b - 1` down: the largest `r' < r + 2^b` with `r' * r' ≤ n`. -/
def isqrtBits : Nat → Nat → Nat → Nat
  | 0, _, r => r
  | b + 1, n, r => isqrtBits b n (if (r + 2 ^ b) * (r + 2 ^ b) ≤ n then r + 2 ^ b else r)

/-- The Value nearest to the square root of `n` units squared, ties to even. -/
def roundSqrt (n : Nat) : Value :=
  let k := n.log2 / 2 - 52
  let q := isqrtBits 53 (n / 4 ^ k) 0
  packRounded false k q (compare (4 * n) (((2 * q + 1) * 2 ^ k) * ((2 * q + 1) * 2 ^ k)))

/-! ### The operations of `00_scope.md` R11 -/

/-- `fneg`: the sign bit flipped. -/
def fneg (v : Value) : Value := v ^^^ 0x8000000000000000#64

/-- `fabs`: the sign bit cleared, every other bit kept (`42_arithmetic.md` R114). -/
def fabs (v : Value) : Value := v &&& 0x7FFFFFFFFFFFFFFF#64

/-- A signed number of units. -/
def signed (neg : Bool) (units : Nat) : Int := if neg then -(units : Int) else units

/-- `fadd(b, a)` (`42_arithmetic.md` R105). An exact zero sum is `+0` unless both operands are negative zeros. -/
def fadd (nan b a : Value) : Value :=
  match classify b, classify a with
  | .nan, _ => nan
  | _, .nan => nan
  | .inf s, .inf t => if s = t then b else nan
  | .inf _, .fin _ _ => b
  | .fin _ _, .inf _ => a
  | .fin s m, .fin t n =>
    let sum := signed s m + signed t n
    if sum = 0 then pack (s && t) 0 else roundRat (decide (sum < 0)) sum.natAbs 1

/-- `fsub(b, a)`: b minus a, the sum of b and a with its sign flipped (`42_arithmetic.md` R106). -/
def fsub (nan b a : Value) : Value := fadd nan b (fneg a)

/-- `fmul(b, a)` (`42_arithmetic.md` R107). The sign is the exclusive or of the signs. -/
def fmul (nan b a : Value) : Value :=
  match classify b, classify a with
  | .nan, _ => nan
  | _, .nan => nan
  | .inf s, .inf t => pack (s ^^ t) infMagnitude
  | .inf s, .fin t n => if n = 0 then nan else pack (s ^^ t) infMagnitude
  | .fin s m, .inf t => if m = 0 then nan else pack (s ^^ t) infMagnitude
  | .fin s m, .fin t n => roundRat (s ^^ t) (m * n) (2 ^ 1074)

/-- `fdiv(b, a)`: b divided by a (`42_arithmetic.md` R108). A nonzero number by zero is infinite. -/
def fdiv (nan b a : Value) : Value :=
  match classify b, classify a with
  | .nan, _ => nan
  | _, .nan => nan
  | .inf _, .inf _ => nan
  | .inf s, .fin t _ => pack (s ^^ t) infMagnitude
  | .fin s _, .inf t => pack (s ^^ t) 0
  | .fin s m, .fin t n =>
    if n = 0 then (if m = 0 then nan else pack (s ^^ t) infMagnitude)
    else roundRat (s ^^ t) (m * 2 ^ 1074) n

/-- `fsqrt(v)`, correctly rounded (`42_arithmetic.md` R111). A zero keeps its sign; a negative number gives a NaN. -/
def fsqrt (nan v : Value) : Value :=
  match classify v with
  | .nan => nan
  | .inf s => if s then nan else v
  | .fin s m => if m = 0 then v else if s then nan else roundSqrt (m * 2 ^ 1074)

/-- The result of a configuration function: a NaN at an infinity or a NaN; elsewhere the function's own Value, and
where that is a NaN, a drawn one (`42_arithmetic.md` R102, R109, R110). -/
def transcendental (f : Value → Value) (nan v : Value) : Value :=
  match classify v with
  | .nan => nan
  | .inf _ => nan
  | .fin _ _ => if isNaN (f v) then nan else f v

/-- The result of `sin` (`42_arithmetic.md` R109). -/
def fsin (nan v : Value) : Value := transcendental Config.sin nan v

/-- The result of `cos` (`42_arithmetic.md` R110). -/
def fcos (nan v : Value) : Value := transcendental Config.cos nan v

/-! ### Comparisons (`00_scope.md` R11; `44_control.md` R120) -/

/-- An integer that orders the Values that are no NaN: both zeros 0, infinities outermost. -/
def orderKey (v : Value) : Int := signed (signBit v) (magnitude v)

/-- `x < y`; false when either is a NaN. -/
def flt (x y : Value) : Bool := !isNaN x && !isNaN y && decide (orderKey x < orderKey y)

/-- `x <= y`; false when either is a NaN. -/
def fle (x y : Value) : Bool := !isNaN x && !isNaN y && decide (orderKey x ≤ orderKey y)

/-! ### Values and integers (`20_memory.md` R49, R50, R51) -/

/-- `trunc` (`00_scope.md` R14) of a finite, not negative truncation below 2^64 and below `bound`; `none` where
`ToIndex` and `ToAddress` raise their fault. -/
def truncBelow (bound : Nat) (v : Value) : Option Nat :=
  match classify v with
  | .nan => none
  | .inf _ => none
  | .fin neg m =>
    let t := m / 2 ^ 1074
    if neg ∧ t ≠ 0 then none
    else if 2 ^ 64 ≤ t then none
    else if bound ≤ t then none
    else some t

/-- `ToIndex(v, n)` (`20_memory.md` R49). -/
def toIndex (v : Value) (n : Nat) : Option Nat := truncBelow n v

/-- `ToAddress(v)` (`20_memory.md` R50): the bound is `2^(8*ADDR_BYTES)`. -/
def toAddress (v : Value) : Option Addr := (truncBelow (2 ^ 64) v).map (BitVec.ofNat 64)

/-- The Value of a natural number: exact up to 2^53 (`20_memory.md` R51), the nearest Value beyond. -/
def valueOfNat (n : Nat) : Value := roundRat false (n * 2 ^ 1074) 1

end Sys2Proof.Machine
end

