-- ==== Sys2Proof/Machine/Reference.lean ====
section
/-! DEFINITION. The reference values of the OPEN parameters (`00_scope.md` R9), which State.reset takes (log 1). -/

namespace Sys2Proof.Machine

/-- The reference value of `EPSILON`: the Value nearest to 1e-9 (`00_scope.md` R9). -/
def referenceEpsilon : Value := 0x3E112E0BE826D695#64

/-- The reference values of `00_scope.md` R9. DESIGN CHOICE (log 1) to give them to State.reset: unsafe for a claim
about a run from reset, safe for a claim about every state, which quantifies over the configuration. -/
def referenceConfig : Config where
  ramSize := 1024
  vramW := 64
  vramH := 64
  stackInitCap := 8
  stackMax := 2 ^ 20
  epsilon := referenceEpsilon
  maxProgram := 2 ^ 53
  encoding := Encoding.reference

end Sys2Proof.Machine
end

