-- ==== Sys2Proof/Machine/State.lean ====
section
/-! DEFINITION. The state of the machine as plain data (`10_state.md` R17 to R35), with the host's channels
(`60_exceptions.md` R147, R148) beside it, the reasons a step can stop, and the state after reset
(`70_reset_and_hazards.md` R155). -/

namespace Sys2Proof.Machine

/-- The fault reasons of `60_exceptions.md` R138. A fault of the block is a state, `Status.faulted`, not a host
outcome (log 9). -/
inductive FaultReason where
  /-- the fetched opcode byte has no descriptor -/
  | invalidOpcode
  /-- the stack holds fewer Values than the instruction needs -/
  | underflow
  /-- a read past the end of the stream, a fetch past it, an index or a Value out of range -/
  | outOfBounds
  /-- growth or shrink of the stack storage fails -/
  | reallocFailed
  /-- an integrity mismatch; never raised (`00_scope.md` R7; log 17) -/
  | corruptedState
  /-- an unassigned tag byte, or `pop` with the `CONST` tag -/
  | invalidOperand
  /-- the host input has ended or holds no floating value -/
  | inputFailed
  deriving DecidableEq, Repr

/-- The numeric code of a reason (`60_exceptions.md` R138). -/
def FaultReason.code : FaultReason → Nat
  | .invalidOpcode => 0
  | .underflow => 1
  | .outOfBounds => 2
  | .reallocFailed => 3
  | .corruptedState => 4
  | .invalidOperand => 5
  | .inputFailed => 6

/-- The execution status (`10_state.md` R20). -/
inductive Status where
  | running
  | halted
  | faulted (reason : FaultReason)
  deriving DecidableEq, Repr

/-- One answer of the host's input to an `in` (`43_io.md` R115). -/
inductive InputAnswer where
  | value (v : Value)
  | fail
  deriving DecidableEq, Repr

/-- The allocator oracle (`20_memory.md` R58): the answers to the coming requests, in order, and the answer to every
request after those (log 5). -/
structure Allocator where
  coming : List Bool
  thereafter : Bool
  deriving DecidableEq, Repr

/-- The events of the output and display channels (`60_exceptions.md` R148). A `cells` payload is a copy of all VRAM
cells in index order. -/
inductive Event where
  | out (v : Value)
  | newline
  | displayInit (w h : Nat)
  | draw (cells : List Value)
  | render (cells : List Value)
  deriving DecidableEq, Repr

/-- The machine. -/
@[ext]
structure State where
  /-- execution status (R20) -/
  status : Status
  /-- instruction pointer (R21) -/
  ip : Addr
  /-- the program, `stream[0..len-1]` (R24) -/
  stream : List Byte
  /-- the operand stack, TOP FIRST: its head is `S[size-1]` (R28; log 8) -/
  stack : List Value
  /-- capacity of the stack's storage (R29) -/
  cap : Nat
  /-- `x[0..25]` (R25) -/
  regs : Vector Value 26
  /-- `RAM[0..RAM_SIZE-1]` (R30) -/
  ram : Memory
  /-- `VRAM[0..VRAM_W*VRAM_H-1]` (R31) -/
  vram : Memory
  /-- graphics active (R32) -/
  gfx : Bool
  /-- an `in` waits for the host's answer (R35; log 4) -/
  inputPending : Bool
  /-- host answers no `in` has taken yet, the next first (`60_exceptions.md` R147; log 4) -/
  input : List InputAnswer
  /-- the allocator's coming answers (`60_exceptions.md` R147; log 5) -/
  alloc : Allocator
  /-- the event history, oldest first (`60_exceptions.md` R148; log 6) -/
  events : List Event
  /-- how many NaN draws have been made: the model's own field (log 2) -/
  nanDraws : Nat
  /-- the OPEN parameters (`00_scope.md` R9; log 1) -/
  cfg : Config
  deriving DecidableEq, Repr

/-- A host outcome `fault`: raised by nobody. Every fault the spec describes is the state `Status.faulted`, which the
step takes as a next state (`60_exceptions.md` R140; log 9), so this type has no constructor. Safe: nothing
stops here. -/
inductive Fault where
  deriving DecidableEq, Repr

/-- Why a request is refused. No instruction is refused. -/
inductive Refusal where
  /-- the instruction has no meaning yet: raised by no arm of this model. Safe. -/
  | notModelled (mnemonic : String)
  /-- the host operation `load` with more than `MAX_PROGRAM` bytes (`70_reset_and_hazards.md` R156). Safe. -/
  | programTooLong
  /-- the host operation `load` on a machine that is not as constructed (`60_exceptions.md` R150: assumed never).
  Safe. -/
  | notFreshlyConstructed
  deriving DecidableEq, Repr

/-- `len`, the length of the stream (R24). -/
def State.len (s : State) : Nat := s.stream.length

/-- `size`, the number of Values on the stack (R28). -/
def State.size (s : State) : Nat := s.stack.length

/-- The machine after construction (`10_state.md` R17; `70_reset_and_hazards.md` R155, R157), with a configuration and
the host's coming answers. -/
def State.construct (cfg : Config) (input : List InputAnswer) (alloc : Allocator) : State where
  status := .running
  ip := 0#64
  stream := []
  stack := []
  cap := cfg.stackInitCap
  regs := Vector.replicate 26 plusZero
  ram := []
  vram := []
  gfx := false
  inputPending := false
  input := input
  alloc := alloc
  events := []
  nanDraws := 0
  cfg := cfg

/-- The machine right after reset, before any `load` (`70_reset_and_hazards.md` R155, R157). DESIGN CHOICE for the
fields that are the model's own: the reference configuration (log 1), NaN draw 0 (log 2), no host answer yet (log 4),
and an allocator that never refuses (log 5). -/
def State.reset : State :=
  State.construct referenceConfig [] { coming := [], thereafter := true }

end Sys2Proof.Machine
end

