-- ==== Sys2Proof/Machine/Table.lean ====
section
/-! DEFINITION. The stack-in column of the opcode table (`30_encoding.md` R77, R80). -/

namespace Sys2Proof.Machine

/-- How many Values the stack must hold before the handler runs (`30_encoding.md` R77, column stack-in). -/
def stackIn : Mnemonic → Nat
  | .push => 0
  | .pop => 1
  | .dup => 1
  | .add => 2
  | .sub => 2
  | .mul => 2
  | .div => 2
  | .sin => 1
  | .cos => 1
  | .sqrt => 1
  | .pw2 => 1
  | .pwInv => 1
  | .abs => 1
  | .inp => 0
  | .out => 1
  | .outN => 0
  | .jmp => 0
  | .ja => 2
  | .jae => 2
  | .jb => 2
  | .jbe => 2
  | .je => 2
  | .jne => 2
  | .call => 0
  | .ret => 1
  | .halt => 0
  | .gInit => 0
  | .gDrawOn => 0
  | .gDrawOff => 0
  | .gDraw => 0
  | .gFill => 1

end Sys2Proof.Machine
end

