-- ==== Sys2Proof/Machine/Ops.lean ====
section
/-! DEFINITION. The named operations of the machine: one update per field of State, the allocator and the operand
stack (`20_memory.md` R53 to R59), registers and regions (R52), events (`60_exceptions.md` R148), taking a fault
(`40_execution_engine.md` R90), and the frame every instruction runs in (R88, R89, R92). -/

namespace Sys2Proof.Machine

/-! ### One update per field -/

/-- The state with `status` replaced. -/
def State.setStatus (s : State) (st : Status) : State := { s with status := st }

/-- The state with `ip` replaced. -/
def State.setIp (s : State) (a : Addr) : State := { s with ip := a }

/-- The state with `stream` replaced. -/
def State.setStream (s : State) (bs : List Byte) : State := { s with stream := bs }

/-- The state with `stack` replaced. -/
def State.setStack (s : State) (vs : List Value) : State := { s with stack := vs }

/-- The state with `cap` replaced. -/
def State.setCap (s : State) (n : Nat) : State := { s with cap := n }

/-- The state with `regs` replaced. -/
def State.setRegs (s : State) (rs : Vector Value 26) : State := { s with regs := rs }

/-- The state with `ram` replaced. -/
def State.setRam (s : State) (m : Memory) : State := { s with ram := m }

/-- The state with `vram` replaced. -/
def State.setVram (s : State) (m : Memory) : State := { s with vram := m }

/-- The state with `gfx` replaced. -/
def State.setGfx (s : State) (b : Bool) : State := { s with gfx := b }

/-- The state with `inputPending` replaced. -/
def State.setInputPending (s : State) (b : Bool) : State := { s with inputPending := b }

/-- The state with `input` replaced. -/
def State.setInput (s : State) (l : List InputAnswer) : State := { s with input := l }

/-- The state with `alloc` replaced. -/
def State.setAlloc (s : State) (al : Allocator) : State := { s with alloc := al }

/-- The state with `events` replaced. -/
def State.setEvents (s : State) (es : List Event) : State := { s with events := es }

/-- The state with `nanDraws` replaced. -/
def State.setNanDraws (s : State) (n : Nat) : State := { s with nanDraws := n }

/-! ### Results of a handler -/

/-- What a part of a handler answers. -/
inductive Res (α : Type) where
  /-- it went through -/
  | ok (a : α) (s : State)
  /-- `raise Fault(r)` (`40_execution_engine.md` R90); the state tells which host answers were taken -/
  | raise (r : FaultReason) (s : State)
  /-- the host has not answered an `in` yet (`40_execution_engine.md` R95) -/
  | wait

/-- First one part of a handler, then the next with what it gave. -/
def Res.bind {α β : Type} (x : Res α) (f : α → State → Res β) : Res β :=
  match x with
  | .ok a s => f a s
  | .raise r s => .raise r s
  | .wait => .wait

/-- The control signal a handler returns (`40_execution_engine.md` R89): `continue`, `jump-performed`, `halt`. -/
inductive Signal where
  | proceed
  | jumped
  | halt
  deriving DecidableEq, Repr

/-! ### The allocator (`20_memory.md` R58) -/

/-- `ALLOC`'s answer to the next request. -/
def Allocator.answer (al : Allocator) : Bool :=
  match al.coming with
  | [] => al.thereafter
  | b :: _ => b

/-- The allocator after one request. -/
def Allocator.advance (al : Allocator) : Allocator := { al with coming := al.coming.tail }

/-- Asks `ALLOC(newcap)` once: the storage has the new capacity, or the fault `ReallocFailed` with the old storage kept
(`20_memory.md` R54, R56, R58). -/
def realloc (newcap : Nat) (s : State) : Res Unit :=
  let s' := s.setAlloc s.alloc.advance
  if s.alloc.answer then .ok () (s'.setCap newcap) else .raise .reallocFailed s'

/-! ### The operand stack (`20_memory.md` R53 to R59) -/

/-- `cap` times 1.5, rounded half up, at most `STACK_MAX` (`20_memory.md` R54). -/
def grownCap (cap max : Nat) : Nat := min ((3 * cap + 1) / 2) max

/-- `floor(3*cap/4)` (`20_memory.md` R56). -/
def shrunkCap (cap : Nat) : Nat := 3 * cap / 4

/-- `Grow()` (`20_memory.md` R54). -/
def grow (s : State) : Res Unit :=
  let newcap := grownCap s.cap s.cfg.stackMax
  if newcap = s.cap then .raise .reallocFailed s else realloc newcap s

/-- `Shrink()` (`20_memory.md` R56). -/
def shrink (s : State) : Res Unit := realloc (shrunkCap s.cap) s

/-- `Push(v)` (`20_memory.md` R53). -/
def push (v : Value) (s : State) : Res Unit :=
  (if s.size = s.cap then grow s else .ok () s).bind fun _ s' => .ok () (s'.setStack (v :: s'.stack))

/-- `Pop()` (`20_memory.md` R55): the shrink condition is on the new size. -/
def pop (s : State) : Res Value :=
  match s.stack with
  | [] => .raise .underflow s
  | v :: rest =>
    let s' := s.setStack rest
    (if s'.cap > 2 * (s'.size + 1) then shrink s' else .ok () s').bind fun _ s'' => .ok v s''

/-- `Top()` (`20_memory.md` R57). -/
def top (s : State) : Res Value :=
  match s.stack with
  | [] => .raise .underflow s
  | v :: _ => .ok v s

/-- `SetTop(v)` (`20_memory.md` R57); the caller has checked that the stack is not empty. -/
def setTop (v : Value) (s : State) : State := s.setStack (v :: s.stack.tail)

/-! ### Registers and regions (`20_memory.md` R52) -/

/-- `x[i]`. -/
def State.reg (s : State) (i : Fin 26) : Value := s.regs[i]

/-- `x[i] <- v`. -/
def State.setReg (s : State) (i : Fin 26) (v : Value) : State := s.setRegs (s.regs.set i v)

/-- A copy of all VRAM cells (`60_exceptions.md` R148). -/
def State.vramCells (s : State) : List Value := s.vram.cells s.cfg.vramSize

/-! ### Events and draws -/

/-- `emit E` (`60_exceptions.md` R148). -/
def emit (e : Event) (s : State) : State := s.setEvents (s.events ++ [e])

/-- The NaN the next drawing operation gives where its result is a NaN (`42_arithmetic.md` R102). -/
def State.nanDraw (s : State) : Value := asNaN (Config.nanBits s.nanDraws)

/-- Runs a handler with a NaN draw of its own (`42_arithmetic.md` R102: drawn per operation, U7). -/
def drawing (h : Value → State → Res Signal) (s : State) : Res Signal :=
  h s.nanDraw (s.setNanDraws (s.nanDraws + 1))

/-! ### Jumps -/

/-- `set_position(addr)` (`20_memory.md` R42): no check. -/
def setPosition (a : Addr) (s : State) : State := s.setIp a

/-! ### Taking a fault -/

/-- `raise Fault(r)` (`40_execution_engine.md` R90; `60_exceptions.md` R140): the state of the instruction's start, `ip`
at its opcode, status `Faulted(r)`, no event of the step; only the answers already taken from the host stay taken
(`reached` is the state in which the fault arose). The block has no return from a fault (`60_exceptions.md` R141). -/
def takeFault (r : FaultReason) (start reached : State) : State :=
  (((start.setStatus (.faulted r)).setInputPending false).setAlloc reached.alloc).setInput reached.input

/-! ### The frame of an instruction -/

/-- The end of the handler (`40_execution_engine.md` R89, R90, R95): `continue` and `jump-performed` leave `ip` where it
is, `halt` halts; a fault is taken; a waiting `in` leaves the state of the start but for the pending read. -/
def commit (start : State) : Res Signal → State
  | .ok .proceed t => t.setInputPending false
  | .ok .jumped t => t.setInputPending false
  | .ok .halt t => (t.setInputPending false).setStatus .halted
  | .raise r t => takeFault r start t
  | .wait => start.setInputPending true

/-- The state a handler starts in: `ip` past the instruction (`40_execution_engine.md` R87). -/
def decoded (i : Instr) (s : State) : State := s.setIp (s.ip + BitVec.ofNat 64 i.length)

/-- An instruction from its opcode on: the depth check (`40_execution_engine.md` R88), then the handler, then its end. -/
def perform (i : Instr) (handler : State → Res Signal) (s : State) : Host.Outcome State Fault Refusal :=
  .next (commit s (if s.size < stackIn i.mnemonic then .raise .underflow s else handler (decoded i s)))

/-! ### The frame of a step -/

/-- The step ended without a fault and without waiting for the host. -/
def completed (t : State) : Bool :=
  match t.status with
  | .faulted _ => false
  | _ => !t.inputPending

/-- The end of a step (`40_execution_engine.md` R92): a `Render` of the VRAM as it stands, if graphics was active at the
start and the step completed. -/
def finishStep (start t : State) : State :=
  if start.gfx && completed t then emit (.render t.vramCells) t else t

/-- The end of the stream (`40_execution_engine.md` R85): the machine halts and `ip` stays at `len`. -/
def haltAtEnd (s : State) : State := (s.setStatus .halted).setInputPending false

end Sys2Proof.Machine
end

