-- ==== Sys2Proof/Machine/Arithmetic.lean ====
section
/-! DEFINITION. The arithmetic instructions (`42_arithmetic.md` R100 to R114). -/

namespace Sys2Proof.Machine

/-- `Binary(op)` (R103): pop `a`, pop `b`, push `op(b, a)`. -/
def binary (op : Value → Value → Value) (s : State) : Res Signal :=
  (pop s).bind fun a s => (pop s).bind fun b s => (push (op b a) s).bind fun _ s => .ok .proceed s

/-- `Unary(f)` (R104): the top replaced in place. -/
def unary (f : Value → Value) (s : State) : Res Signal :=
  (top s).bind fun v s => .ok .proceed (setTop (f v) s)

/-- `add` (R105): `b + a`. -/
def execAdd (s : State) : Host.Outcome State Fault Refusal :=
  perform .add (drawing fun nan => binary (fadd nan)) s

/-- `sub` (R106): `b - a`. -/
def execSub (s : State) : Host.Outcome State Fault Refusal :=
  perform .sub (drawing fun nan => binary (fsub nan)) s

/-- `mul` (R107): `b * a`. -/
def execMul (s : State) : Host.Outcome State Fault Refusal :=
  perform .mul (drawing fun nan => binary (fmul nan)) s

/-- `div` (R108): `b / a`. -/
def execDiv (s : State) : Host.Outcome State Fault Refusal :=
  perform .div (drawing fun nan => binary (fdiv nan)) s

/-- `sin` (R109). -/
def execSin (s : State) : Host.Outcome State Fault Refusal :=
  perform .sin (drawing fun nan => unary (fsin nan)) s

/-- `cos` (R110). -/
def execCos (s : State) : Host.Outcome State Fault Refusal :=
  perform .cos (drawing fun nan => unary (fcos nan)) s

/-- `sqrt` (R111). -/
def execSqrt (s : State) : Host.Outcome State Fault Refusal :=
  perform .sqrt (drawing fun nan => unary (fsqrt nan)) s

/-- `pw2` (R112): the square. -/
def execPw2 (s : State) : Host.Outcome State Fault Refusal :=
  perform .pw2 (drawing fun nan => unary fun v => fmul nan v v) s

/-- `pw_1` (R113): the reciprocal. -/
def execPwInv (s : State) : Host.Outcome State Fault Refusal :=
  perform .pwInv (drawing fun nan => unary fun v => fdiv nan one v) s

/-- `abs` (R114): exact on a NaN, so it draws nothing. -/
def execAbs (s : State) : Host.Outcome State Fault Refusal :=
  perform .abs (unary fabs) s

end Sys2Proof.Machine
end

