-- ==== Sys2Proof/Machine/Flags.lean ====
section
/-! DEFINITION. The block has no flags or condition codes (`10_state.md` R33). What other machines keep in flags is
computed at the jump itself: the conditions `C(a, b)` of the conditional jumps, `a` popped first (`44_control.md`
R119, R120). -/

namespace Sys2Proof.Machine

/-- `ja`: `a > b`. -/
def condAbove (a b : Value) : Bool := flt b a

/-- `jae`: `a >= b`. -/
def condAboveEq (a b : Value) : Bool := fle b a

/-- `jb`: `a < b`. -/
def condBelow (a b : Value) : Bool := flt a b

/-- `jbe`: `a <= b`. -/
def condBelowEq (a b : Value) : Bool := fle a b

/-- `je`: `fabs(fsub(a, b)) < EPSILON`. Where the difference is a NaN, the comparison is false whichever NaN it is, so
the draw `nan` has no effect (`44_control.md` R120). -/
def condNear (nan epsilon a b : Value) : Bool := flt (fabs (fsub nan a b)) epsilon

/-- `jne`: not `je`. -/
def condNotNear (nan epsilon a b : Value) : Bool := !condNear nan epsilon a b

end Sys2Proof.Machine
end

