-- ==== Sys2Proof/Machine/Control.lean ====
section
/-! DEFINITION. The control transfer instructions (`44_control.md` R118 to R131). -/

namespace Sys2Proof.Machine

/-- `CondJump(C)` (R119): both operands are consumed whether or not the jump is taken. -/
def condJump (cond : Value → Value → Bool) (target : Addr) (s : State) : Res Signal :=
  (pop s).bind fun a s => (pop s).bind fun b s =>
    if cond a b then .ok .jumped (setPosition target s) else .ok .proceed s

/-- `jmp` (R121). -/
def execJmp (target : Addr) (s : State) : Host.Outcome State Fault Refusal :=
  perform (.jmp target) (fun s => .ok .jumped (setPosition target s)) s

/-- `ja` (R122). -/
def execJa (target : Addr) (s : State) : Host.Outcome State Fault Refusal :=
  perform (.ja target) (condJump condAbove target) s

/-- `jae` (R123). -/
def execJae (target : Addr) (s : State) : Host.Outcome State Fault Refusal :=
  perform (.jae target) (condJump condAboveEq target) s

/-- `jb` (R124). -/
def execJb (target : Addr) (s : State) : Host.Outcome State Fault Refusal :=
  perform (.jb target) (condJump condBelow target) s

/-- `jbe` (R125). -/
def execJbe (target : Addr) (s : State) : Host.Outcome State Fault Refusal :=
  perform (.jbe target) (condJump condBelowEq target) s

/-- `je` (R126). -/
def execJe (target : Addr) (s : State) : Host.Outcome State Fault Refusal :=
  perform (.je target) (condJump (condNear s.nanDraw s.cfg.epsilon) target) s

/-- `jne` (R127). -/
def execJne (target : Addr) (s : State) : Host.Outcome State Fault Refusal :=
  perform (.jne target) (condJump (condNotNear s.nanDraw s.cfg.epsilon) target) s

/-- `call` (R128): the return address is `ip` after decoding, pushed as a Value. -/
def execCall (target : Addr) (s : State) : Host.Outcome State Fault Refusal :=
  perform (.call target)
    (fun s => (push (valueOfNat s.ip.toNat) s).bind fun _ s => .ok .jumped (setPosition target s)) s

/-- The handler of `ret` (R129): the conversion before the pop. -/
def returnToTop (s : State) : Res Signal :=
  (top s).bind fun v s =>
    match toAddress v with
    | none => .raise .outOfBounds s
    | some t => (pop s).bind fun _ s => .ok .jumped (setPosition t s)

/-- `ret` (R129). -/
def execRet (s : State) : Host.Outcome State Fault Refusal :=
  perform .ret returnToTop s

/-- `halt` (R131): `ip` stays past the opcode byte. -/
def execHalt (s : State) : Host.Outcome State Fault Refusal :=
  perform .halt (fun s => .ok .halt s) s

end Sys2Proof.Machine
end

