-- ==== Sys2Proof/Machine/Graphics.lean ====
section
/-! DEFINITION. The graphics instructions (`45_graphics.md` R132 to R137). -/

namespace Sys2Proof.Machine

/-- `g_init` (R133): VRAM and `gfx` unchanged. -/
def execGInit (s : State) : Host.Outcome State Fault Refusal :=
  perform .gInit (fun s => .ok .proceed (emit (.displayInit s.cfg.vramW s.cfg.vramH) s)) s

/-- `g_draw_on` (R134). -/
def execGDrawOn (s : State) : Host.Outcome State Fault Refusal :=
  perform .gDrawOn (fun s => .ok .proceed (s.setGfx true)) s

/-- `g_draw_off` (R135). -/
def execGDrawOff (s : State) : Host.Outcome State Fault Refusal :=
  perform .gDrawOff (fun s => .ok .proceed (s.setGfx false)) s

/-- `g_draw` (R136): a full snapshot, whatever `gfx` is. -/
def execGDraw (s : State) : Host.Outcome State Fault Refusal :=
  perform .gDraw (fun s => .ok .proceed (emit (.draw s.vramCells) s)) s

/-- `g_fill` (R137): the popped Value into every VRAM cell. -/
def execGFill (s : State) : Host.Outcome State Fault Refusal :=
  perform .gFill
    (fun s => (pop s).bind fun v s => .ok .proceed (s.setVram (Memory.fill s.cfg.vramSize v))) s

end Sys2Proof.Machine
end

