-- ==== Sys2Proof/Machine/InputOutput.lean ====
section
/-! DEFINITION. The input and output instructions (`43_io.md` R115 to R117). -/

namespace Sys2Proof.Machine

/-- The handler of `in` (R115): with no answer of the host it waits (`40_execution_engine.md` R95; log 4); an answer is
taken for good, even if the push then faults. -/
def readInput (s : State) : Res Signal :=
  match s.input with
  | [] => .wait
  | .fail :: rest => .raise .inputFailed (s.setInput rest)
  | .value v :: rest => (push v (s.setInput rest)).bind fun _ s => .ok .proceed s

/-- `in` (R115). -/
def execInp (s : State) : Host.Outcome State Fault Refusal :=
  perform .inp readInput s

/-- `out` (R116): the Value, not text; the event only after the pop has succeeded. -/
def execOut (s : State) : Host.Outcome State Fault Refusal :=
  perform .out (fun s => (pop s).bind fun v s => .ok .proceed (emit (.out v) s)) s

/-- `out_n` (R117): pops nothing. -/
def execOutN (s : State) : Host.Outcome State Fault Refusal :=
  perform .outN (fun s => .ok .proceed (emit .newline s)) s

end Sys2Proof.Machine
end

