-- ==== Sys2Proof/Machine/Operands.lean ====
section
/-! DEFINITION. The operand forms of `push` and `pop` (`30_encoding.md` R70, R74; `20_memory.md` R52): where a tagged
operand points, and reading and writing there. -/

namespace Sys2Proof.Machine

/-- A cell that exists: a register below 26, a RAM cell below `RAM_SIZE`, a VRAM cell below `VRAM_W*VRAM_H`. -/
inductive Place where
  | reg (i : Fin 26)
  | ram (i : Nat)
  | vram (i : Nat)
  deriving DecidableEq, Repr

/-- The cell a tagged operand names: `OutOfBounds` for a register index of 26 or more (`20_memory.md` R52) and for an
index that `ToIndex` rejects (R49). A constant names no cell: `InvalidOperand` (`30_encoding.md` R72). -/
def locate (o : Operand) (s : State) : Res Place :=
  match o with
  | .const _ => .raise .invalidOperand s
  | .reg i => if h : i.toNat < 26 then .ok (.reg ⟨i.toNat, h⟩) s else .raise .outOfBounds s
  | .ram v =>
    match toIndex v s.cfg.ramSize with
    | some i => .ok (.ram i) s
    | none => .raise .outOfBounds s
  | .vram v =>
    match toIndex v s.cfg.vramSize with
    | some i => .ok (.vram i) s
    | none => .raise .outOfBounds s

/-- `RegionRead` (`20_memory.md` R52). -/
def readPlace (p : Place) (s : State) : Value :=
  match p with
  | .reg i => s.reg i
  | .ram i => s.ram.read i
  | .vram i => s.vram.read i

/-- `RegionWrite` (`20_memory.md` R52): the 64-bit pattern unchanged. -/
def writePlace (p : Place) (v : Value) (s : State) : State :=
  match p with
  | .reg i => s.setReg i v
  | .ram i => s.setRam (s.ram.write i v)
  | .vram i => s.setVram (s.vram.write i v)

/-- The Value a tagged source gives (`41_stack_transfer.md` R97). -/
def sourceValue (o : Operand) (s : State) : Res Value :=
  match o with
  | .const v => .ok v s
  | .reg i => (locate (.reg i) s).bind fun p s' => .ok (readPlace p s') s'
  | .ram v => (locate (.ram v) s).bind fun p s' => .ok (readPlace p s') s'
  | .vram v => (locate (.vram v) s).bind fun p s' => .ok (readPlace p s') s'

end Sys2Proof.Machine
end

