-- ==== Sys2Proof/Machine/Transfer.lean ====
section
/-! DEFINITION. The stack transfer instructions (`41_stack_transfer.md` R97 to R99). -/

namespace Sys2Proof.Machine

/-- `push` (R97): the Value of a constant, register, RAM or VRAM cell. -/
def execPush (source : Operand) (s : State) : Host.Outcome State Fault Refusal :=
  perform (.push source)
    (fun s => (sourceValue source s).bind fun v s => (push v s).bind fun _ s => .ok .proceed s) s

/-- The handler of `pop` (R98): the index is checked before the pop. -/
def popTo (dest : Operand) (s : State) : Res Signal :=
  (locate dest s).bind fun p s => (pop s).bind fun v s => .ok .proceed (writePlace p v s)

/-- `pop` (R98). The `CONST` tag is `InvalidOperand` before the depth check (`40_execution_engine.md` R91, item 3;
log 12): the decoder raises it, and the meaning of the ill-formed term is the same fault. -/
def execPop (dest : Operand) (s : State) : Host.Outcome State Fault Refusal :=
  if dest.isDestination then perform (.pop dest) (popTo dest) s
  else .next (takeFault .invalidOperand s s)

/-- `dup` (R99). -/
def execDup (s : State) : Host.Outcome State Fault Refusal :=
  perform .dup (fun s => (top s).bind fun v s => (push v s).bind fun _ s => .ok .proceed s) s

end Sys2Proof.Machine
end

