-- ==== Sys2Proof/Machine/Dispatch.lean ====
section
/-! DEFINITION. The meaning of every instruction, one arm each. -/

namespace Sys2Proof.Machine

def exec (i : Instr) (s : State) : Host.Outcome State Fault Refusal :=
  match i with
  | .push source => Sys2Proof.Machine.execPush source s
  | .pop dest => Sys2Proof.Machine.execPop dest s
  | .dup => Sys2Proof.Machine.execDup s
  | .add => Sys2Proof.Machine.execAdd s
  | .sub => Sys2Proof.Machine.execSub s
  | .mul => Sys2Proof.Machine.execMul s
  | .div => Sys2Proof.Machine.execDiv s
  | .sin => Sys2Proof.Machine.execSin s
  | .cos => Sys2Proof.Machine.execCos s
  | .sqrt => Sys2Proof.Machine.execSqrt s
  | .pw2 => Sys2Proof.Machine.execPw2 s
  | .pwInv => Sys2Proof.Machine.execPwInv s
  | .abs => Sys2Proof.Machine.execAbs s
  | .inp => Sys2Proof.Machine.execInp s
  | .out => Sys2Proof.Machine.execOut s
  | .outN => Sys2Proof.Machine.execOutN s
  | .jmp target => Sys2Proof.Machine.execJmp target s
  | .ja target => Sys2Proof.Machine.execJa target s
  | .jae target => Sys2Proof.Machine.execJae target s
  | .jb target => Sys2Proof.Machine.execJb target s
  | .jbe target => Sys2Proof.Machine.execJbe target s
  | .je target => Sys2Proof.Machine.execJe target s
  | .jne target => Sys2Proof.Machine.execJne target s
  | .call target => Sys2Proof.Machine.execCall target s
  | .ret => Sys2Proof.Machine.execRet s
  | .halt => Sys2Proof.Machine.execHalt s
  | .gInit => Sys2Proof.Machine.execGInit s
  | .gDrawOn => Sys2Proof.Machine.execGDrawOn s
  | .gDrawOff => Sys2Proof.Machine.execGDrawOff s
  | .gDraw => Sys2Proof.Machine.execGDraw s
  | .gFill => Sys2Proof.Machine.execGFill s

end Sys2Proof.Machine
end

