-- ==== Sys2Proof/Machine/Fetch.lean ====
section
/-! DEFINITION. Fetching and decoding at `ip` (`40_execution_engine.md` R85 to R87), and placing bytes where the next
fetch reads. -/

namespace Sys2Proof.Machine

/-- The fault of a decoder's error (`40_execution_engine.md` R91). -/
def faultOf : DecodeError → FaultReason
  | .invalidOpcode => .invalidOpcode
  | .invalidOperand => .invalidOperand
  | .outOfBounds => .outOfBounds

/-- What the fetch of a running machine gives. -/
inductive Fetched where
  | endOfStream
  | fault (r : FaultReason)
  | instr (i : Instr)
  deriving DecidableEq, Repr

/-- `MemRead(addr, n)` (`20_memory.md` R38); `none` is its fault `OutOfBounds`. -/
def memRead (s : State) (addr n : Nat) : Option (List Byte) :=
  if addr + n ≤ s.len then some ((s.stream.drop addr).take n) else none

/-- The bytes from `ip` to the end of the stream. -/
def bytesAtIp (s : State) : List Byte := s.stream.drop s.ip.toNat

/-- The fetch and decode of a step (`40_execution_engine.md` R85, R86, R87). -/
def fetch (s : State) : Fetched :=
  if s.ip.toNat = s.len then .endOfStream
  else if s.ip.toNat > s.len then .fault .outOfBounds
  else
    match decode s.cfg.encoding (bytesAtIp s) with
    | .ok (i, _) => .instr i
    | .error err => .fault (faultOf err)

/-- The stream with `bs` at offset `at`, zero bytes filling a gap before it, and the bytes after it kept. -/
def overlay (stream bs : List Byte) (offset : Nat) : List Byte :=
  stream.take offset ++ (List.replicate (offset - stream.length) 0#8 ++ (bs ++ stream.drop (offset + bs.length)))

/-- The state with bytes placed at `ip` and ready to step. It stands for the host's `load` (log 10). -/
def State.withBytesAtIp (s : State) (bs : List Byte) : State :=
  (s.setStream (overlay s.stream bs s.ip.toNat)).setStatus .running

end Sys2Proof.Machine
end

