-- ==== Sys2Proof/Machine/Step.lean ====
section
/-! DEFINITION. One step of the machine (`40_execution_engine.md` R83 to R93). -/

namespace Sys2Proof.Machine

/-- `step()` (`40_execution_engine.md` R93): a terminal state steps to itself (R84); a running machine fetches, halts at
the end of the stream, takes the fault of a failed fetch, or runs the instruction and then renders (R92). -/
def step (s : State) : Host.Outcome State Fault Refusal :=
  match s.status with
  | .halted => .next s
  | .faulted _ => .next s
  | .running =>
    match fetch s with
    | .endOfStream => .next (finishStep s (haltAtEnd s))
    | .fault r => .next (takeFault r s s)
    | .instr i =>
      match exec i s with
      | .next t => .next (finishStep s t)
      | .fault f => .fault f
      | .refused r => .refused r

/-- The state with the instruction whose bits are `w` stored at `ip`, so that the very next step fetches and runs it
(log 10). -/
def State.withFetchWord (s : State) (nbits w : Nat) : State := s.withBytesAtIp (tableBytes nbits w)

end Sys2Proof.Machine
end

