-- ==== Sys2Proof/Machine/Container.lean ====
section
/-! DEFINITION. The stack container by itself, outside any machine, with its own operation `clear()` (`20_memory.md` R59).
The host has no way to call it on a loaded machine (`60_exceptions.md` R149), so it acts on a container and never on a
State; no instruction uses it. -/

namespace Sys2Proof.Machine

/-- The stack container: its Values, top first (log 8), its capacity and its allocator. -/
structure Container where
  values : List Value
  cap : Nat
  alloc : Allocator
  deriving DecidableEq, Repr

/-- The container that a machine's operand stack is held in, as a copy. -/
def State.container (s : State) : Container := { values := s.stack, cap := s.cap, alloc := s.alloc }

/-- Pops until no Value is left, each with the shrink of `20_memory.md` R55 and R56. -/
def clearFrom : List Value → Nat → Allocator → Except FaultReason Container
  | [], cap, al => .ok { values := [], cap := cap, alloc := al }
  | _ :: rest, cap, al =>
    if cap > 2 * (rest.length + 1) then
      if al.answer then clearFrom rest (shrunkCap cap) al.advance else .error .reallocFailed
    else clearFrom rest cap al

/-- `clear()` (`20_memory.md` R59): "pops repeatedly to size 0"; a refused shrink fails with `ReallocFailed`. -/
def Container.clear (c : Container) : Except FaultReason Container := clearFrom c.values c.cap c.alloc

end Sys2Proof.Machine
end

