-- ==== Sys2Proof/Machine/HostApi.lean ====
section
/-! DEFINITION. What the host may do between steps (`60_exceptions.md` R147, R149, R150, R153): load a program, answer an
`in`, run to the end, and read copies of the state. None of it is an instruction. -/

namespace Sys2Proof.Machine

/-- `load(bytes)` (`70_reset_and_hazards.md` R156): once, before the first step, so into a machine as constructed
(`60_exceptions.md` R150; log 11); refused where the program is longer than `MAX_PROGRAM`. -/
def load (bytes : List Byte) (s : State) : Host.Outcome State Fault Refusal :=
  if s = State.construct s.cfg s.input s.alloc then
    if bytes.length ≤ s.cfg.maxProgram then
      .next (((s.setStream bytes).setIp 0#64).setStatus .running)
    else .refused .programTooLong
  else .refused .notFreshlyConstructed

/-- The host answers one `in` (`60_exceptions.md` R147, R150): the answer waits behind those not taken yet, and nothing
else changes (log 4). -/
def supplyInput (r : InputAnswer) (s : State) : State := s.setInput (s.input ++ [r])

/-- Whether the run is over (`10_state.md` R20). -/
def State.terminal (s : State) : Bool :=
  match s.status with
  | .running => false
  | .halted => true
  | .faulted _ => true

/-- `run()` (`40_execution_engine.md` R94) for at most `fuel` steps: it steps until the status is terminal. A hang, in `in`
or in a loop, uses the fuel up (log 21). -/
def run : Nat → State → Host.Outcome State Fault Refusal
  | 0, s => .next s
  | fuel + 1, s =>
    if s.terminal then .next s
    else
      match step s with
      | .next t => run fuel t
      | .fault f => .fault f
      | .refused r => .refused r

/-- `is_empty()` (`10_state.md` R34). -/
def State.isEmpty (s : State) : Bool := s.stack.isEmpty

/-- `is_full()` (`10_state.md` R34). -/
def State.isFull (s : State) : Bool := s.size == s.cap

/-- `capacity()` (`10_state.md` R29, R34). -/
def State.capacity (s : State) : Nat := s.cap

/-- The RAM accessor (`60_exceptions.md` R149): `none` outside `RAM_SIZE`. -/
def State.ramCell (s : State) (i : Nat) : Option Value :=
  if i < s.cfg.ramSize then some (s.ram.read i) else none

/-- The VRAM accessor: `none` outside `VRAM_W*VRAM_H`. -/
def State.vramCell (s : State) (i : Nat) : Option Value :=
  if i < s.cfg.vramSize then some (s.vram.read i) else none

/-- What `dump()` renders (`60_exceptions.md` R149, R153, and the debug read of R147's channels): copies of the stack and
its capacity, the registers, RAM and VRAM, `status`, `ip` and `gfx`. -/
structure Dump where
  status : Status
  ip : Addr
  /-- the operand stack, bottom first as the spec writes it -/
  stack : List Value
  cap : Nat
  /-- `x[0]` to `x[25]` -/
  regs : List Value
  /-- `RAM[0]` to `RAM[RAM_SIZE-1]` -/
  ram : List Value
  /-- `VRAM[0]` to `VRAM[VRAM_W*VRAM_H-1]` -/
  vram : List Value
  gfx : Bool
  deriving DecidableEq, Repr

/-- `dump()` (`60_exceptions.md` R149, R153): its content; the text layout is out of scope (`00_scope.md` R6). It reads
state and writes none. That it shows all of the debug read is DEDUCED (log 23). -/
def dump (s : State) : Dump where
  status := s.status
  ip := s.ip
  stack := s.stack.reverse
  cap := s.cap
  regs := s.regs.toList
  ram := s.ram.cells s.cfg.ramSize
  vram := s.vramCells
  gfx := s.gfx

/-- The cell at column `c` and row `r` as the display reads VRAM, row by row (`45_graphics.md` R132). -/
def State.pixel (s : State) (c r : Nat) : Option Value :=
  if c < s.cfg.vramW ∧ r < s.cfg.vramH then some (s.vram.read (r * s.cfg.vramW + c)) else none

end Sys2Proof.Machine
end

