-- ==== Sys2Proof/Safety.lean ====
section
/-! DEFINITION. The terms that claims about the machine use: admissible parameters, the invariant of the machine, what a
push or a pop that goes through leaves, and what it is for a Value to be the correctly rounded one. -/

namespace Sys2Proof.Machine

/-! ### Parameters -/

/-- `OPCODE_MAP` is injective (`30_encoding.md` R78). -/
abbrev OpcodesInjective (t : OpcodeMap) : Prop := (Mnemonic.all.map t.code).Nodup

/-- The four tags have four bytes. DESIGN CHOICE (log 22): the spec requires injectivity of OPCODE_MAP only (R78) and does
not state it of TAG_MAP (`30_encoding.md` R72; D6). -/
abbrev TagsInjective (t : TagMap) : Prop := (pushTags.map t.code).Nodup

/-- Both maps are injective: the spec's requirement for OPCODE_MAP (`30_encoding.md` R78), the model's choice for TAG_MAP
(log 22). -/
abbrev EncodingInjective (e : Encoding) : Prop := OpcodesInjective e.opcodes ∧ TagsInjective e.tags

/-- The constraints of `00_scope.md` R9 and `30_encoding.md` R78 on the OPEN parameters, and beside them the model's own
that TAG_MAP is injective (log 22). -/
abbrev Admissible (c : Config) : Prop :=
  1 ≤ c.ramSize ∧ 1 ≤ c.vramW ∧ 1 ≤ c.vramH ∧ 1 ≤ c.stackInitCap ∧ c.stackInitCap ≤ c.stackMax ∧
    flt plusZero c.epsilon = true ∧ c.maxProgram ≤ 2 ^ 53 ∧ EncodingInjective c.encoding

/-- `AllocNeverFails` (`20_memory.md` R58): the allocator grants every request. -/
abbrev AllocNeverFails (al : Allocator) : Prop := al.thereafter = true ∧ ∀ b ∈ al.coming, b = true

/-! ### The invariant -/

/-- What holds of every state the machine can reach: `size ≤ cap` and `1 ≤ cap ≤ STACK_MAX` (`10_state.md` R29), the
program no longer than `MAX_PROGRAM` (R24), RAM and VRAM in canonical form and inside their sizes (R30, R31), and a
pending read only while running (R35). -/
abbrev Inv (s : State) : Prop :=
  Admissible s.cfg ∧ s.size ≤ s.cap ∧ 1 ≤ s.cap ∧ s.cap ≤ s.cfg.stackMax ∧ s.len ≤ s.cfg.maxProgram ∧
    s.ram.wf ∧ s.ram.within s.cfg.ramSize ∧ s.vram.wf ∧ s.vram.within s.cfg.vramSize ∧
    (s.inputPending = true → s.status = .running)

/-- A run is safe so far: no fault has been taken (`60_exceptions.md` R139: every fault is terminal). -/
def State.unfaulted (s : State) : Bool :=
  match s.status with
  | .running => true
  | .halted => true
  | .faulted _ => false

/-! ### Pushes and pops that go through, in the words of `20_memory.md` R53 to R56 -/

/-- The push finds room, or the storage can grow and the allocator grants it. -/
abbrev PushGoesThrough (s : State) : Prop :=
  s.stack.length = s.cap → min ((3 * s.cap + 1) / 2) s.cfg.stackMax ≠ s.cap ∧ s.alloc.answer = true

/-- There is a Value to pop, and where the storage shrinks the allocator grants it. -/
abbrev PopGoesThrough (s : State) : Prop :=
  s.stack ≠ [] ∧ (s.cap > 2 * s.stack.length → s.alloc.answer = true)

/-- The state after a push of `v` that goes through: a full storage first grows by 3/2, rounded half up, to at most
`STACK_MAX`, which asks the allocator once. -/
def pushed (v : Value) (s : State) : State :=
  if s.stack.length = s.cap then
    { s with stack := v :: s.stack, cap := min ((3 * s.cap + 1) / 2) s.cfg.stackMax, alloc := s.alloc.advance }
  else { s with stack := v :: s.stack }

/-- The state after a pop that goes through: with `size` the new size, the storage shrinks to 3/4 when
`cap > 2*(size+1)`, which asks the allocator once. (`size + 1` is the old size.) -/
def popped (s : State) : State :=
  if s.cap > 2 * s.stack.length then
    { s with stack := s.stack.tail, cap := 3 * s.cap / 4, alloc := s.alloc.advance }
  else { s with stack := s.stack.tail }

/-- The state after the fault `r` of an instruction that took no answer from the host
(`40_execution_engine.md` R90). -/
def faultedAt (r : FaultReason) (s : State) : State := { s with status := .faulted r, inputPending := false }

/-- The `Render` that ends a step which began in `s` and wrote no VRAM cell: there is one if graphics was active
(`40_execution_engine.md` R92). -/
def renderOf (s : State) : List Event :=
  if s.gfx = true then [.render ((List.range (s.cfg.vramW * s.cfg.vramH)).map s.vram.read)] else []

/-- The state after an instruction whose push cannot go through, the storage being full (`20_memory.md` R54, R58): at the
largest capacity the allocator is not asked, else its refusal is taken. -/
def pushRefused (s : State) : State :=
  { faultedAt .reallocFailed s with
    alloc := if min ((3 * s.cap + 1) / 2) s.cfg.stackMax = s.cap then s.alloc else s.alloc.advance }

/-- The state after an instruction whose pop finds its shrink refused (`20_memory.md` R56, R58): the refusal is taken. -/
def popRefused (s : State) : State := { faultedAt .reallocFailed s with alloc := s.alloc.advance }

/-- The state after an instruction whose first pop went through and whose second finds its shrink refused. -/
def secondPopRefused (s : State) : State :=
  { faultedAt .reallocFailed s with alloc := (popped s).alloc.advance }

/-- Cycles of one pop and then one push, the Values pushed one a cycle (`20_memory.md` R61). -/
def popPushCycles : List Value → State → Res Unit
  | [], s => .ok () s
  | v :: vs, s => (pop s).bind fun _ s => (push v s).bind fun _ s => popPushCycles vs s

/-- Pushes of a list of Values, in order (`20_memory.md` R60). -/
def pushAll : List Value → State → Res Unit
  | [], s => .ok () s
  | v :: vs, s => (push v s).bind fun _ s => pushAll vs s

/-- `k` pops, the Values in the order popped (`20_memory.md` R60). -/
def popMany : Nat → State → Res (List Value)
  | 0, s => .ok [] s
  | k + 1, s => (pop s).bind fun v s => (popMany k s).bind fun vs s => .ok (v :: vs) s

/-! ### Correct rounding -/

/-- The Value is finite. -/
abbrev IsFinite (v : Value) : Prop := expField v ≠ 2047

/-- The Value is an infinity. -/
abbrev IsInfinite (v : Value) : Prop := magnitude v = infMagnitude

/-- A finite Value as a signed multiple of 2^-1074. -/
def signedUnits (v : Value) : Int := signed (signBit v) (unitsOf v)

/-- The largest finite Value plus half the spacing there, in units of 2^-1074: what reaches it rounds to infinity. -/
def overflowUnits : Nat := (2 ^ 54 - 1) * 2 ^ 2044

/-- `r` is the number `num / den` units rounded to nearest, ties to even (`00_scope.md` R11; `42_arithmetic.md` R101):
an infinity of the number's sign where the number overflows, else a finite Value with none nearer, and with an even
significand where another finite Value is as near. -/
def CorrectlyRounded (num : Int) (den : Nat) (r : Value) : Prop :=
  if overflowUnits * den ≤ num.natAbs then IsInfinite r ∧ (signBit r = true ↔ num < 0)
  else
    IsFinite r ∧ ∀ c : Value, IsFinite c →
      (signedUnits r * den - num).natAbs ≤ (signedUnits c * den - num).natAbs ∧
      ((signedUnits r * den - num).natAbs = (signedUnits c * den - num).natAbs →
        signedUnits c ≠ signedUnits r → magnitude r % 2 = 0)

end Sys2Proof.Machine
end

