-- ==== Sys2Proof/Certificates/Slice0/Obligations.lean ====
section
/-! DEFINITION. The statements about the machine for the provers. A state after an instruction is written out as the
state before with the named fields replaced, so each such equation is the instruction's frame as well: every field it
does not name, every register and every cell of RAM and VRAM among them, is as before. -/

open Sys2Proof Sys2Proof.Machine

/-! ### Encoding (`30_encoding.md`) -/

/-- Under the reference maps, instructions written out byte by byte from the spec's encodings are read as those
instructions: the examples of R97, R98, R121, R128 and single opcode bytes of R77. -/
def Obligations.WrittenWordsDecode : Prop :=
  decode Encoding.reference [0x01, 0x00, 0x00, 0x00, 0x00, 0x00, 0x00, 0x00, 0x08, 0x40]
    = .ok (.push (.const 0x4008000000000000#64), []) ∧
  decode Encoding.reference [0x02, 0x01, 0x00] = .ok (.pop (.reg 0), []) ∧
  decode Encoding.reference [0x11, 0x3C, 0x00, 0x00, 0x00, 0x00, 0x00, 0x00, 0x00] = .ok (.jmp 60#64, []) ∧
  decode Encoding.reference [0x18, 0x15, 0x00, 0x00, 0x00, 0x00, 0x00, 0x00, 0x00] = .ok (.call 21#64, []) ∧
  decode Encoding.reference [0x04] = .ok (.add, []) ∧
  decode Encoding.reference [0x0E] = .ok (.inp, []) ∧
  decode Encoding.reference [0x1F] = .ok (.gFill, [])

/-- Decode and encode agree: under every injective OPCODE_MAP and TAG_MAP (that TAG_MAP is injective is log 22), every well-formed instruction, with every
operand, is read back from its bytes, and the bytes after it are left alone. -/
def Obligations.DecodeOfEncode : Prop :=
  ∀ (e : Encoding) (i : Instr) (rest : List Byte), EncodingInjective e → i.wellFormed = true →
    decode e (encode e i ++ rest) = .ok (i, rest)

/-- The other direction: whatever bytes are read as an instruction are that instruction's encoding, and the instruction
is well-formed. -/
def Obligations.DecodedBytesAreTheEncoding : Prop :=
  ∀ (e : Encoding) (bs rest : List Byte) (i : Instr), decode e bs = .ok (i, rest) →
    i.wellFormed = true ∧ bs = encode e i ++ rest

/-- R79: a byte that OPCODE_MAP does not assign is an invalid opcode, and fetching it faults InvalidOpcode; under the
reference map these are 0x00 and 0x20 to 0xFF. -/
def Obligations.UnassignedOpcodeFaults : Prop :=
  (∀ (s : State) (b : Byte), s.status = .running → s.stream[s.ip.toNat]? = some b →
    (∀ m, s.cfg.encoding.opcodes.code m ≠ b) → step s = .next (faultedAt .invalidOpcode s)) ∧
  (∀ b : Byte, (∀ m, OpcodeMap.reference.code m ≠ b) ↔ (b = 0x00#8 ∨ 0x20#8 ≤ b))

/-- R72: the reference tags; `push` admits all four tags and `pop` all but CONST; an unassigned tag byte of `push`, and an
unassigned or the CONST tag byte of `pop`, fault InvalidOperand, whatever follows the tag byte. The maps are injective, for
TAG_MAP the model's premise (log 22). -/
def Obligations.TagNotAdmittedFaults : Prop :=
  (TagMap.reference.const = 0x00#8 ∧ TagMap.reference.reg = 0x01#8 ∧ TagMap.reference.ram = 0x02#8 ∧
    TagMap.reference.vram = 0x03#8) ∧
  (∀ (e : Encoding) (o : Operand) (rest : List Byte), EncodingInjective e →
    decode e (encode e (.push o) ++ rest) = .ok (.push o, rest) ∧
    ((∀ v, o ≠ .const v) → decode e (encode e (.pop o) ++ rest) = .ok (.pop o, rest))) ∧
  (∀ (s : State) (b : Byte), s.status = .running → EncodingInjective s.cfg.encoding →
    s.stream[s.ip.toNat]? = some s.cfg.encoding.opcodes.push → s.stream[s.ip.toNat + 1]? = some b →
    (∀ g, s.cfg.encoding.tags.code g ≠ b) → step s = .next (faultedAt .invalidOperand s)) ∧
  (∀ (s : State) (b : Byte), s.status = .running → EncodingInjective s.cfg.encoding →
    s.stream[s.ip.toNat]? = some s.cfg.encoding.opcodes.pop → s.stream[s.ip.toNat + 1]? = some b →
    ((∀ g, s.cfg.encoding.tags.code g ≠ b) ∨ b = s.cfg.encoding.tags.const) →
    step s = .next (faultedAt .invalidOperand s))

/-- An instruction cut short by the end of the stream, after any of its bytes but the last, faults OutOfBounds. -/
def Obligations.TruncatedInstructionFaults : Prop :=
  ∀ (s : State) (i : Instr) (k : Nat), s.status = .running → EncodingInjective s.cfg.encoding → i.wellFormed = true →
    0 < k → k < (encode s.cfg.encoding i).length →
    s.stream.drop s.ip.toNat = (encode s.cfg.encoding i).take k →
    step s = .next (faultedAt .outOfBounds s)

/-! ### The step (`40_execution_engine.md`) -/

/-- A step runs the decoded instruction: where the bytes at `ip` are read as `i` and `exec i` answers `t`, the step
answers `t`, with a `Render` of the VRAM after it if graphics was active at the start and the instruction neither
faulted nor waits for input. -/
def Obligations.StepRunsDecodedInstruction : Prop :=
  ∀ (s t : State) (i : Instr) (rest : List Byte), s.status = .running → s.ip.toNat < s.stream.length →
    decode s.cfg.encoding (s.stream.drop s.ip.toNat) = .ok (i, rest) → exec i s = .next t →
    step s = .next (if s.gfx = true ∧ t.unfaulted = true ∧ t.inputPending = false then
      { t with events := t.events ++ [.render ((List.range (t.cfg.vramW * t.cfg.vramH)).map t.vram.read)] } else t)

/-- No instruction is refused and none stops the model: every instruction in every state, and every step, answers a next
state. Two of these states are the model's form: a fault of the block is a state (log 9), and so is an `in` that the host
has not answered, where the spec's step does not complete (R95; the model's choice, log 4). -/
def Obligations.EveryStepAnswers : Prop :=
  (∀ (i : Instr) (s : State), ∃ t, exec i s = .next t) ∧ (∀ s : State, ∃ t, step s = .next t)

/-- R84: a step in Halted or Faulted changes nothing and emits nothing. -/
def Obligations.TerminalStepChangesNothing : Prop :=
  ∀ (s : State), s.status = .halted ∨ (∃ r, s.status = .faulted r) → step s = .next s

/-- R85 with R92: a fetch at `ip = len` halts with `ip` unchanged (so an empty stream halts at once), and renders if
graphics is active; a fetch past `len` faults OutOfBounds. -/
def Obligations.FetchAtAndPastTheEnd : Prop :=
  (∀ s : State, s.status = .running → s.ip.toNat = s.stream.length →
    step s = .next { s with
      status := .halted
      inputPending := false
      events := s.events ++ renderOf s }) ∧
  (∀ s : State, s.status = .running → s.stream.length < s.ip.toNat → step s = .next (faultedAt .outOfBounds s))

/-- R92: a step that began Running with graphics active and did not fault ends with a Render of the VRAM as it stands after
the step, after every other event of the step; no other step renders. (A step held in `in` has not ended, R95; what the
model leaves then is `InHoldsUntilAnswered`.) -/
def Obligations.RenderEndsTheStep : Prop :=
  ∀ s t : State, s.status = .running → step s = .next t → t.inputPending = false →
    ∃ es : List Event, (∀ e ∈ es, ∀ cells, e ≠ .render cells) ∧
      t.events = s.events ++ es ++
        (if s.gfx = true ∧ t.unfaulted = true then
          [.render ((List.range (s.cfg.vramW * s.cfg.vramH)).map t.vram.read)] else [])

/-- A step that faults leaves the state of its start but for the status and the answers already taken from the host: stack,
cap, registers, RAM, VRAM, gfx, ip and the events are as they were (R90). That a pending read ends and the draw counter is
rolled back too is the model's (log 19). How many answers each fault takes: `RefusedAllocationFaults`,
`InTakesTheHostsAnswer`. -/
def Obligations.FaultRollsBack : Prop :=
  ∀ (s t : State) (r : FaultReason), s.status = .running → step s = .next t → t.status = .faulted r →
    ∃ j k : Nat, t = { faultedAt r s with
      alloc := { s.alloc with coming := s.alloc.coming.drop j }
      input := s.input.drop k }

/-- R37: no step writes the instruction stream. -/
def Obligations.StreamIsNeverWritten : Prop :=
  ∀ s t : State, step s = .next t → t.stream = s.stream

/-- Who writes what: registers only `pop` with the REG tag, RAM only `pop` with the RAM tag, VRAM only `pop` with the VRAM
tag and `g_fill`, gfx only `g_draw_on` and `g_draw_off`, the event history only `out`, `out_n`, `g_init` and `g_draw`
(before the Render of the step), the host's input only `in`, and the configuration (the model's field, log 1) nothing. -/
def Obligations.OnlyNamedInstructionsWrite : Prop :=
  ∀ (i : Instr) (s t : State), exec i s = .next t →
    (t.regs ≠ s.regs → ∃ k, i = .pop (.reg k)) ∧
    (t.ram ≠ s.ram → ∃ v, i = .pop (.ram v)) ∧
    (t.vram ≠ s.vram → (∃ v, i = .pop (.vram v)) ∨ i = .gFill) ∧
    (t.gfx ≠ s.gfx → i = .gDrawOn ∨ i = .gDrawOff) ∧
    (t.events ≠ s.events → i = .out ∨ i = .outN ∨ i = .gInit ∨ i = .gDraw) ∧
    (t.input ≠ s.input → i = .inp) ∧
    t.cfg = s.cfg

/-- Where `ip` stands after the step of an instruction `i` of `L` bytes: at its opcode after a fault, past the opcode byte
after `halt`, and past the instruction if it is no jump, call or return and does not wait. -/
def Obligations.IpAfterAStep : Prop :=
  ∀ (s t : State) (i : Instr) (rest : List Byte), s.status = .running → s.ip.toNat < s.stream.length →
    decode s.cfg.encoding (s.stream.drop s.ip.toNat) = .ok (i, rest) → step s = .next t →
    (∀ r, t.status = .faulted r → t.ip = s.ip) ∧
    (t.status = .halted → i = .halt ∧ t.ip = s.ip + 1#64) ∧
    (t.status = .running → t.inputPending = false →
      i.mnemonic ∉ [Mnemonic.jmp, .ja, .jae, .jb, .jbe, .je, .jne, .call, .ret] →
      t.ip = s.ip + BitVec.ofNat 64 (encode s.cfg.encoding i).length)

/-- `ip` never wraps in a state of the invariant: past a decoded instruction it is at most `len`. -/
def Obligations.IpNeverWraps : Prop :=
  ∀ (s : State) (i : Instr) (rest : List Byte), Inv s → s.ip.toNat < s.stream.length →
    decode s.cfg.encoding (s.stream.drop s.ip.toNat) = .ok (i, rest) →
    (s.ip + BitVec.ofNat 64 i.length).toNat = s.ip.toNat + i.length ∧ s.ip.toNat + i.length ≤ s.stream.length

/-- The fault CorruptedState never occurs: the integrity layer is not modelled. -/
def Obligations.CorruptedStateNeverOccurs : Prop :=
  ∀ s t : State, s.status = .running → step s = .next t → t.status ≠ .faulted .corruptedState

/-- R88: the depth check of every opcode. An instruction that needs one Value faults Underflow on the empty stack, one
that needs two on fewer than two, with nothing done; with the Values it needs, none being needed by some, no instruction
faults Underflow. -/
def Obligations.DepthCheckIsUniform : Prop :=
  (∀ (i : Instr) (s : State), i.wellFormed = true → s.stack = [] →
    i.mnemonic ∈ [Mnemonic.pop, .dup, .sin, .cos, .sqrt, .pw2, .pwInv, .abs, .out, .ret, .gFill] →
    exec i s = .next (faultedAt .underflow s)) ∧
  (∀ (i : Instr) (s : State), s.stack.length < 2 →
    i.mnemonic ∈ [Mnemonic.add, .sub, .mul, .div, .ja, .jae, .jb, .jbe, .je, .jne] →
    exec i s = .next (faultedAt .underflow s)) ∧
  (∀ (i : Instr) (s t : State), s.status = .running →
    i.mnemonic ∈ [Mnemonic.push, .inp, .outN, .jmp, .call, .halt, .gInit, .gDrawOn, .gDrawOff, .gDraw] →
    exec i s = .next t → t.status ≠ .faulted .underflow) ∧
  (∀ (i : Instr) (s t : State), s.status = .running → s.stack ≠ [] →
    i.mnemonic ∈ [Mnemonic.pop, .dup, .sin, .cos, .sqrt, .pw2, .pwInv, .abs, .out, .ret, .gFill] →
    exec i s = .next t → t.status ≠ .faulted .underflow) ∧
  (∀ (i : Instr) (s t : State), s.status = .running → 2 ≤ s.stack.length →
    i.mnemonic ∈ [Mnemonic.add, .sub, .mul, .div, .ja, .jae, .jb, .jbe, .je, .jne] →
    exec i s = .next t → t.status ≠ .faulted .underflow)

/-! ### The invariant, reset and load (`10_state.md`, `70_reset_and_hazards.md`) -/

/-- The invariant holds right after reset. -/
def Obligations.InvHoldsAfterReset : Prop := Inv State.reset

/-- Every step keeps the invariant: admissible parameters, `size ≤ cap`, `1 ≤ cap ≤ STACK_MAX`, the program no longer than
MAX_PROGRAM, RAM and VRAM in canonical form and inside their sizes, a pending read only while running. -/
def Obligations.StepKeepsInv : Prop :=
  ∀ s t : State, Inv s → step s = .next t → Inv t

/-- R155: construction. Every register, RAM cell and VRAM cell is `+0.0`; the stack is empty with the initial capacity; gfx
is 0; `ip` is 0, the status Running, the stream empty and no event emitted; the same holds of State.reset. -/
def Obligations.ConstructionZeroInitialises : Prop :=
  (∀ (cfg : Config) (input : List InputAnswer) (alloc : Allocator),
    let s := State.construct cfg input alloc
    (∀ i : Fin 26, s.regs[i] = 0#64) ∧ (∀ i, s.ram.read i = 0#64) ∧ (∀ i, s.vram.read i = 0#64) ∧
    s.stack = [] ∧ s.cap = cfg.stackInitCap ∧ s.gfx = false ∧ s.ip = 0#64 ∧ s.status = .running ∧
    s.stream = [] ∧ s.events = []) ∧
  ∃ cfg input alloc, State.reset = State.construct cfg input alloc

/-- R156: `load` into a machine as constructed installs the program, sets `ip` to 0 and the status to Running; a program
longer than MAX_PROGRAM is refused. -/
def Obligations.LoadInstallsTheProgram : Prop :=
  ∀ (cfg : Config) (input : List InputAnswer) (alloc : Allocator) (bytes : List Byte),
    let s := State.construct cfg input alloc
    (bytes.length ≤ cfg.maxProgram →
      load bytes s = .next { s with stream := bytes, ip := 0#64, status := .running }) ∧
    (cfg.maxProgram < bytes.length → load bytes s = .refused .programTooLong)

/-- R157: a machine stepped before any `load` halts at its first step. -/
def Obligations.StepBeforeLoadHalts : Prop :=
  ∀ (cfg : Config) (input : List InputAnswer) (alloc : Allocator),
    step (State.construct cfg input alloc) =
      .next { State.construct cfg input alloc with status := .halted }

/-! ### The operand stack (`20_memory.md`) -/

/-- R61: on a full stack, cycles of one pop and one push, of any Values, neither grow nor shrink the storage: `cap`, `size`,
the allocator and everything else are as before, but for the top, which is the Value pushed last. -/
def Obligations.PopPushCyclesKeepCap : Prop :=
  ∀ (vs : List Value) (s : State), s.stack.length = s.cap → 1 ≤ s.cap →
    popPushCycles vs s = .ok () { s with
      stack := match vs.getLast? with
        | none => s.stack
        | some v => v :: s.stack.tail }

/-- R60: pushes and pops that do not fault keep `size ≤ cap` and the bounds of `cap`, and `k` pops after pushing a list give its last `k` Values in
reverse order of pushing. -/
def Obligations.StackIsLifo : Prop :=
  ∀ (vs ws : List Value) (k : Nat) (s t u : State), s.stack.length ≤ s.cap → 1 ≤ s.cap → s.cap ≤ s.cfg.stackMax →
    k ≤ vs.length → pushAll vs s = .ok () t → popMany k t = .ok ws u →
    (t.stack.length ≤ t.cap ∧ 1 ≤ t.cap ∧ t.cap ≤ t.cfg.stackMax) ∧
    (u.stack.length ≤ u.cap ∧ 1 ≤ u.cap ∧ u.cap ≤ u.cfg.stackMax) ∧ ws = vs.reverse.take k ∧
    u.stack = vs.reverse.drop k ++ s.stack

/-! ### Stack transfer (`41_stack_transfer.md`) -/

/-- `push` of a constant, a register, a RAM cell or a VRAM cell, where the push goes through. -/
def Obligations.PushPushesItsSource : Prop :=
  ∀ s : State, PushGoesThrough s →
    (∀ v, exec (.push (.const v)) s = .next { pushed v s with ip := s.ip + 10#64, inputPending := false }) ∧
    (∀ (i : Byte) (h : i.toNat < 26),
      exec (.push (.reg i)) s = .next { pushed s.regs[i.toNat] s with ip := s.ip + 3#64, inputPending := false }) ∧
    (∀ x k, toIndex x s.cfg.ramSize = some k →
      exec (.push (.ram x)) s = .next { pushed (s.ram.read k) s with ip := s.ip + 10#64, inputPending := false }) ∧
    (∀ x k, toIndex x (s.cfg.vramW * s.cfg.vramH) = some k →
      exec (.push (.vram x)) s = .next { pushed (s.vram.read k) s with ip := s.ip + 10#64, inputPending := false })

/-- `pop` into a register, a RAM cell or a VRAM cell, where the pop goes through. The region after the write reads the
Value at its cell and as before at every other. -/
def Obligations.PopStoresTheTop : Prop :=
  ∀ (s : State) (v : Value) (rest : List Value), s.stack = v :: rest → PopGoesThrough s →
    (∀ (i : Byte) (h : i.toNat < 26),
      exec (.pop (.reg i)) s =
        .next { popped s with regs := s.regs.set i.toNat v, ip := s.ip + 3#64, inputPending := false }) ∧
    (s.ram.wf → ∀ x k, toIndex x s.cfg.ramSize = some k → ∃ m : Memory,
      exec (.pop (.ram x)) s = .next { popped s with ram := m, ip := s.ip + 10#64, inputPending := false } ∧
      m.read k = v ∧ ∀ j, j ≠ k → m.read j = s.ram.read j) ∧
    (s.vram.wf → ∀ x k, toIndex x (s.cfg.vramW * s.cfg.vramH) = some k → ∃ m : Memory,
      exec (.pop (.vram x)) s = .next { popped s with vram := m, ip := s.ip + 10#64, inputPending := false } ∧
      m.read k = v ∧ ∀ j, j ≠ k → m.read j = s.vram.read j)

/-- A register index of 26 or more and an index that ToIndex rejects fault OutOfBounds, before anything is pushed or
popped; the term `pop` with a constant, which no bytes decode to, faults InvalidOperand (log 12). -/
def Obligations.OperandOutOfRangeFaults : Prop :=
  (∀ (s : State) (i : Byte), 26 ≤ i.toNat → exec (.push (.reg i)) s = .next (faultedAt .outOfBounds s) ∧
    (s.stack ≠ [] → exec (.pop (.reg i)) s = .next (faultedAt .outOfBounds s))) ∧
  (∀ (s : State) (x : Value), toIndex x s.cfg.ramSize = none →
    exec (.push (.ram x)) s = .next (faultedAt .outOfBounds s) ∧
    (s.stack ≠ [] → exec (.pop (.ram x)) s = .next (faultedAt .outOfBounds s))) ∧
  (∀ (s : State) (x : Value), toIndex x (s.cfg.vramW * s.cfg.vramH) = none →
    exec (.push (.vram x)) s = .next (faultedAt .outOfBounds s) ∧
    (s.stack ≠ [] → exec (.pop (.vram x)) s = .next (faultedAt .outOfBounds s))) ∧
  (∀ (s : State) (v : Value), exec (.pop (.const v)) s = .next (faultedAt .invalidOperand s))

/-- R99: `dup` pushes a copy of the top, bit for bit; it faults Underflow on the empty stack and ReallocFailed where the
growth fails. -/
def Obligations.DupCopiesTheTop : Prop :=
  encode Encoding.reference .dup = [0x03#8] ∧
  (∀ (s : State) (v : Value) (rest : List Value), s.stack = v :: rest → PushGoesThrough s →
    exec .dup s = .next { pushed v s with ip := s.ip + 1#64, inputPending := false }) ∧
  (∀ s : State, s.stack = [] → exec .dup s = .next (faultedAt .underflow s)) ∧
  (∀ s : State, s.stack ≠ [] → ¬ PushGoesThrough s →
    ∃ alloc, exec .dup s = .next { faultedAt .reallocFailed s with alloc := alloc })

/-- Every instruction that pushes or pops faults ReallocFailed where a growth or a shrink cannot be had, with the stack and
its capacity kept. A push fails on a full storage that is at its largest (the allocator is not asked) or whose growth the
allocator refuses; a pop fails where its shrink is refused; an instruction that pops twice fails at the first pop or at the
second. A refused answer stays taken, and so does the answer that an `in` took. -/
def Obligations.RefusedAllocationFaults : Prop :=
  (∀ s : State, ¬ PushGoesThrough s →
    (∀ v, exec (.push (.const v)) s = .next (pushRefused s)) ∧
    (∀ i : Byte, i.toNat < 26 → exec (.push (.reg i)) s = .next (pushRefused s)) ∧
    (∀ x k, toIndex x s.cfg.ramSize = some k → exec (.push (.ram x)) s = .next (pushRefused s)) ∧
    (∀ x k, toIndex x (s.cfg.vramW * s.cfg.vramH) = some k → exec (.push (.vram x)) s = .next (pushRefused s)) ∧
    (s.stack ≠ [] → exec .dup s = .next (pushRefused s)) ∧
    (∀ v more, s.input = .value v :: more → exec .inp s = .next { pushRefused s with input := more }) ∧
    (∀ target, exec (.call target) s = .next (pushRefused s))) ∧
  (∀ s : State, s.stack ≠ [] → ¬ PopGoesThrough s →
    (∀ i : Byte, i.toNat < 26 → exec (.pop (.reg i)) s = .next (popRefused s)) ∧
    (∀ x k, toIndex x s.cfg.ramSize = some k → exec (.pop (.ram x)) s = .next (popRefused s)) ∧
    (∀ x k, toIndex x (s.cfg.vramW * s.cfg.vramH) = some k → exec (.pop (.vram x)) s = .next (popRefused s)) ∧
    exec .out s = .next (popRefused s) ∧
    exec .gFill s = .next (popRefused s) ∧
    (∀ v t, s.stack.head? = some v → toAddress v = some t → exec .ret s = .next (popRefused s))) ∧
  (∀ s : State, 2 ≤ s.stack.length →
    ∀ i : Instr, i.mnemonic ∈ [Mnemonic.add, .sub, .mul, .div, .ja, .jae, .jb, .jbe, .je, .jne] →
      (¬ PopGoesThrough s → exec i s = .next (popRefused s)) ∧
      (PopGoesThrough s → ¬ PopGoesThrough (popped s) → exec i s = .next (secondPopRefused s)))

/-! ### Arithmetic (`42_arithmetic.md`) -/

/-- `add`, `sub`, `mul` and `div` pop `a` (the top) and `b` and push `b op a`; the first argument of the operation is the
NaN it gives where its result is a NaN, a draw of its own (the draw and its counter are the model's, log 2). -/
def Obligations.BinaryInstructionsComplete : Prop :=
  ∀ (s : State) (a b : Value) (rest : List Value), s.stack = a :: b :: rest → s.stack.length ≤ s.cap →
    PopGoesThrough s → PopGoesThrough (popped s) →
    let after := fun r : Value => ({ popped (popped s) with
      stack := r :: rest, ip := s.ip + 1#64, nanDraws := s.nanDraws + 1, inputPending := false } : State)
    exec .add s = .next (after (fadd s.nanDraw b a)) ∧
    exec .sub s = .next (after (fsub s.nanDraw b a)) ∧
    exec .mul s = .next (after (fmul s.nanDraw b a)) ∧
    exec .div s = .next (after (fdiv s.nanDraw b a))

/-- `sin`, `cos`, `sqrt`, `pw2` and `pw_1` replace the top in place; size, capacity and allocator are unchanged (the draw
and its counter are the model's, log 2). -/
def Obligations.UnaryInstructionsComplete : Prop :=
  ∀ (s : State) (v : Value) (rest : List Value), s.stack = v :: rest →
    let after := fun r : Value => ({ s with
      stack := r :: rest, ip := s.ip + 1#64, nanDraws := s.nanDraws + 1, inputPending := false } : State)
    exec .sin s = .next (after (fsin s.nanDraw v)) ∧
    exec .cos s = .next (after (fcos s.nanDraw v)) ∧
    exec .sqrt s = .next (after (fsqrt s.nanDraw v)) ∧
    exec .pw2 s = .next (after (fmul s.nanDraw v v)) ∧
    exec .pwInv s = .next (after (fdiv s.nanDraw one v))

/-- R114: `abs` clears bit 63 of the top and keeps bits 62..0, of a NaN too; it faults Underflow on the empty stack. -/
def Obligations.AbsClearsTheSignBit : Prop :=
  encode Encoding.reference .abs = [0x0D#8] ∧
  (∀ (s : State) (v : Value) (rest : List Value), s.stack = v :: rest →
    exec .abs s = .next { s with
      stack := BitVec.ofNat 64 (v.toNat % 2 ^ 63) :: rest, ip := s.ip + 1#64, inputPending := false }) ∧
  (∀ s : State, s.stack = [] → exec .abs s = .next (faultedAt .underflow s))

/-- The configuration functions: at a finite Value, `sin` and `cos` give SIN's and COS's own Value, and the draw where that
is a NaN; at an infinity or a NaN the draw. -/
def Obligations.SinAndCosAreTheConfiguredFunctions : Prop :=
  ∀ nan v : Value,
    (IsFinite v →
      fsin nan v = (if isNaN (Config.sin v) = true then nan else Config.sin v) ∧
      fcos nan v = (if isNaN (Config.cos v) = true then nan else Config.cos v)) ∧
    (¬ IsFinite v → fsin nan v = nan ∧ fcos nan v = nan)

/-- On the layout of log 20 (R101, R11): sum, difference, product and quotient of finite Values are rounded to nearest, ties to even, subnormals kept,
overflow to infinity. -/
def Obligations.ArithmeticIsCorrectlyRounded : Prop :=
  ∀ nan b a : Value, IsFinite b → IsFinite a →
    CorrectlyRounded (signedUnits b + signedUnits a) 1 (fadd nan b a) ∧
    CorrectlyRounded (signedUnits b - signedUnits a) 1 (fsub nan b a) ∧
    CorrectlyRounded (signedUnits b * signedUnits a) (2 ^ 1074) (fmul nan b a) ∧
    (signedUnits a ≠ 0 →
      CorrectlyRounded (signedUnits b * 2 ^ 1074 * (signedUnits a).sign) (signedUnits a).natAbs (fdiv nan b a))

/-- On the layout of log 20 (R111): the square root of a positive finite Value of `u` units is the nearest: the exact root lies on its side of the
midpoint with every other finite Value, compared by squares. -/
def Obligations.SquareRootIsCorrectlyRounded : Prop :=
  ∀ nan v : Value, IsFinite v → 0 < signedUnits v →
    let r := fsqrt nan v
    IsFinite r ∧ 0 < signedUnits r ∧ ∀ c : Value, IsFinite c → 0 ≤ signedUnits c →
      (signedUnits r < signedUnits c →
        4 * (signedUnits v * 2 ^ 1074) ≤ (signedUnits r + signedUnits c) * (signedUnits r + signedUnits c)) ∧
      (signedUnits c < signedUnits r →
        (signedUnits r + signedUnits c) * (signedUnits r + signedUnits c) ≤ 4 * (signedUnits v * 2 ^ 1074))

/-- The corner cases of R105 to R108 and R111: signed zeros, division by zero, infinities that meet, and where the result is
a NaN (the drawn one, log 2). Beside them, what those rules do not name and R11 gives by IEEE 754, on the layout and sign
rules of log 20 (PRESUMED): the exclusive-or sign of every product and quotient (of those that round to zero too), an
infinity plus or minus a finite Value, and an infinity divided by a finite Value or multiplied by a nonzero one. -/
def Obligations.SpecialValuesOfArithmetic : Prop :=
  ∀ nan : Value,
    (∀ b a, isNaN b = true ∨ isNaN a = true →
      fadd nan b a = nan ∧ fsub nan b a = nan ∧ fmul nan b a = nan ∧ fdiv nan b a = nan) ∧
    (∀ b a, IsInfinite b → IsInfinite a →
      (signBit b ≠ signBit a → fadd nan b a = nan ∧ fsub nan b a = b) ∧
      (signBit b = signBit a → fadd nan b a = b ∧ fsub nan b a = nan) ∧
      fmul nan b a = pack (signBit b ^^ signBit a) infMagnitude ∧ fdiv nan b a = nan) ∧
    (∀ b a, IsInfinite b → IsFinite a →
      fadd nan b a = b ∧ fadd nan a b = b ∧ fsub nan b a = b ∧ fsub nan a b = pack (!signBit b) infMagnitude ∧
      fdiv nan b a = pack (signBit b ^^ signBit a) infMagnitude ∧ fdiv nan a b = pack (signBit a ^^ signBit b) 0 ∧
      (magnitude a = 0 → fmul nan b a = nan ∧ fmul nan a b = nan) ∧
      (magnitude a ≠ 0 → fmul nan b a = pack (signBit b ^^ signBit a) infMagnitude ∧
        fmul nan a b = pack (signBit a ^^ signBit b) infMagnitude)) ∧
    (∀ x, IsFinite x → fsub nan x x = 0#64) ∧
    fadd nan (pack true 0) (pack true 0) = pack true 0 ∧ fadd nan 0#64 (pack true 0) = 0#64 ∧
    (∀ b a, IsFinite b → IsFinite a →
      signBit (fmul nan b a) = (signBit b ^^ signBit a) ∧
      (magnitude b = 0 ∨ magnitude a = 0 → fmul nan b a = pack (signBit b ^^ signBit a) 0) ∧
      (magnitude a ≠ 0 → signBit (fdiv nan b a) = (signBit b ^^ signBit a)) ∧
      (magnitude b ≠ 0 → magnitude a = 0 → fdiv nan b a = pack (signBit b ^^ signBit a) infMagnitude) ∧
      (magnitude b = 0 → magnitude a = 0 → fdiv nan b a = nan)) ∧
    (∀ v, isNaN v = true → fsqrt nan v = nan) ∧
    (∀ v, magnitude v = 0 → fsqrt nan v = v) ∧
    (∀ v, IsFinite v → magnitude v ≠ 0 → signBit v = true → fsqrt nan v = nan) ∧
    (∀ v, IsInfinite v → (signBit v = false → fsqrt nan v = v) ∧ (signBit v = true → fsqrt nan v = nan))

/-- The model's choice of log 2 leaves every NaN open: what is drawn is a NaN, and every NaN is drawn from its own
bits. -/
def Obligations.EveryNaNCanBeDrawn : Prop :=
  (∀ s : State, isNaN s.nanDraw = true) ∧ (∀ v : Value, isNaN v = true → asNaN v = v)

/-! ### Comparisons and conversions (`00_scope.md` R11, `20_memory.md` R49 to R51, `44_control.md` R120) -/

/-- The comparisons of finite Values are those of the numbers; an infinity is beyond every finite Value; of two infinities the
negative one is below the positive one and each equals itself; a NaN compares false. -/
def Obligations.ComparisonIsNumeric : Prop :=
  (∀ x y : Value, IsFinite x → IsFinite y →
    (flt x y = true ↔ signedUnits x < signedUnits y) ∧ (fle x y = true ↔ signedUnits x ≤ signedUnits y)) ∧
  (∀ x y : Value, IsFinite x → IsInfinite y →
    (flt x y = true ↔ signBit y = false) ∧ (fle x y = true ↔ signBit y = false) ∧
    (flt y x = true ↔ signBit y = true) ∧ (fle y x = true ↔ signBit y = true)) ∧
  (∀ x y : Value, IsInfinite x → IsInfinite y →
    (flt x y = true ↔ signBit x = true ∧ signBit y = false) ∧
    (fle x y = true ↔ signBit x = true ∨ signBit y = false)) ∧
  (∀ x y : Value, isNaN x = true ∨ isNaN y = true → flt x y = false ∧ fle x y = false)

/-- R120: a NaN never jumps in `ja`, `jae`, `jb`, `jbe` and `je`, and always in `jne`; infinities of one sign do not jump in
`je` and do in `jne`; the two zeros compare equal under every condition, for a positive EPSILON. -/
def Obligations.JumpConditionsOnSpecialValues : Prop :=
  ∀ nan epsilon a b : Value, isNaN nan = true →
    (isNaN a = true ∨ isNaN b = true →
      condAbove a b = false ∧ condAboveEq a b = false ∧ condBelow a b = false ∧ condBelowEq a b = false ∧
      condNear nan epsilon a b = false ∧ condNotNear nan epsilon a b = true) ∧
    (IsInfinite a → IsInfinite b → signBit a = signBit b →
      condNear nan epsilon a b = false ∧ condNotNear nan epsilon a b = true) ∧
    (magnitude a = 0 → magnitude b = 0 → flt 0#64 epsilon = true →
      condAbove a b = false ∧ condAboveEq a b = true ∧ condBelow a b = false ∧ condBelowEq a b = true ∧
      condNear nan epsilon a b = true ∧ condNotNear nan epsilon a b = false)

/-- The NaN drawn inside `je` and `jne` has no effect: any two NaNs give the same jump. -/
def Obligations.JumpIgnoresTheDrawnNaN : Prop :=
  ∀ n₁ n₂ epsilon a b : Value, isNaN n₁ = true → isNaN n₂ = true →
    condNear n₁ epsilon a b = condNear n₂ epsilon a b ∧ condNotNear n₁ epsilon a b = condNotNear n₂ epsilon a b

/-- R49: ToIndex rejects NaNs and infinities, truncates toward zero, and answers exactly the truncations from 0 to below
`n` and below 2^64. -/
def Obligations.ToIndexTruncates : Prop :=
  ∀ (v : Value) (n : Nat),
    (¬ IsFinite v → toIndex v n = none) ∧
    (IsFinite v → ∀ t : Nat, toIndex v n = some t ↔
      ((signedUnits v).tdiv (2 ^ 1074) = (t : Int) ∧ t < 2 ^ 64 ∧ t < n))

/-- R50: ToAddress does the same with the bound 2^64. -/
def Obligations.ToAddressTruncates : Prop :=
  ∀ v : Value,
    (¬ IsFinite v → toAddress v = none) ∧
    (IsFinite v → ∀ a : Addr, toAddress v = some a ↔ (signedUnits v).tdiv (2 ^ 1074) = (a.toNat : Int))

/-- R51: every stream offset up to 2^53 is exactly representable, and ToAddress gives it back. -/
def Obligations.StreamOffsetsAreExactValues : Prop :=
  ∀ n : Nat, n ≤ 2 ^ 53 →
    IsFinite (valueOfNat n) ∧ signedUnits (valueOfNat n) = (n : Int) * 2 ^ 1074 ∧
    toAddress (valueOfNat n) = some (BitVec.ofNat 64 n)

/-! ### Input and output (`43_io.md`) -/

/-- `in` with an answer of the host: a Value is pushed, any Value; where the push cannot go through the fault is ReallocFailed;
`Fail` faults InputFailed. The one answer is taken in each case, by a fault too. -/
def Obligations.InTakesTheHostsAnswer : Prop :=
  (∀ (s : State) (v : Value) (more : List InputAnswer), s.input = .value v :: more → PushGoesThrough s →
    exec .inp s = .next { pushed v s with input := more, ip := s.ip + 1#64, inputPending := false }) ∧
  (∀ (s : State) (v : Value) (more : List InputAnswer), s.input = .value v :: more → ¬ PushGoesThrough s →
    exec .inp s = .next { pushRefused s with input := more }) ∧
  (∀ (s : State) (more : List InputAnswer), s.input = .fail :: more →
    exec .inp s = .next { faultedAt .inputFailed s with input := more })

/-- `in` without an answer holds: the step leaves everything but the pending read, emits nothing (no Render either), and
goes on holding; a read is pending after a step only then (the model's form of the hold, log 4). -/
def Obligations.InHoldsUntilAnswered : Prop :=
  (∀ s : State, s.input = [] → exec .inp s = .next { s with inputPending := true }) ∧
  (∀ s : State, s.status = .running → fetch s = .instr .inp → s.input = [] →
    step s = .next { s with inputPending := true } ∧
    step { s with inputPending := true } = .next { s with inputPending := true }) ∧
  (∀ s t : State, s.status = .running → step s = .next t → t.inputPending = true →
    fetch s = .instr .inp ∧ s.input = [] ∧ t = { s with inputPending := true })

/-- `out` pops one Value and emits it. -/
def Obligations.OutEmitsTheTop : Prop :=
  ∀ (s : State) (v : Value) (rest : List Value), s.stack = v :: rest → PopGoesThrough s →
    exec .out s = .next { popped s with
      events := s.events ++ [.out v], ip := s.ip + 1#64, inputPending := false }

/-- R117: `out_n` emits a newline, pops nothing and never faults. -/
def Obligations.OutNEmitsNewline : Prop :=
  encode Encoding.reference .outN = [0x10#8] ∧
  ∀ s : State, exec .outN s = .next { s with
    events := s.events ++ [.newline], ip := s.ip + 1#64, inputPending := false }

/-! ### Control transfer (`44_control.md`) -/

/-- `jmp` sets `ip` to its target, unchecked. -/
def Obligations.JmpSetsIp : Prop :=
  ∀ (s : State) (target : Addr), exec (.jmp target) s = .next { s with ip := target, inputPending := false }

/-- The conditional jumps pop `a` (the top) and `b`, whether or not they jump, and jump when their condition on `a` and `b`
holds. -/
def Obligations.ConditionalJumpsComplete : Prop :=
  ∀ (s : State) (target : Addr) (a b : Value) (rest : List Value), s.stack = a :: b :: rest →
    PopGoesThrough s → PopGoesThrough (popped s) →
    let after := fun c : Bool => ({ popped (popped s) with
      ip := if c then target else s.ip + 9#64, inputPending := false } : State)
    exec (.ja target) s = .next (after (flt b a)) ∧
    exec (.jae target) s = .next (after (fle b a)) ∧
    exec (.jb target) s = .next (after (flt a b)) ∧
    exec (.jbe target) s = .next (after (fle a b)) ∧
    exec (.je target) s = .next (after (flt (fabs (fsub s.nanDraw a b)) s.cfg.epsilon)) ∧
    exec (.jne target) s = .next (after (!flt (fabs (fsub s.nanDraw a b)) s.cfg.epsilon))

/-- `call` pushes the address of the byte after it, as a Value, and jumps. -/
def Obligations.CallPushesTheReturnAddress : Prop :=
  ∀ (s : State) (target : Addr), PushGoesThrough s →
    exec (.call target) s = .next { pushed (valueOfNat (s.ip + 9#64).toNat) s with
      ip := target, inputPending := false }

/-- `ret` pops the top and jumps to its truncation; a top that ToAddress rejects faults OutOfBounds with the stack
kept. -/
def Obligations.RetJumpsToTheTop : Prop :=
  ∀ (s : State) (v : Value) (rest : List Value), s.stack = v :: rest →
    (∀ t, PopGoesThrough s → toAddress v = some t →
      exec .ret s = .next { popped s with ip := t, inputPending := false }) ∧
    (toAddress v = none → exec .ret s = .next (faultedAt .outOfBounds s))

/-- A `call` and then a `ret` resume right after the `call`, with the caller's stack: in a state of the invariant, inside
the program, with room for one more Value and an allocator that never refuses. -/
def Obligations.CallThenRetResumesAfterTheCall : Prop :=
  ∀ (s : State) (target : Addr), Inv s → s.ip.toNat + 9 ≤ s.stream.length → s.stack.length < s.cfg.stackMax →
    AllocNeverFails s.alloc →
    ∃ t u, exec (.call target) s = .next t ∧ t.ip = target ∧ exec .ret t = .next u ∧
      u.ip.toNat = s.ip.toNat + 9 ∧ u.stack = s.stack ∧ u.status = s.status ∧ u.regs = s.regs ∧ u.ram = s.ram ∧
      u.vram = s.vram ∧ u.gfx = s.gfx ∧ u.events = s.events ∧ u.input = s.input

/-- R131: `halt` halts with `ip` past the opcode byte; it never faults and needs no Value; its step ends with a Render if
graphics was active, and the state it leaves is terminal. -/
def Obligations.HaltHalts : Prop :=
  encode Encoding.reference .halt = [0x1A#8] ∧
  (∀ s : State, exec .halt s = .next { s with status := .halted, ip := s.ip + 1#64, inputPending := false }) ∧
  ∀ s : State, s.status = .running → fetch s = .instr .halt →
    let t : State := { s with
      status := .halted, ip := s.ip + 1#64, inputPending := false, events := s.events ++ renderOf s }
    step s = .next t ∧ step t = .next t

/-! ### Graphics (`45_graphics.md`) -/

/-- R133 to R136: `g_init` emits the dimensions, `g_draw_on` and `g_draw_off` set and clear gfx, `g_draw` emits a full
snapshot whatever gfx is; none reads the stack or can fault. The step of each ends with a Render if graphics was active
at its start: so the one of `g_draw_on` does not render unless gfx was 1 before, and the one of `g_draw_off` does. -/
def Obligations.GraphicsInstructionsComplete : Prop :=
  (encode Encoding.reference .gInit = [0x1B#8] ∧ encode Encoding.reference .gDrawOn = [0x1C#8] ∧
    encode Encoding.reference .gDrawOff = [0x1D#8] ∧ encode Encoding.reference .gDraw = [0x1E#8]) ∧
  ∀ s : State,
    let snapshot := (List.range (s.cfg.vramW * s.cfg.vramH)).map s.vram.read
    let next : State := { s with ip := s.ip + 1#64, inputPending := false }
    exec .gInit s = .next { next with events := s.events ++ [.displayInit s.cfg.vramW s.cfg.vramH] } ∧
    exec .gDrawOn s = .next { next with gfx := true } ∧
    exec .gDrawOff s = .next { next with gfx := false } ∧
    exec .gDraw s = .next { next with events := s.events ++ [.draw snapshot] } ∧
    (s.status = .running →
      (fetch s = .instr .gInit → step s = .next { next with
        events := s.events ++ [.displayInit s.cfg.vramW s.cfg.vramH] ++ renderOf s }) ∧
      (fetch s = .instr .gDrawOn → step s = .next { next with gfx := true, events := s.events ++ renderOf s }) ∧
      (fetch s = .instr .gDrawOff → step s = .next { next with gfx := false, events := s.events ++ renderOf s }) ∧
      (fetch s = .instr .gDraw →
        step s = .next { next with events := s.events ++ [.draw snapshot] ++ renderOf s }))

/-- R137: `g_fill` pops one Value and every VRAM cell then holds it; nothing else of the state changes, no event is emitted;
it faults Underflow on the empty stack and ReallocFailed where the shrink is refused. -/
def Obligations.GFillFillsVram : Prop :=
  encode Encoding.reference .gFill = [0x1F#8] ∧
  (∀ (s : State) (v : Value) (rest : List Value), s.stack = v :: rest → PopGoesThrough s → ∃ m : Memory,
    exec .gFill s = .next { popped s with vram := m, ip := s.ip + 1#64, inputPending := false } ∧
    m.wf ∧ ∀ i, m.read i = if i < s.cfg.vramW * s.cfg.vramH then v else 0#64) ∧
  (∀ s : State, s.stack = [] → exec .gFill s = .next (faultedAt .underflow s)) ∧
  (∀ s : State, s.stack ≠ [] → ¬ PopGoesThrough s →
    exec .gFill s = .next { faultedAt .reallocFailed s with alloc := s.alloc.advance })

/-! ### Regions and noninterference -/

/-- Equal regions are equal data: two regions in canonical form that read alike at every index are one list. -/
def Obligations.RegionsThatReadAlikeAreEqual : Prop :=
  ∀ m₁ m₂ : Memory, m₁.wf → m₂.wf → (∀ i, m₁.read i = m₂.read i) → m₁ = m₂

/-- R29: the capacity (and the allocator) decide nothing but when an allocation can fail: two states that differ only in
them, in which an instruction does not fault ReallocFailed, come out alike but for them. -/
def Obligations.CapacityDecidesOnlyAllocationFailure : Prop :=
  ∀ (i : Instr) (s t u : State) (cap : Nat) (alloc : Allocator), s.status = .running →
    exec i s = .next t → exec i { s with cap := cap, alloc := alloc } = .next u →
    t.status ≠ .faulted .reallocFailed → u.status ≠ .faulted .reallocFailed →
    u = { t with cap := u.cap, alloc := u.alloc }

/-- Memory and registers reach an instruction only through `push`, `g_draw` and the step's Render: any other instruction
leaves the same stack, ip and status whatever registers, RAM, VRAM and gfx hold. -/
def Obligations.OnlyPushAndDrawReadRegions : Prop :=
  ∀ (i : Instr) (s t u : State) (regs : Vector Value 26) (ram vram : Memory) (gfx : Bool),
    (∀ o, i ≠ .push o) → i ≠ .gDraw →
    exec i s = .next t → exec i { s with regs := regs, ram := ram, vram := vram, gfx := gfx } = .next u →
    u.stack = t.stack ∧ u.ip = t.ip ∧ u.status = t.status ∧ u.cap = t.cap ∧ u.events = t.events ∧ u.input = t.input

/-! ### The invariant of a loaded machine (`70_reset_and_hazards.md` R155, R156) -/

/-- Every machine a run can start from meets the invariant: construction with any admissible configuration, any host answers
and any allocator; a `load` that goes through keeps it, and there is one for every program of at most MAX_PROGRAM bytes;
an answer of the host to an `in` keeps it too. -/
def Obligations.LoadedMachinesMeetInv : Prop :=
  (∀ (cfg : Config) (input : List InputAnswer) (alloc : Allocator), Admissible cfg →
    Inv (State.construct cfg input alloc) ∧
    ∀ bytes : List Byte, bytes.length ≤ cfg.maxProgram →
      ∃ t, load bytes (State.construct cfg input alloc) = .next t ∧ t.stream = bytes ∧ Inv t) ∧
  (∀ (s t : State) (bytes : List Byte), Inv s → load bytes s = .next t → Inv t) ∧
  (∀ (s : State) (r : InputAnswer), Inv s → Inv (supplyInput r s))
end

