-- ==== Sys2Proof/Laws/Decode.lean ====
section
/-! SUPPORT. Laws of the stream reader and of the maps: little-endian integers, one lemma per reader, and what a lookup
finds. -/

namespace Sys2Proof

@[simp] theorem encodeU_length (n w : Nat) : (encodeU n w).length = n := by
  induction n generalizing w with
  | zero => rfl
  | succ n ih => simp [encodeU, ih]

/-- Reading what was written gives the integer, modulo its width. -/
theorem decodeU_encodeU (n w : Nat) : decodeU (encodeU n w) = w % 256 ^ n := by
  induction n generalizing w with
  | zero => simp [encodeU, decodeU, Nat.mod_one]
  | succ n ih =>
    simp only [encodeU, decodeU, ih, BitVec.toNat_ofNat]
    rw [Nat.pow_succ 256 n, Nat.mul_comm (256 ^ n), Nat.mod_mul]

theorem decodeU_lt (bs : List Byte) : decodeU bs < 256 ^ bs.length := by
  induction bs with
  | nil => simp [decodeU]
  | cons b bs ih =>
    have := b.isLt
    simp only [decodeU, List.length_cons, pow_succ]
    omega

/-- Writing what was read gives the bytes. -/
theorem encodeU_decodeU (bs : List Byte) : encodeU bs.length (decodeU bs) = bs := by
  induction bs with
  | nil => rfl
  | cons b bs ih =>
    have hb := b.isLt
    simp only [List.length_cons, encodeU, decodeU]
    have h1 : (b.toNat + 256 * decodeU bs) / 256 = decodeU bs := by omega
    rw [h1, ih]
    congr 1
    apply BitVec.eq_of_toNat_eq
    rw [BitVec.toNat_ofNat]
    omega

/-- What `readBytes` answers. -/
theorem readBytes_eq_ok {n : Nat} {bs b r : List Byte} :
    readBytes n bs = .ok (b, r) ↔ b.length = n ∧ bs = b ++ r := by
  unfold readBytes
  split
  · rename_i h
    simp only [reduceCtorEq, false_iff]
    rintro ⟨rfl, rfl⟩
    simp at h
  · rename_i h
    simp only [Except.ok.injEq, Prod.mk.injEq]
    constructor
    · rintro ⟨rfl, rfl⟩
      exact ⟨by simp; omega, by simp⟩
    · rintro ⟨rfl, rfl⟩
      simp

/-- What `readBytes` raises: there are too few bytes (`20_memory.md` R38). -/
theorem readBytes_error {n : Nat} {bs : List Byte} {e : DecodeError} :
    readBytes n bs = .error e ↔ bs.length < n ∧ e = .outOfBounds := by
  unfold readBytes
  split <;> simp_all [eq_comm]

theorem readValue_encode (v : Value) (rest : List Byte) : readValue (encodeValue v ++ rest) = .ok (v, rest) := by
  have h : readBytes 8 (encodeValue v ++ rest) = .ok (encodeValue v, rest) :=
    readBytes_eq_ok.mpr ⟨encodeU_length _ _, rfl⟩
  have hv : v.toNat % 256 ^ 8 = v.toNat := Nat.mod_eq_of_lt v.isLt
  rw [readValue, h]
  simp only [Except.map, encodeValue, decodeU_encodeU, hv, BitVec.ofNat_toNat, BitVec.setWidth_eq]

theorem readAddress_encode (a : Addr) (rest : List Byte) :
    readAddress (encodeAddress a ++ rest) = .ok (a, rest) := by
  have h : readBytes addrBytes (encodeAddress a ++ rest) = .ok (encodeAddress a, rest) :=
    readBytes_eq_ok.mpr ⟨encodeU_length _ _, rfl⟩
  have ha : a.toNat % 256 ^ addrBytes = a.toNat := Nat.mod_eq_of_lt a.isLt
  rw [readAddress, h]
  simp only [Except.map, encodeAddress, decodeU_encodeU, ha, BitVec.ofNat_toNat, BitVec.setWidth_eq]

theorem readWord_inv {n : Nat} (hn : n = 8) {bs r : List Byte} {v : BitVec 64}
    (h : (readBytes n bs).map (fun (b, r) => ((BitVec.ofNat 64 (decodeU b), r) : BitVec 64 × List Byte)) = .ok (v, r)) :
    bs = encodeU n v.toNat ++ r := by
  subst hn
  cases hb : readBytes 8 bs with
  | error e =>
    rw [hb] at h
    cases h
  | ok p =>
    obtain ⟨b, r'⟩ := p
    rw [hb] at h
    obtain ⟨hlen, rfl⟩ := readBytes_eq_ok.mp hb
    simp only [Except.map, Except.ok.injEq, Prod.mk.injEq] at h
    obtain ⟨rfl, rfl⟩ := h
    have hlt := decodeU_lt b
    rw [hlen] at hlt
    have hv : (BitVec.ofNat 64 (decodeU b)).toNat = decodeU b := by
      rw [BitVec.toNat_ofNat]
      exact Nat.mod_eq_of_lt (lt_of_lt_of_eq hlt (by norm_num))
    rw [hv, ← hlen, encodeU_decodeU]

/-- What `readValue` answers was written by `encodeValue`. -/
theorem readValue_eq_ok {bs r : List Byte} {v : Value} (h : readValue bs = .ok (v, r)) : bs = encodeValue v ++ r :=
  readWord_inv rfl h

/-- What `readAddress` answers was written by `encodeAddress`. -/
theorem readAddress_eq_ok {bs r : List Byte} {a : Addr} (h : readAddress bs = .ok (a, r)) :
    bs = encodeAddress a ++ r :=
  readWord_inv rfl h

theorem readByte_eq_ok {bs r : List Byte} {b : Byte} (h : readByte bs = .ok (b, r)) : bs = b :: r := by
  cases bs <;> cases h
  rfl

theorem Mnemonic.mem_all (m : Mnemonic) : m ∈ Mnemonic.all := by cases m <;> decide

/-- A lookup finds only a mnemonic with that byte. -/
theorem OpcodeMap.lookup_code {t : OpcodeMap} {b : Byte} {m : Mnemonic} (h : t.lookup b = some m) : t.code m = b := by
  simpa using List.find?_some h

/-- A lookup fails only where no mnemonic has the byte (`30_encoding.md` R79). -/
theorem OpcodeMap.lookup_eq_none {t : OpcodeMap} {b : Byte} : t.lookup b = none ↔ ∀ m, t.code m ≠ b := by
  simp only [OpcodeMap.lookup, List.find?_eq_none, beq_iff_eq]
  exact ⟨fun h m => h m m.mem_all, fun h m _ => h m⟩

/-- A tag lookup finds only an admitted tag with that byte. -/
theorem TagMap.lookup_code {t : TagMap} {l : List Tag} {b : Byte} {g : Tag} (h : t.lookup l b = some g) :
    g ∈ l ∧ t.code g = b :=
  ⟨List.mem_of_find?_eq_some h, by simpa using List.find?_some h⟩

/-- A tag lookup fails only where no admitted tag has the byte (`30_encoding.md` R72). -/
theorem TagMap.lookup_eq_none {t : TagMap} {l : List Tag} {b : Byte} :
    t.lookup l b = none ↔ ∀ g ∈ l, t.code g ≠ b := by
  simp [TagMap.lookup, List.find?_eq_none]

end Sys2Proof
end

