-- ==== Sys2Proof/Laws/Float.lean ====
section
/-! SUPPORT. Laws of Values: fields of a packed Value, NaNs, and comparisons with a NaN. -/

namespace Sys2Proof.Machine

theorem magnitude_lt (v : Value) : magnitude v < 2 ^ 63 := Nat.mod_lt _ (by decide)

theorem expField_lt (v : Value) : expField v < 2048 := by
  have := magnitude_lt v
  unfold expField
  omega

theorem fracField_lt (v : Value) : fracField v < 2 ^ 52 := Nat.mod_lt _ (by decide)

/-- Bits 62..0 are the exponent field and then the fraction field. -/
theorem magnitude_eq (v : Value) : magnitude v = expField v * 2 ^ 52 + fracField v := by
  unfold expField fracField magnitude
  omega

theorem toNat_pack (neg : Bool) {mag : Nat} (h : mag < 2 ^ 63) :
    (pack neg mag).toNat = (if neg then 2 ^ 63 else 0) + mag := by
  unfold pack
  rw [BitVec.toNat_ofNat]
  cases neg <;> simp <;> omega

@[simp] theorem magnitude_pack (neg : Bool) {mag : Nat} (h : mag < 2 ^ 63) : magnitude (pack neg mag) = mag := by
  unfold magnitude
  rw [toNat_pack neg h]
  cases neg <;> simp <;> omega

theorem signBit_eq (v : Value) : signBit v = decide (2 ^ 63 ≤ v.toNat) := by
  have h := BitVec.msb_eq_decide v
  have : v.getLsbD 63 = v.msb := by simp [BitVec.msb_eq_getLsbD_last]
  rw [signBit, this, h]

@[simp] theorem signBit_pack (neg : Bool) {mag : Nat} (h : mag < 2 ^ 63) : signBit (pack neg mag) = neg := by
  rw [signBit_eq, toNat_pack neg h]
  cases neg
  · have : ¬ 2 ^ 63 ≤ mag := by omega
    simpa using this
  · simp

/-- A Value is its sign and its magnitude. -/
theorem pack_fields (v : Value) : pack (signBit v) (magnitude v) = v := by
  apply BitVec.eq_of_toNat_eq
  rw [toNat_pack _ (magnitude_lt v), signBit_eq]
  have := v.isLt
  unfold magnitude
  by_cases h : 2 ^ 63 ≤ v.toNat
  · rw [decide_eq_true h, if_pos rfl]
    omega
  · rw [decide_eq_false h, if_neg Bool.false_ne_true]
    omega

theorem infMagnitude_eq : infMagnitude = 2047 * 2 ^ 52 := rfl

/-- The NaNs are the patterns with the exponent field all ones and a nonzero fraction. -/
theorem isNaN_iff (v : Value) : isNaN v = true ↔ expField v = 2047 ∧ fracField v ≠ 0 := by
  have h1 := magnitude_eq v
  have h2 := expField_lt v
  have h3 := fracField_lt v
  rw [isNaN, decide_eq_true_iff, infMagnitude_eq]
  constructor
  · intro h
    constructor <;> omega
  · rintro ⟨h4, h5⟩
    omega

theorem classify_nan_iff (v : Value) : classify v = .nan ↔ isNaN v = true := by
  rw [isNaN_iff]
  unfold classify
  split
  · split <;> simp_all
  · simp_all

theorem classify_inf_iff (v : Value) (s : Bool) :
    classify v = .inf s ↔ magnitude v = infMagnitude ∧ signBit v = s := by
  have h1 := magnitude_eq v
  have h2 := expField_lt v
  have h3 := fracField_lt v
  rw [infMagnitude_eq]
  unfold classify
  split
  · split
    · simp only [Exact.inf.injEq]
      constructor
      · intro h
        exact ⟨by omega, h⟩
      · exact And.right
    · simp only [reduceCtorEq, false_iff]
      omega
  · simp only [reduceCtorEq, false_iff]
    omega

theorem classify_fin (v : Value) (h : expField v ≠ 2047) : classify v = .fin (signBit v) (unitsOf v) := by
  simp [classify, h]

/-- A drawn NaN is a NaN. -/
@[simp] theorem isNaN_asNaN (raw : Value) : isNaN (asNaN raw) = true := by
  have h := fracField_lt raw
  unfold asNaN
  split
  · have hm : infMagnitude + 1 < 2 ^ 63 := by decide
    simp [isNaN, magnitude_pack _ hm]
  · have hm : infMagnitude + fracField raw < 2 ^ 63 := by
      rw [infMagnitude_eq]
      omega
    simp only [isNaN, magnitude_pack _ hm, decide_eq_true_eq]
    omega

theorem flt_nan_left {x : Value} (h : isNaN x = true) (y : Value) : flt x y = false := by simp [flt, h]

theorem flt_nan_right (x : Value) {y : Value} (h : isNaN y = true) : flt x y = false := by simp [flt, h]

theorem fle_nan_left {x : Value} (h : isNaN x = true) (y : Value) : fle x y = false := by simp [fle, h]

theorem fle_nan_right (x : Value) {y : Value} (h : isNaN y = true) : fle x y = false := by simp [fle, h]

/-- A sum with a NaN is the drawn NaN. -/
theorem fadd_nan_left {b : Value} (h : isNaN b = true) (nan a : Value) : fadd nan b a = nan := by
  simp [fadd, (classify_nan_iff b).mpr h]

theorem fadd_nan_right {a : Value} (h : isNaN a = true) (nan b : Value) : fadd nan b a = nan := by
  unfold fadd
  rw [(classify_nan_iff a).mpr h]
  cases classify b <;> rfl

end Sys2Proof.Machine
end

