-- ==== Sys2Proof/Laws/Memory.lean ====
section
/-! SUPPORT. Laws of a region: reading after writing and after filling, and every operation keeps the canonical form and
the region's bound. -/

namespace Sys2Proof.Machine

theorem Memory.wf_nil : Memory.wf [] := ⟨List.Pairwise.nil, by simp⟩

theorem Memory.wf_cons {c : Nat × Value} {m : Memory} :
    Memory.wf (c :: m) ↔ (∀ d ∈ m, c.1 < d.1) ∧ c.2 ≠ Memory.unlisted ∧ Memory.wf m := by
  simp only [Memory.wf, List.pairwise_cons, List.forall_mem_cons]
  tauto

theorem Memory.mem_entry {i : Nat} {v : Value} {c : Nat × Value} :
    c ∈ Memory.entry i v ↔ v ≠ Memory.unlisted ∧ c = (i, v) := by
  unfold Memory.entry
  split <;> simp_all

/-- Every cell of a region after a write is an old one or the one written. -/
theorem Memory.mem_write {m : Memory} {i : Nat} {v : Value} {c : Nat × Value} (h : c ∈ m.write i v) :
    c ∈ m ∨ c = (i, v) := by
  induction m with
  | nil => exact .inr (Memory.mem_entry.mp h).2
  | cons d m ih =>
    obtain ⟨a, w⟩ := d
    unfold Memory.write at h
    split at h
    · rcases List.mem_append.mp h with h | h
      · exact .inr (Memory.mem_entry.mp h).2
      · exact .inl h
    · split at h
      · rcases List.mem_append.mp h with h | h
        · exact .inr (Memory.mem_entry.mp h).2
        · exact .inl (List.mem_cons_of_mem _ h)
      · rcases List.mem_cons.mp h with h | h
        · exact .inl (h ▸ List.mem_cons_self)
        · exact (ih h).imp (List.mem_cons_of_mem _) id

theorem Memory.entry_append_wf {m : Memory} {i : Nat} {v : Value} (hm : m.wf) (hlt : ∀ d ∈ m, i < d.1) :
    Memory.wf (Memory.entry i v ++ m) := by
  unfold Memory.entry
  split
  · simpa using hm
  · rename_i hv
    exact Memory.wf_cons.mpr ⟨hlt, hv, hm⟩

/-- A write keeps the canonical form. -/
theorem Memory.write_wf {m : Memory} (hm : m.wf) (i : Nat) (v : Value) : (m.write i v).wf := by
  induction m with
  | nil => simpa [Memory.write] using Memory.entry_append_wf (i := i) (v := v) Memory.wf_nil (by simp)
  | cons d m ih =>
    obtain ⟨a, w⟩ := d
    obtain ⟨hlt, hw, htail⟩ := Memory.wf_cons.mp hm
    simp only [Memory.write]
    split
    · rename_i hia
      refine Memory.entry_append_wf hm fun d hd => ?_
      rcases List.mem_cons.mp hd with rfl | hd
      · exact hia
      · exact lt_trans hia (hlt d hd)
    · split
      · rename_i _ hia
        exact Memory.entry_append_wf htail (hia ▸ hlt)
      · rename_i h1 h2
        refine Memory.wf_cons.mpr ⟨fun d hd => ?_, hw, ih htail⟩
        rcases Memory.mem_write hd with hd | rfl
        · exact hlt d hd
        · have : a < i := by omega
          exact this

/-- A write inside the region keeps it inside. -/
theorem Memory.write_within {m : Memory} {n i : Nat} (hm : m.within n) (hi : i < n) (v : Value) :
    (m.write i v).within n := by
  intro c hc
  rcases Memory.mem_write hc with hc | rfl
  · exact hm c hc
  · exact hi

theorem Memory.read_of_lt {m : Memory} {i : Nat} (h : ∀ d ∈ m, i < d.1) : m.read i = Memory.unlisted := by
  induction m with
  | nil => rfl
  | cons d m ih =>
    obtain ⟨a, w⟩ := d
    have ha : i < a := h (a, w) (by simp)
    simp only [Memory.read]
    rw [if_neg (by omega)]
    exact ih fun d hd => h d (List.mem_cons_of_mem _ hd)

theorem Memory.read_entry_append {m : Memory} {i : Nat} (v : Value) (h : ∀ d ∈ m, i < d.1) (j : Nat) :
    Memory.read (Memory.entry i v ++ m) j = if j = i then v else m.read j := by
  unfold Memory.entry
  split
  · rename_i hv
    by_cases hj : j = i
    · subst hj
      simp [Memory.read_of_lt h, hv]
    · simp [hj]
  · by_cases hj : j = i
    · simp [Memory.read, hj]
    · simp [Memory.read, hj, Ne.symm hj]

/-- Reading after a write: the Value written at its index, the old Value elsewhere (`20_memory.md` R52, R62). -/
theorem Memory.read_write {m : Memory} (hm : m.wf) (i j : Nat) (v : Value) :
    (m.write i v).read j = if j = i then v else m.read j := by
  induction m with
  | nil => simpa [Memory.write] using Memory.read_entry_append (m := []) v (by simp) j
  | cons d m ih =>
    obtain ⟨a, w⟩ := d
    obtain ⟨hlt, hw, htail⟩ := Memory.wf_cons.mp hm
    simp only [Memory.write]
    split
    · rename_i hia
      refine Memory.read_entry_append v (fun d hd => ?_) j
      rcases List.mem_cons.mp hd with rfl | hd
      · exact hia
      · exact lt_trans hia (hlt d hd)
    · split
      · rename_i _ hia
        subst hia
        rw [Memory.read_entry_append v hlt j]
        by_cases hj : j = i
        · simp [hj]
        · simp [Memory.read, hj, Ne.symm hj]
      · rename_i h1 h2
        simp only [Memory.read]
        by_cases hja : a = j
        · have : j ≠ i := by omega
          simp [hja, this]
        · simp [hja, ih htail]

theorem Memory.read_map_range (n k : Nat) (v : Value) (i : Nat) :
    Memory.read ((List.range' k n).map fun i => (i, v)) i =
      if k ≤ i ∧ i < k + n then v else Memory.unlisted := by
  induction n generalizing k with
  | zero =>
    rw [if_neg (by omega)]
    rfl
  | succ n ih =>
    simp only [List.range'_succ, List.map_cons, Memory.read, ih]
    by_cases h : k = i
    · rw [if_pos h, if_pos (by omega)]
    · rw [if_neg h]
      by_cases h2 : k + 1 ≤ i ∧ i < k + 1 + n
      · rw [if_pos h2, if_pos (by omega)]
      · rw [if_neg h2, if_neg (by omega)]

/-- Reading after a fill (`45_graphics.md` R137). -/
theorem Memory.read_fill (n : Nat) (v : Value) (i : Nat) :
    (Memory.fill n v).read i = if i < n then v else Memory.unlisted := by
  unfold Memory.fill
  split
  · rename_i hv
    simp [Memory.read, hv]
  · simpa [List.range_eq_range'] using Memory.read_map_range n 0 v i

/-- A fill is in canonical form. -/
theorem Memory.fill_wf (n : Nat) (v : Value) : (Memory.fill n v).wf := by
  unfold Memory.fill
  split
  · exact Memory.wf_nil
  · rename_i hv
    refine ⟨?_, ?_⟩
    · rw [List.pairwise_map]
      exact List.pairwise_lt_range
    · intro c hc
      obtain ⟨i, -, rfl⟩ := List.mem_map.mp hc
      exact hv

/-- A fill stays inside its region. -/
theorem Memory.fill_within (n : Nat) (v : Value) : (Memory.fill n v).within n := by
  unfold Memory.fill
  split
  · simp [Memory.within]
  · intro c hc
    obtain ⟨i, hi, rfl⟩ := List.mem_map.mp hc
    exact List.mem_range.mp hi

@[simp] theorem Memory.cells_length (m : Memory) (n : Nat) : (m.cells n).length = n := by
  simp [Memory.cells]

@[simp] theorem Memory.cells_getElem (m : Memory) (n i : Nat) (h : i < (m.cells n).length) :
    (m.cells n)[i] = m.read i := by
  simp [Memory.cells]

end Sys2Proof.Machine
end

