-- ==== Sys2Proof/Laws/State.lean ====
section
/-! SUPPORT. One lemma per field per update of State, each true by `rfl`, so that no later proof unfolds an update. -/

namespace Sys2Proof.Machine

/-! `setStatus` -/

@[simp] theorem State.setStatus_status (s : State) (st : Status) : (s.setStatus st).status = st := rfl
@[simp] theorem State.setStatus_ip (s : State) (st : Status) : (s.setStatus st).ip = s.ip := rfl
@[simp] theorem State.setStatus_stream (s : State) (st : Status) : (s.setStatus st).stream = s.stream := rfl
@[simp] theorem State.setStatus_stack (s : State) (st : Status) : (s.setStatus st).stack = s.stack := rfl
@[simp] theorem State.setStatus_cap (s : State) (st : Status) : (s.setStatus st).cap = s.cap := rfl
@[simp] theorem State.setStatus_regs (s : State) (st : Status) : (s.setStatus st).regs = s.regs := rfl
@[simp] theorem State.setStatus_ram (s : State) (st : Status) : (s.setStatus st).ram = s.ram := rfl
@[simp] theorem State.setStatus_vram (s : State) (st : Status) : (s.setStatus st).vram = s.vram := rfl
@[simp] theorem State.setStatus_gfx (s : State) (st : Status) : (s.setStatus st).gfx = s.gfx := rfl
@[simp] theorem State.setStatus_inputPending (s : State) (st : Status) : (s.setStatus st).inputPending = s.inputPending := rfl
@[simp] theorem State.setStatus_input (s : State) (st : Status) : (s.setStatus st).input = s.input := rfl
@[simp] theorem State.setStatus_alloc (s : State) (st : Status) : (s.setStatus st).alloc = s.alloc := rfl
@[simp] theorem State.setStatus_events (s : State) (st : Status) : (s.setStatus st).events = s.events := rfl
@[simp] theorem State.setStatus_nanDraws (s : State) (st : Status) : (s.setStatus st).nanDraws = s.nanDraws := rfl
@[simp] theorem State.setStatus_cfg (s : State) (st : Status) : (s.setStatus st).cfg = s.cfg := rfl

/-! `setIp` -/

@[simp] theorem State.setIp_status (s : State) (a : Addr) : (s.setIp a).status = s.status := rfl
@[simp] theorem State.setIp_ip (s : State) (a : Addr) : (s.setIp a).ip = a := rfl
@[simp] theorem State.setIp_stream (s : State) (a : Addr) : (s.setIp a).stream = s.stream := rfl
@[simp] theorem State.setIp_stack (s : State) (a : Addr) : (s.setIp a).stack = s.stack := rfl
@[simp] theorem State.setIp_cap (s : State) (a : Addr) : (s.setIp a).cap = s.cap := rfl
@[simp] theorem State.setIp_regs (s : State) (a : Addr) : (s.setIp a).regs = s.regs := rfl
@[simp] theorem State.setIp_ram (s : State) (a : Addr) : (s.setIp a).ram = s.ram := rfl
@[simp] theorem State.setIp_vram (s : State) (a : Addr) : (s.setIp a).vram = s.vram := rfl
@[simp] theorem State.setIp_gfx (s : State) (a : Addr) : (s.setIp a).gfx = s.gfx := rfl
@[simp] theorem State.setIp_inputPending (s : State) (a : Addr) : (s.setIp a).inputPending = s.inputPending := rfl
@[simp] theorem State.setIp_input (s : State) (a : Addr) : (s.setIp a).input = s.input := rfl
@[simp] theorem State.setIp_alloc (s : State) (a : Addr) : (s.setIp a).alloc = s.alloc := rfl
@[simp] theorem State.setIp_events (s : State) (a : Addr) : (s.setIp a).events = s.events := rfl
@[simp] theorem State.setIp_nanDraws (s : State) (a : Addr) : (s.setIp a).nanDraws = s.nanDraws := rfl
@[simp] theorem State.setIp_cfg (s : State) (a : Addr) : (s.setIp a).cfg = s.cfg := rfl

/-! `setStream` -/

@[simp] theorem State.setStream_status (s : State) (bs : List Byte) : (s.setStream bs).status = s.status := rfl
@[simp] theorem State.setStream_ip (s : State) (bs : List Byte) : (s.setStream bs).ip = s.ip := rfl
@[simp] theorem State.setStream_stream (s : State) (bs : List Byte) : (s.setStream bs).stream = bs := rfl
@[simp] theorem State.setStream_stack (s : State) (bs : List Byte) : (s.setStream bs).stack = s.stack := rfl
@[simp] theorem State.setStream_cap (s : State) (bs : List Byte) : (s.setStream bs).cap = s.cap := rfl
@[simp] theorem State.setStream_regs (s : State) (bs : List Byte) : (s.setStream bs).regs = s.regs := rfl
@[simp] theorem State.setStream_ram (s : State) (bs : List Byte) : (s.setStream bs).ram = s.ram := rfl
@[simp] theorem State.setStream_vram (s : State) (bs : List Byte) : (s.setStream bs).vram = s.vram := rfl
@[simp] theorem State.setStream_gfx (s : State) (bs : List Byte) : (s.setStream bs).gfx = s.gfx := rfl
@[simp] theorem State.setStream_inputPending (s : State) (bs : List Byte) : (s.setStream bs).inputPending = s.inputPending := rfl
@[simp] theorem State.setStream_input (s : State) (bs : List Byte) : (s.setStream bs).input = s.input := rfl
@[simp] theorem State.setStream_alloc (s : State) (bs : List Byte) : (s.setStream bs).alloc = s.alloc := rfl
@[simp] theorem State.setStream_events (s : State) (bs : List Byte) : (s.setStream bs).events = s.events := rfl
@[simp] theorem State.setStream_nanDraws (s : State) (bs : List Byte) : (s.setStream bs).nanDraws = s.nanDraws := rfl
@[simp] theorem State.setStream_cfg (s : State) (bs : List Byte) : (s.setStream bs).cfg = s.cfg := rfl

/-! `setStack` -/

@[simp] theorem State.setStack_status (s : State) (vs : List Value) : (s.setStack vs).status = s.status := rfl
@[simp] theorem State.setStack_ip (s : State) (vs : List Value) : (s.setStack vs).ip = s.ip := rfl
@[simp] theorem State.setStack_stream (s : State) (vs : List Value) : (s.setStack vs).stream = s.stream := rfl
@[simp] theorem State.setStack_stack (s : State) (vs : List Value) : (s.setStack vs).stack = vs := rfl
@[simp] theorem State.setStack_cap (s : State) (vs : List Value) : (s.setStack vs).cap = s.cap := rfl
@[simp] theorem State.setStack_regs (s : State) (vs : List Value) : (s.setStack vs).regs = s.regs := rfl
@[simp] theorem State.setStack_ram (s : State) (vs : List Value) : (s.setStack vs).ram = s.ram := rfl
@[simp] theorem State.setStack_vram (s : State) (vs : List Value) : (s.setStack vs).vram = s.vram := rfl
@[simp] theorem State.setStack_gfx (s : State) (vs : List Value) : (s.setStack vs).gfx = s.gfx := rfl
@[simp] theorem State.setStack_inputPending (s : State) (vs : List Value) : (s.setStack vs).inputPending = s.inputPending := rfl
@[simp] theorem State.setStack_input (s : State) (vs : List Value) : (s.setStack vs).input = s.input := rfl
@[simp] theorem State.setStack_alloc (s : State) (vs : List Value) : (s.setStack vs).alloc = s.alloc := rfl
@[simp] theorem State.setStack_events (s : State) (vs : List Value) : (s.setStack vs).events = s.events := rfl
@[simp] theorem State.setStack_nanDraws (s : State) (vs : List Value) : (s.setStack vs).nanDraws = s.nanDraws := rfl
@[simp] theorem State.setStack_cfg (s : State) (vs : List Value) : (s.setStack vs).cfg = s.cfg := rfl

/-! `setCap` -/

@[simp] theorem State.setCap_status (s : State) (n : Nat) : (s.setCap n).status = s.status := rfl
@[simp] theorem State.setCap_ip (s : State) (n : Nat) : (s.setCap n).ip = s.ip := rfl
@[simp] theorem State.setCap_stream (s : State) (n : Nat) : (s.setCap n).stream = s.stream := rfl
@[simp] theorem State.setCap_stack (s : State) (n : Nat) : (s.setCap n).stack = s.stack := rfl
@[simp] theorem State.setCap_cap (s : State) (n : Nat) : (s.setCap n).cap = n := rfl
@[simp] theorem State.setCap_regs (s : State) (n : Nat) : (s.setCap n).regs = s.regs := rfl
@[simp] theorem State.setCap_ram (s : State) (n : Nat) : (s.setCap n).ram = s.ram := rfl
@[simp] theorem State.setCap_vram (s : State) (n : Nat) : (s.setCap n).vram = s.vram := rfl
@[simp] theorem State.setCap_gfx (s : State) (n : Nat) : (s.setCap n).gfx = s.gfx := rfl
@[simp] theorem State.setCap_inputPending (s : State) (n : Nat) : (s.setCap n).inputPending = s.inputPending := rfl
@[simp] theorem State.setCap_input (s : State) (n : Nat) : (s.setCap n).input = s.input := rfl
@[simp] theorem State.setCap_alloc (s : State) (n : Nat) : (s.setCap n).alloc = s.alloc := rfl
@[simp] theorem State.setCap_events (s : State) (n : Nat) : (s.setCap n).events = s.events := rfl
@[simp] theorem State.setCap_nanDraws (s : State) (n : Nat) : (s.setCap n).nanDraws = s.nanDraws := rfl
@[simp] theorem State.setCap_cfg (s : State) (n : Nat) : (s.setCap n).cfg = s.cfg := rfl

/-! `setRegs` -/

@[simp] theorem State.setRegs_status (s : State) (rs : Vector Value 26) : (s.setRegs rs).status = s.status := rfl
@[simp] theorem State.setRegs_ip (s : State) (rs : Vector Value 26) : (s.setRegs rs).ip = s.ip := rfl
@[simp] theorem State.setRegs_stream (s : State) (rs : Vector Value 26) : (s.setRegs rs).stream = s.stream := rfl
@[simp] theorem State.setRegs_stack (s : State) (rs : Vector Value 26) : (s.setRegs rs).stack = s.stack := rfl
@[simp] theorem State.setRegs_cap (s : State) (rs : Vector Value 26) : (s.setRegs rs).cap = s.cap := rfl
@[simp] theorem State.setRegs_regs (s : State) (rs : Vector Value 26) : (s.setRegs rs).regs = rs := rfl
@[simp] theorem State.setRegs_ram (s : State) (rs : Vector Value 26) : (s.setRegs rs).ram = s.ram := rfl
@[simp] theorem State.setRegs_vram (s : State) (rs : Vector Value 26) : (s.setRegs rs).vram = s.vram := rfl
@[simp] theorem State.setRegs_gfx (s : State) (rs : Vector Value 26) : (s.setRegs rs).gfx = s.gfx := rfl
@[simp] theorem State.setRegs_inputPending (s : State) (rs : Vector Value 26) : (s.setRegs rs).inputPending = s.inputPending := rfl
@[simp] theorem State.setRegs_input (s : State) (rs : Vector Value 26) : (s.setRegs rs).input = s.input := rfl
@[simp] theorem State.setRegs_alloc (s : State) (rs : Vector Value 26) : (s.setRegs rs).alloc = s.alloc := rfl
@[simp] theorem State.setRegs_events (s : State) (rs : Vector Value 26) : (s.setRegs rs).events = s.events := rfl
@[simp] theorem State.setRegs_nanDraws (s : State) (rs : Vector Value 26) : (s.setRegs rs).nanDraws = s.nanDraws := rfl
@[simp] theorem State.setRegs_cfg (s : State) (rs : Vector Value 26) : (s.setRegs rs).cfg = s.cfg := rfl

/-! `setRam` -/

@[simp] theorem State.setRam_status (s : State) (m : Memory) : (s.setRam m).status = s.status := rfl
@[simp] theorem State.setRam_ip (s : State) (m : Memory) : (s.setRam m).ip = s.ip := rfl
@[simp] theorem State.setRam_stream (s : State) (m : Memory) : (s.setRam m).stream = s.stream := rfl
@[simp] theorem State.setRam_stack (s : State) (m : Memory) : (s.setRam m).stack = s.stack := rfl
@[simp] theorem State.setRam_cap (s : State) (m : Memory) : (s.setRam m).cap = s.cap := rfl
@[simp] theorem State.setRam_regs (s : State) (m : Memory) : (s.setRam m).regs = s.regs := rfl
@[simp] theorem State.setRam_ram (s : State) (m : Memory) : (s.setRam m).ram = m := rfl
@[simp] theorem State.setRam_vram (s : State) (m : Memory) : (s.setRam m).vram = s.vram := rfl
@[simp] theorem State.setRam_gfx (s : State) (m : Memory) : (s.setRam m).gfx = s.gfx := rfl
@[simp] theorem State.setRam_inputPending (s : State) (m : Memory) : (s.setRam m).inputPending = s.inputPending := rfl
@[simp] theorem State.setRam_input (s : State) (m : Memory) : (s.setRam m).input = s.input := rfl
@[simp] theorem State.setRam_alloc (s : State) (m : Memory) : (s.setRam m).alloc = s.alloc := rfl
@[simp] theorem State.setRam_events (s : State) (m : Memory) : (s.setRam m).events = s.events := rfl
@[simp] theorem State.setRam_nanDraws (s : State) (m : Memory) : (s.setRam m).nanDraws = s.nanDraws := rfl
@[simp] theorem State.setRam_cfg (s : State) (m : Memory) : (s.setRam m).cfg = s.cfg := rfl

/-! `setVram` -/

@[simp] theorem State.setVram_status (s : State) (m : Memory) : (s.setVram m).status = s.status := rfl
@[simp] theorem State.setVram_ip (s : State) (m : Memory) : (s.setVram m).ip = s.ip := rfl
@[simp] theorem State.setVram_stream (s : State) (m : Memory) : (s.setVram m).stream = s.stream := rfl
@[simp] theorem State.setVram_stack (s : State) (m : Memory) : (s.setVram m).stack = s.stack := rfl
@[simp] theorem State.setVram_cap (s : State) (m : Memory) : (s.setVram m).cap = s.cap := rfl
@[simp] theorem State.setVram_regs (s : State) (m : Memory) : (s.setVram m).regs = s.regs := rfl
@[simp] theorem State.setVram_ram (s : State) (m : Memory) : (s.setVram m).ram = s.ram := rfl
@[simp] theorem State.setVram_vram (s : State) (m : Memory) : (s.setVram m).vram = m := rfl
@[simp] theorem State.setVram_gfx (s : State) (m : Memory) : (s.setVram m).gfx = s.gfx := rfl
@[simp] theorem State.setVram_inputPending (s : State) (m : Memory) : (s.setVram m).inputPending = s.inputPending := rfl
@[simp] theorem State.setVram_input (s : State) (m : Memory) : (s.setVram m).input = s.input := rfl
@[simp] theorem State.setVram_alloc (s : State) (m : Memory) : (s.setVram m).alloc = s.alloc := rfl
@[simp] theorem State.setVram_events (s : State) (m : Memory) : (s.setVram m).events = s.events := rfl
@[simp] theorem State.setVram_nanDraws (s : State) (m : Memory) : (s.setVram m).nanDraws = s.nanDraws := rfl
@[simp] theorem State.setVram_cfg (s : State) (m : Memory) : (s.setVram m).cfg = s.cfg := rfl

/-! `setGfx` -/

@[simp] theorem State.setGfx_status (s : State) (b : Bool) : (s.setGfx b).status = s.status := rfl
@[simp] theorem State.setGfx_ip (s : State) (b : Bool) : (s.setGfx b).ip = s.ip := rfl
@[simp] theorem State.setGfx_stream (s : State) (b : Bool) : (s.setGfx b).stream = s.stream := rfl
@[simp] theorem State.setGfx_stack (s : State) (b : Bool) : (s.setGfx b).stack = s.stack := rfl
@[simp] theorem State.setGfx_cap (s : State) (b : Bool) : (s.setGfx b).cap = s.cap := rfl
@[simp] theorem State.setGfx_regs (s : State) (b : Bool) : (s.setGfx b).regs = s.regs := rfl
@[simp] theorem State.setGfx_ram (s : State) (b : Bool) : (s.setGfx b).ram = s.ram := rfl
@[simp] theorem State.setGfx_vram (s : State) (b : Bool) : (s.setGfx b).vram = s.vram := rfl
@[simp] theorem State.setGfx_gfx (s : State) (b : Bool) : (s.setGfx b).gfx = b := rfl
@[simp] theorem State.setGfx_inputPending (s : State) (b : Bool) : (s.setGfx b).inputPending = s.inputPending := rfl
@[simp] theorem State.setGfx_input (s : State) (b : Bool) : (s.setGfx b).input = s.input := rfl
@[simp] theorem State.setGfx_alloc (s : State) (b : Bool) : (s.setGfx b).alloc = s.alloc := rfl
@[simp] theorem State.setGfx_events (s : State) (b : Bool) : (s.setGfx b).events = s.events := rfl
@[simp] theorem State.setGfx_nanDraws (s : State) (b : Bool) : (s.setGfx b).nanDraws = s.nanDraws := rfl
@[simp] theorem State.setGfx_cfg (s : State) (b : Bool) : (s.setGfx b).cfg = s.cfg := rfl

/-! `setInputPending` -/

@[simp] theorem State.setInputPending_status (s : State) (b : Bool) : (s.setInputPending b).status = s.status := rfl
@[simp] theorem State.setInputPending_ip (s : State) (b : Bool) : (s.setInputPending b).ip = s.ip := rfl
@[simp] theorem State.setInputPending_stream (s : State) (b : Bool) : (s.setInputPending b).stream = s.stream := rfl
@[simp] theorem State.setInputPending_stack (s : State) (b : Bool) : (s.setInputPending b).stack = s.stack := rfl
@[simp] theorem State.setInputPending_cap (s : State) (b : Bool) : (s.setInputPending b).cap = s.cap := rfl
@[simp] theorem State.setInputPending_regs (s : State) (b : Bool) : (s.setInputPending b).regs = s.regs := rfl
@[simp] theorem State.setInputPending_ram (s : State) (b : Bool) : (s.setInputPending b).ram = s.ram := rfl
@[simp] theorem State.setInputPending_vram (s : State) (b : Bool) : (s.setInputPending b).vram = s.vram := rfl
@[simp] theorem State.setInputPending_gfx (s : State) (b : Bool) : (s.setInputPending b).gfx = s.gfx := rfl
@[simp] theorem State.setInputPending_inputPending (s : State) (b : Bool) : (s.setInputPending b).inputPending = b := rfl
@[simp] theorem State.setInputPending_input (s : State) (b : Bool) : (s.setInputPending b).input = s.input := rfl
@[simp] theorem State.setInputPending_alloc (s : State) (b : Bool) : (s.setInputPending b).alloc = s.alloc := rfl
@[simp] theorem State.setInputPending_events (s : State) (b : Bool) : (s.setInputPending b).events = s.events := rfl
@[simp] theorem State.setInputPending_nanDraws (s : State) (b : Bool) : (s.setInputPending b).nanDraws = s.nanDraws := rfl
@[simp] theorem State.setInputPending_cfg (s : State) (b : Bool) : (s.setInputPending b).cfg = s.cfg := rfl

/-! `setInput` -/

@[simp] theorem State.setInput_status (s : State) (l : List InputAnswer) : (s.setInput l).status = s.status := rfl
@[simp] theorem State.setInput_ip (s : State) (l : List InputAnswer) : (s.setInput l).ip = s.ip := rfl
@[simp] theorem State.setInput_stream (s : State) (l : List InputAnswer) : (s.setInput l).stream = s.stream := rfl
@[simp] theorem State.setInput_stack (s : State) (l : List InputAnswer) : (s.setInput l).stack = s.stack := rfl
@[simp] theorem State.setInput_cap (s : State) (l : List InputAnswer) : (s.setInput l).cap = s.cap := rfl
@[simp] theorem State.setInput_regs (s : State) (l : List InputAnswer) : (s.setInput l).regs = s.regs := rfl
@[simp] theorem State.setInput_ram (s : State) (l : List InputAnswer) : (s.setInput l).ram = s.ram := rfl
@[simp] theorem State.setInput_vram (s : State) (l : List InputAnswer) : (s.setInput l).vram = s.vram := rfl
@[simp] theorem State.setInput_gfx (s : State) (l : List InputAnswer) : (s.setInput l).gfx = s.gfx := rfl
@[simp] theorem State.setInput_inputPending (s : State) (l : List InputAnswer) : (s.setInput l).inputPending = s.inputPending := rfl
@[simp] theorem State.setInput_input (s : State) (l : List InputAnswer) : (s.setInput l).input = l := rfl
@[simp] theorem State.setInput_alloc (s : State) (l : List InputAnswer) : (s.setInput l).alloc = s.alloc := rfl
@[simp] theorem State.setInput_events (s : State) (l : List InputAnswer) : (s.setInput l).events = s.events := rfl
@[simp] theorem State.setInput_nanDraws (s : State) (l : List InputAnswer) : (s.setInput l).nanDraws = s.nanDraws := rfl
@[simp] theorem State.setInput_cfg (s : State) (l : List InputAnswer) : (s.setInput l).cfg = s.cfg := rfl

/-! `setAlloc` -/

@[simp] theorem State.setAlloc_status (s : State) (al : Allocator) : (s.setAlloc al).status = s.status := rfl
@[simp] theorem State.setAlloc_ip (s : State) (al : Allocator) : (s.setAlloc al).ip = s.ip := rfl
@[simp] theorem State.setAlloc_stream (s : State) (al : Allocator) : (s.setAlloc al).stream = s.stream := rfl
@[simp] theorem State.setAlloc_stack (s : State) (al : Allocator) : (s.setAlloc al).stack = s.stack := rfl
@[simp] theorem State.setAlloc_cap (s : State) (al : Allocator) : (s.setAlloc al).cap = s.cap := rfl
@[simp] theorem State.setAlloc_regs (s : State) (al : Allocator) : (s.setAlloc al).regs = s.regs := rfl
@[simp] theorem State.setAlloc_ram (s : State) (al : Allocator) : (s.setAlloc al).ram = s.ram := rfl
@[simp] theorem State.setAlloc_vram (s : State) (al : Allocator) : (s.setAlloc al).vram = s.vram := rfl
@[simp] theorem State.setAlloc_gfx (s : State) (al : Allocator) : (s.setAlloc al).gfx = s.gfx := rfl
@[simp] theorem State.setAlloc_inputPending (s : State) (al : Allocator) : (s.setAlloc al).inputPending = s.inputPending := rfl
@[simp] theorem State.setAlloc_input (s : State) (al : Allocator) : (s.setAlloc al).input = s.input := rfl
@[simp] theorem State.setAlloc_alloc (s : State) (al : Allocator) : (s.setAlloc al).alloc = al := rfl
@[simp] theorem State.setAlloc_events (s : State) (al : Allocator) : (s.setAlloc al).events = s.events := rfl
@[simp] theorem State.setAlloc_nanDraws (s : State) (al : Allocator) : (s.setAlloc al).nanDraws = s.nanDraws := rfl
@[simp] theorem State.setAlloc_cfg (s : State) (al : Allocator) : (s.setAlloc al).cfg = s.cfg := rfl

/-! `setEvents` -/

@[simp] theorem State.setEvents_status (s : State) (es : List Event) : (s.setEvents es).status = s.status := rfl
@[simp] theorem State.setEvents_ip (s : State) (es : List Event) : (s.setEvents es).ip = s.ip := rfl
@[simp] theorem State.setEvents_stream (s : State) (es : List Event) : (s.setEvents es).stream = s.stream := rfl
@[simp] theorem State.setEvents_stack (s : State) (es : List Event) : (s.setEvents es).stack = s.stack := rfl
@[simp] theorem State.setEvents_cap (s : State) (es : List Event) : (s.setEvents es).cap = s.cap := rfl
@[simp] theorem State.setEvents_regs (s : State) (es : List Event) : (s.setEvents es).regs = s.regs := rfl
@[simp] theorem State.setEvents_ram (s : State) (es : List Event) : (s.setEvents es).ram = s.ram := rfl
@[simp] theorem State.setEvents_vram (s : State) (es : List Event) : (s.setEvents es).vram = s.vram := rfl
@[simp] theorem State.setEvents_gfx (s : State) (es : List Event) : (s.setEvents es).gfx = s.gfx := rfl
@[simp] theorem State.setEvents_inputPending (s : State) (es : List Event) : (s.setEvents es).inputPending = s.inputPending := rfl
@[simp] theorem State.setEvents_input (s : State) (es : List Event) : (s.setEvents es).input = s.input := rfl
@[simp] theorem State.setEvents_alloc (s : State) (es : List Event) : (s.setEvents es).alloc = s.alloc := rfl
@[simp] theorem State.setEvents_events (s : State) (es : List Event) : (s.setEvents es).events = es := rfl
@[simp] theorem State.setEvents_nanDraws (s : State) (es : List Event) : (s.setEvents es).nanDraws = s.nanDraws := rfl
@[simp] theorem State.setEvents_cfg (s : State) (es : List Event) : (s.setEvents es).cfg = s.cfg := rfl

/-! `setNanDraws` -/

@[simp] theorem State.setNanDraws_status (s : State) (n : Nat) : (s.setNanDraws n).status = s.status := rfl
@[simp] theorem State.setNanDraws_ip (s : State) (n : Nat) : (s.setNanDraws n).ip = s.ip := rfl
@[simp] theorem State.setNanDraws_stream (s : State) (n : Nat) : (s.setNanDraws n).stream = s.stream := rfl
@[simp] theorem State.setNanDraws_stack (s : State) (n : Nat) : (s.setNanDraws n).stack = s.stack := rfl
@[simp] theorem State.setNanDraws_cap (s : State) (n : Nat) : (s.setNanDraws n).cap = s.cap := rfl
@[simp] theorem State.setNanDraws_regs (s : State) (n : Nat) : (s.setNanDraws n).regs = s.regs := rfl
@[simp] theorem State.setNanDraws_ram (s : State) (n : Nat) : (s.setNanDraws n).ram = s.ram := rfl
@[simp] theorem State.setNanDraws_vram (s : State) (n : Nat) : (s.setNanDraws n).vram = s.vram := rfl
@[simp] theorem State.setNanDraws_gfx (s : State) (n : Nat) : (s.setNanDraws n).gfx = s.gfx := rfl
@[simp] theorem State.setNanDraws_inputPending (s : State) (n : Nat) : (s.setNanDraws n).inputPending = s.inputPending := rfl
@[simp] theorem State.setNanDraws_input (s : State) (n : Nat) : (s.setNanDraws n).input = s.input := rfl
@[simp] theorem State.setNanDraws_alloc (s : State) (n : Nat) : (s.setNanDraws n).alloc = s.alloc := rfl
@[simp] theorem State.setNanDraws_events (s : State) (n : Nat) : (s.setNanDraws n).events = s.events := rfl
@[simp] theorem State.setNanDraws_nanDraws (s : State) (n : Nat) : (s.setNanDraws n).nanDraws = n := rfl
@[simp] theorem State.setNanDraws_cfg (s : State) (n : Nat) : (s.setNanDraws n).cfg = s.cfg := rfl

end Sys2Proof.Machine
end

