-- ==== Sys2Proof/Laws/Ops.lean ====
section
/-! SUPPORT. One lemma per shared operation that says everything it can answer; later proofs cite these and unfold no
operation. -/

namespace Sys2Proof.Machine

/-! ### Results -/

@[simp] theorem Res.bind_ok {α β : Type} (a : α) (s : State) (f : α → State → Res β) :
    (Res.ok a s).bind f = f a s := rfl

@[simp] theorem Res.bind_raise {α β : Type} (r : FaultReason) (s : State) (f : α → State → Res β) :
    (Res.raise r s : Res α).bind f = .raise r s := rfl

@[simp] theorem Res.bind_wait {α β : Type} (f : α → State → Res β) : (Res.wait : Res α).bind f = .wait := rfl

theorem Res.bind_eq_ok {α β : Type} {x : Res α} {f : α → State → Res β} {b : β} {t : State} :
    x.bind f = .ok b t ↔ ∃ a s, x = .ok a s ∧ f a s = .ok b t := by
  cases x <;> simp

theorem Res.bind_eq_raise {α β : Type} {x : Res α} {f : α → State → Res β} {r : FaultReason} {t : State} :
    x.bind f = .raise r t ↔ x = .raise r t ∨ ∃ a s, x = .ok a s ∧ f a s = .raise r t := by
  cases x <;> simp

theorem Res.bind_eq_wait {α β : Type} {x : Res α} {f : α → State → Res β} :
    x.bind f = .wait ↔ x = .wait ∨ ∃ a s, x = .ok a s ∧ f a s = .wait := by
  cases x <;> simp

/-! ### The allocator -/

theorem AllocNeverFails.answer {al : Allocator} (h : AllocNeverFails al) : al.answer = true := by
  obtain ⟨coming, thereafter⟩ := al
  cases coming with
  | nil => exact h.1
  | cons b bs => exact h.2 b List.mem_cons_self

theorem AllocNeverFails.advance {al : Allocator} (h : AllocNeverFails al) : AllocNeverFails al.advance :=
  ⟨h.1, fun b hb => h.2 b (List.mem_of_mem_tail hb)⟩

/-- A request to the allocator goes through or is refused, and either way its answer is taken. -/
theorem realloc_eq (newcap : Nat) (s : State) :
    realloc newcap s =
      if s.alloc.answer = true then .ok () ((s.setAlloc s.alloc.advance).setCap newcap)
      else .raise .reallocFailed (s.setAlloc s.alloc.advance) := by
  simp [realloc]

/-! ### Push and pop -/

/-- `Push`: it goes through, or the storage is at its largest, or the allocator refuses. -/
theorem push_eq (v : Value) (s : State) :
    push v s =
      if PushGoesThrough s then .ok () (pushed v s)
      else if min ((3 * s.cap + 1) / 2) s.cfg.stackMax = s.cap then .raise .reallocFailed s
      else .raise .reallocFailed (s.setAlloc s.alloc.advance) := by
  by_cases hfull : s.stack.length = s.cap
  · by_cases hmax : min ((3 * s.cap + 1) / 2) s.cfg.stackMax = s.cap
    · simp [push, grow, State.size, hfull, grownCap, hmax]
    · by_cases ha : s.alloc.answer = true
      · simp [push, grow, State.size, hfull, grownCap, hmax, realloc_eq, ha, pushed]
        rfl
      · simp [push, grow, State.size, hfull, grownCap, hmax, realloc_eq, ha]
  · simp [push, State.size, hfull, pushed]
    rfl

theorem push_ok {v : Value} {s : State} (h : PushGoesThrough s) : push v s = .ok () (pushed v s) := by
  rw [push_eq, if_pos h]

/-- What a `Push` that answers can be. -/
theorem push_eq_ok {v : Value} {s t : State} {u : Unit} (h : push v s = .ok u t) :
    PushGoesThrough s ∧ t = pushed v s := by
  rw [push_eq] at h
  split at h
  · rename_i hp
    injection h with _ h
    exact ⟨hp, h.symm⟩
  · split at h <;> cases h

/-- What a `Push` that faults can be. -/
theorem push_eq_raise {v : Value} {s t : State} {r : FaultReason} (h : push v s = .raise r t) :
    r = .reallocFailed ∧ (t = s ∨ t = s.setAlloc s.alloc.advance) := by
  rw [push_eq] at h
  split at h
  · cases h
  · split at h <;> cases h
    · exact ⟨rfl, .inl rfl⟩
    · exact ⟨rfl, .inr rfl⟩

theorem push_ne_wait (v : Value) (s : State) : push v s ≠ .wait := by
  rw [push_eq]
  split
  · simp
  · split <;> simp

/-- `Pop` of an empty stack (`20_memory.md` R55). -/
theorem pop_nil {s : State} (hs : s.stack = []) : pop s = .raise .underflow s := by
  simp [pop, hs]

/-- `Pop` of a stack that is not empty: it goes through, or the allocator refuses the shrink. -/
theorem pop_cons {s : State} {v : Value} {rest : List Value} (hs : s.stack = v :: rest) :
    pop s =
      if PopGoesThrough s then .ok v (popped s)
      else .raise .reallocFailed ((s.setStack rest).setAlloc s.alloc.advance) := by
  by_cases hc : s.cap > 2 * (rest.length + 1)
  · by_cases ha : s.alloc.answer = true
    · rw [if_pos ⟨by simp [hs], fun _ => ha⟩]
      simp [pop, State.size, hc, shrink, shrunkCap, realloc_eq, ha, popped, hs]
      rfl
    · rw [if_neg fun h => ha (h.2 (by simpa [hs] using hc))]
      simp [pop, State.size, hc, shrink, shrunkCap, realloc_eq, ha, hs]
  · rw [if_pos ⟨by simp [hs], fun h => absurd (by simpa [hs] using h) hc⟩]
    simp [pop, State.size, hc, popped, hs]
    rfl

theorem pop_ok {s : State} {v : Value} {rest : List Value} (hs : s.stack = v :: rest) (h : PopGoesThrough s) :
    pop s = .ok v (popped s) := by
  rw [pop_cons hs, if_pos h]

/-- What a `Pop` that answers can be. -/
theorem pop_eq_ok {s t : State} {v : Value} (h : pop s = .ok v t) :
    PopGoesThrough s ∧ s.stack = v :: s.stack.tail ∧ t = popped s := by
  cases hs : s.stack with
  | nil =>
    rw [pop_nil hs] at h
    cases h
  | cons w rest =>
    rw [pop_cons hs] at h
    split at h
    · rename_i hp
      injection h with h1 h2
      exact ⟨hp, by rw [h1]; rfl, h2.symm⟩
    · cases h

/-- What a `Pop` that faults can be. -/
theorem pop_eq_raise {s t : State} {r : FaultReason} (h : pop s = .raise r t) :
    (r = .underflow ∧ s.stack = [] ∧ t = s) ∨
    (r = .reallocFailed ∧ t = (s.setStack s.stack.tail).setAlloc s.alloc.advance) := by
  cases hs : s.stack with
  | nil =>
    rw [pop_nil hs] at h
    cases h
    exact .inl ⟨rfl, rfl, rfl⟩
  | cons w rest =>
    rw [pop_cons hs] at h
    split at h <;> cases h
    exact .inr ⟨rfl, rfl⟩

theorem pop_ne_wait (s : State) : pop s ≠ .wait := by
  cases hs : s.stack with
  | nil => simp [pop_nil hs]
  | cons w rest =>
    rw [pop_cons hs]
    split <;> simp

/-- What `Top` answers (`20_memory.md` R57). -/
theorem top_eq_ok {s t : State} {v : Value} (h : top s = .ok v t) : s.stack = v :: s.stack.tail ∧ t = s := by
  unfold top at h
  split at h
  · cases h
  · rename_i w rest hs
    injection h with h1 h2
    subst h1
    exact ⟨by simp [hs], h2.symm⟩

theorem top_eq_raise {s t : State} {r : FaultReason} (h : top s = .raise r t) :
    r = .underflow ∧ s.stack = [] ∧ t = s := by
  unfold top at h
  split at h
  · rename_i hs
    cases h
    exact ⟨rfl, hs, rfl⟩
  · cases h

theorem top_ne_wait (s : State) : top s ≠ .wait := by
  unfold top
  split <;> simp

theorem top_cons {s : State} {v : Value} {rest : List Value} (hs : s.stack = v :: rest) : top s = .ok v s := by
  simp [top, hs]

/-! ### The fields of a push or a pop that goes through -/

@[simp] theorem pushed_stack (v : Value) (s : State) : (pushed v s).stack = v :: s.stack := by
  unfold pushed
  split <;> rfl

@[simp] theorem popped_stack (s : State) : (popped s).stack = s.stack.tail := by
  unfold popped
  split <;> rfl

theorem pushed_cap (v : Value) (s : State) : (pushed v s).cap =
    if s.stack.length = s.cap then min ((3 * s.cap + 1) / 2) s.cfg.stackMax else s.cap := by
  unfold pushed
  split <;> rfl

theorem popped_cap (s : State) : (popped s).cap =
    if s.cap > 2 * s.stack.length then 3 * s.cap / 4 else s.cap := by
  unfold popped
  split <;> rfl

theorem pushed_alloc (v : Value) (s : State) : (pushed v s).alloc =
    if s.stack.length = s.cap then s.alloc.advance else s.alloc := by
  unfold pushed
  split <;> rfl

theorem popped_alloc (s : State) : (popped s).alloc =
    if s.cap > 2 * s.stack.length then s.alloc.advance else s.alloc := by
  unfold popped
  split <;> rfl

@[simp] theorem pushed_status (v : Value) (s : State) : (pushed v s).status = s.status := by
  unfold pushed
  split <;> rfl

@[simp] theorem popped_status (s : State) : (popped s).status = s.status := by
  unfold popped
  split <;> rfl

@[simp] theorem pushed_ip (v : Value) (s : State) : (pushed v s).ip = s.ip := by
  unfold pushed
  split <;> rfl

@[simp] theorem popped_ip (s : State) : (popped s).ip = s.ip := by
  unfold popped
  split <;> rfl

@[simp] theorem pushed_stream (v : Value) (s : State) : (pushed v s).stream = s.stream := by
  unfold pushed
  split <;> rfl

@[simp] theorem popped_stream (s : State) : (popped s).stream = s.stream := by
  unfold popped
  split <;> rfl

@[simp] theorem pushed_regs (v : Value) (s : State) : (pushed v s).regs = s.regs := by
  unfold pushed
  split <;> rfl

@[simp] theorem popped_regs (s : State) : (popped s).regs = s.regs := by
  unfold popped
  split <;> rfl

@[simp] theorem pushed_ram (v : Value) (s : State) : (pushed v s).ram = s.ram := by
  unfold pushed
  split <;> rfl

@[simp] theorem popped_ram (s : State) : (popped s).ram = s.ram := by
  unfold popped
  split <;> rfl

@[simp] theorem pushed_vram (v : Value) (s : State) : (pushed v s).vram = s.vram := by
  unfold pushed
  split <;> rfl

@[simp] theorem popped_vram (s : State) : (popped s).vram = s.vram := by
  unfold popped
  split <;> rfl

@[simp] theorem pushed_gfx (v : Value) (s : State) : (pushed v s).gfx = s.gfx := by
  unfold pushed
  split <;> rfl

@[simp] theorem popped_gfx (s : State) : (popped s).gfx = s.gfx := by
  unfold popped
  split <;> rfl

@[simp] theorem pushed_inputPending (v : Value) (s : State) : (pushed v s).inputPending = s.inputPending := by
  unfold pushed
  split <;> rfl

@[simp] theorem popped_inputPending (s : State) : (popped s).inputPending = s.inputPending := by
  unfold popped
  split <;> rfl

@[simp] theorem pushed_input (v : Value) (s : State) : (pushed v s).input = s.input := by
  unfold pushed
  split <;> rfl

@[simp] theorem popped_input (s : State) : (popped s).input = s.input := by
  unfold popped
  split <;> rfl

@[simp] theorem pushed_events (v : Value) (s : State) : (pushed v s).events = s.events := by
  unfold pushed
  split <;> rfl

@[simp] theorem popped_events (s : State) : (popped s).events = s.events := by
  unfold popped
  split <;> rfl

@[simp] theorem pushed_nanDraws (v : Value) (s : State) : (pushed v s).nanDraws = s.nanDraws := by
  unfold pushed
  split <;> rfl

@[simp] theorem popped_nanDraws (s : State) : (popped s).nanDraws = s.nanDraws := by
  unfold popped
  split <;> rfl

@[simp] theorem pushed_cfg (v : Value) (s : State) : (pushed v s).cfg = s.cfg := by
  unfold pushed
  split <;> rfl

@[simp] theorem popped_cfg (s : State) : (popped s).cfg = s.cfg := by
  unfold popped
  split <;> rfl

/-! ### Pushes and pops beside the fields they do not read -/

theorem pushed_setIp (v : Value) (s : State) {x} : pushed v (s.setIp x) = (pushed v s).setIp x := by
  by_cases h : s.stack.length = s.cap <;> simp [pushed, State.setIp, h]

theorem popped_setIp (s : State) {x} : popped (s.setIp x) = (popped s).setIp x := by
  by_cases h : s.cap > 2 * s.stack.length <;> simp [popped, State.setIp, h]

theorem pushed_setNanDraws (v : Value) (s : State) {x} : pushed v (s.setNanDraws x) = (pushed v s).setNanDraws x := by
  by_cases h : s.stack.length = s.cap <;> simp [pushed, State.setNanDraws, h]

theorem popped_setNanDraws (s : State) {x} : popped (s.setNanDraws x) = (popped s).setNanDraws x := by
  by_cases h : s.cap > 2 * s.stack.length <;> simp [popped, State.setNanDraws, h]

theorem pushed_setInput (v : Value) (s : State) {x} : pushed v (s.setInput x) = (pushed v s).setInput x := by
  by_cases h : s.stack.length = s.cap <;> simp [pushed, State.setInput, h]

theorem popped_setInput (s : State) {x} : popped (s.setInput x) = (popped s).setInput x := by
  by_cases h : s.cap > 2 * s.stack.length <;> simp [popped, State.setInput, h]

theorem pushed_setInputPending (v : Value) (s : State) {x} : pushed v (s.setInputPending x) = (pushed v s).setInputPending x := by
  by_cases h : s.stack.length = s.cap <;> simp [pushed, State.setInputPending, h]

theorem popped_setInputPending (s : State) {x} : popped (s.setInputPending x) = (popped s).setInputPending x := by
  by_cases h : s.cap > 2 * s.stack.length <;> simp [popped, State.setInputPending, h]

/-- A push that goes through keeps `size ≤ cap` and the bounds of `cap` (`10_state.md` R29; `20_memory.md` R60). -/
theorem pushed_within {v : Value} {s : State} (hp : PushGoesThrough s) (h1 : s.stack.length ≤ s.cap) (h2 : 1 ≤ s.cap)
    (h3 : s.cap ≤ s.cfg.stackMax) :
    (pushed v s).stack.length ≤ (pushed v s).cap ∧ 1 ≤ (pushed v s).cap ∧ (pushed v s).cap ≤ s.cfg.stackMax := by
  rw [pushed_cap, pushed_stack, List.length_cons]
  split
  · rename_i hfull
    have := (hp hfull).1
    omega
  · omega

/-- A pop that goes through keeps `size ≤ cap` and the bounds of `cap`, and leaves room for one more Value. -/
theorem popped_within {s : State} (hp : PopGoesThrough s) (h1 : s.stack.length ≤ s.cap) :
    (popped s).stack.length < (popped s).cap ∧ (popped s).cap ≤ s.cap := by
  have hne : 0 < s.stack.length := List.length_pos_iff.mpr hp.1
  rw [popped_cap, popped_stack, List.length_tail]
  split <;> omega

/-! ### The stack container by itself -/

/-- `clear()` of a container is pops until no Value is left: where as many pops of a machine's own stack as it holds Values
go through, the container's `clear()` leaves what they leave (`20_memory.md` R59). -/
theorem clear_of_popMany {s t : State} {vs : List Value} (h : popMany s.stack.length s = .ok vs t) :
    s.container.clear = .ok t.container := by
  suffices ∀ (l : List Value) (s t : State) (vs : List Value), s.stack = l → popMany l.length s = .ok vs t →
      clearFrom l s.cap s.alloc = .ok t.container from this _ s t vs rfl h
  intro l
  induction l with
  | nil =>
    intro s t vs hs h
    cases h
    simp [clearFrom, State.container, hs]
  | cons v rest ih =>
    intro s t vs hs h
    simp only [List.length_cons, popMany, Res.bind_eq_ok] at h
    obtain ⟨w, u, hp, ws, u', hm, hu⟩ := h
    obtain ⟨hg, -, rfl⟩ := pop_eq_ok hp
    cases hu
    have hrest : (popped s).stack = rest := by simp [hs]
    have hih := ih _ _ _ hrest hm
    rw [popped_cap, popped_alloc, hs, List.length_cons] at hih
    unfold clearFrom
    split
    · rename_i hc
      rw [if_pos hc, if_pos hc] at hih
      rw [if_pos (hg.2 (by rw [hs]; exact hc))]
      exact hih
    · rename_i hc
      rw [if_neg hc, if_neg hc] at hih
      exact hih

/-! ### Operands -/

/-- What `locate` answers: a cell that exists, and the state unchanged. -/
theorem locate_eq_ok {o : Operand} {s t : State} {p : Place} (h : locate o s = .ok p t) :
    t = s ∧
    ((∃ i h', o = .reg i ∧ p = .reg ⟨i.toNat, h'⟩) ∨
     (∃ v i, o = .ram v ∧ toIndex v s.cfg.ramSize = some i ∧ p = .ram i) ∨
     (∃ v i, o = .vram v ∧ toIndex v s.cfg.vramSize = some i ∧ p = .vram i)) := by
  cases o with
  | const v => cases h
  | reg i =>
    simp only [locate] at h
    split at h <;> cases h
    exact ⟨rfl, .inl ⟨_, _, rfl, rfl⟩⟩
  | ram v =>
    simp only [locate] at h
    split at h <;> cases h
    rename_i i hi
    exact ⟨rfl, .inr (.inl ⟨_, _, rfl, hi, rfl⟩)⟩
  | vram v =>
    simp only [locate] at h
    split at h <;> cases h
    rename_i i hi
    exact ⟨rfl, .inr (.inr ⟨_, _, rfl, hi, rfl⟩)⟩

/-- What `locate` raises. -/
theorem locate_eq_raise {o : Operand} {s t : State} {r : FaultReason} (h : locate o s = .raise r t) :
    t = s ∧ (r = .invalidOperand ∧ o.isDestination = false ∨ r = .outOfBounds ∧ o.isDestination = true) := by
  cases o with
  | const v =>
    cases h
    exact ⟨rfl, .inl ⟨rfl, rfl⟩⟩
  | reg i =>
    simp only [locate] at h
    split at h <;> cases h
    exact ⟨rfl, .inr ⟨rfl, rfl⟩⟩
  | ram v =>
    simp only [locate] at h
    split at h <;> cases h
    exact ⟨rfl, .inr ⟨rfl, rfl⟩⟩
  | vram v =>
    simp only [locate] at h
    split at h <;> cases h
    exact ⟨rfl, .inr ⟨rfl, rfl⟩⟩

theorem locate_ne_wait (o : Operand) (s : State) : locate o s ≠ .wait := by
  cases o <;> simp only [locate]
  · simp
  · split <;> simp
  · split <;> simp
  · split <;> simp

/-- A source is a constant or the Value of the cell it names. -/
theorem sourceValue_eq (o : Operand) (s : State) :
    sourceValue o s =
      match o with
      | .const v => .ok v s
      | o => (locate o s).bind fun p t => .ok (readPlace p t) t := by
  cases o <;> rfl

/-- Where `ToIndex` answers, its index is in the region (`20_memory.md` R49). -/
theorem toIndex_lt {v : Value} {n i : Nat} (h : toIndex v n = some i) : i < n := by
  unfold toIndex truncBelow at h
  split at h
  · cases h
  · cases h
  · simp only at h
    split at h
    · cases h
    · split at h
      · cases h
      · split at h
        · cases h
        · cases h
          omega

/-! ### Writing to a place -/

@[simp] theorem writePlace_status (p : Place) (v : Value) (s : State) : (writePlace p v s).status = s.status := by
  cases p <;> rfl

@[simp] theorem writePlace_ip (p : Place) (v : Value) (s : State) : (writePlace p v s).ip = s.ip := by
  cases p <;> rfl

@[simp] theorem writePlace_stream (p : Place) (v : Value) (s : State) : (writePlace p v s).stream = s.stream := by
  cases p <;> rfl

@[simp] theorem writePlace_stack (p : Place) (v : Value) (s : State) : (writePlace p v s).stack = s.stack := by
  cases p <;> rfl

@[simp] theorem writePlace_cap (p : Place) (v : Value) (s : State) : (writePlace p v s).cap = s.cap := by
  cases p <;> rfl

@[simp] theorem writePlace_gfx (p : Place) (v : Value) (s : State) : (writePlace p v s).gfx = s.gfx := by
  cases p <;> rfl

@[simp] theorem writePlace_inputPending (p : Place) (v : Value) (s : State) : (writePlace p v s).inputPending = s.inputPending := by
  cases p <;> rfl

@[simp] theorem writePlace_input (p : Place) (v : Value) (s : State) : (writePlace p v s).input = s.input := by
  cases p <;> rfl

@[simp] theorem writePlace_alloc (p : Place) (v : Value) (s : State) : (writePlace p v s).alloc = s.alloc := by
  cases p <;> rfl

@[simp] theorem writePlace_events (p : Place) (v : Value) (s : State) : (writePlace p v s).events = s.events := by
  cases p <;> rfl

@[simp] theorem writePlace_nanDraws (p : Place) (v : Value) (s : State) : (writePlace p v s).nanDraws = s.nanDraws := by
  cases p <;> rfl

@[simp] theorem writePlace_cfg (p : Place) (v : Value) (s : State) : (writePlace p v s).cfg = s.cfg := by
  cases p <;> rfl

/-! ### Taking a fault -/

@[simp] theorem takeFault_ip (r : FaultReason) (start reached : State) :
    (takeFault r start reached).ip = start.ip := rfl

@[simp] theorem takeFault_stream (r : FaultReason) (start reached : State) :
    (takeFault r start reached).stream = start.stream := rfl

@[simp] theorem takeFault_stack (r : FaultReason) (start reached : State) :
    (takeFault r start reached).stack = start.stack := rfl

@[simp] theorem takeFault_cap (r : FaultReason) (start reached : State) :
    (takeFault r start reached).cap = start.cap := rfl

@[simp] theorem takeFault_regs (r : FaultReason) (start reached : State) :
    (takeFault r start reached).regs = start.regs := rfl

@[simp] theorem takeFault_ram (r : FaultReason) (start reached : State) :
    (takeFault r start reached).ram = start.ram := rfl

@[simp] theorem takeFault_vram (r : FaultReason) (start reached : State) :
    (takeFault r start reached).vram = start.vram := rfl

@[simp] theorem takeFault_gfx (r : FaultReason) (start reached : State) :
    (takeFault r start reached).gfx = start.gfx := rfl

@[simp] theorem takeFault_events (r : FaultReason) (start reached : State) :
    (takeFault r start reached).events = start.events := rfl

@[simp] theorem takeFault_nanDraws (r : FaultReason) (start reached : State) :
    (takeFault r start reached).nanDraws = start.nanDraws := rfl

@[simp] theorem takeFault_cfg (r : FaultReason) (start reached : State) :
    (takeFault r start reached).cfg = start.cfg := rfl

@[simp] theorem takeFault_status (r : FaultReason) (start reached : State) :
    (takeFault r start reached).status = .faulted r := rfl

@[simp] theorem takeFault_inputPending (r : FaultReason) (start reached : State) :
    (takeFault r start reached).inputPending = false := rfl

@[simp] theorem takeFault_alloc (r : FaultReason) (start reached : State) :
    (takeFault r start reached).alloc = reached.alloc := rfl

@[simp] theorem takeFault_input (r : FaultReason) (start reached : State) :
    (takeFault r start reached).input = reached.input := rfl

/-- A fault that took no answer of the host. -/
theorem takeFault_self (r : FaultReason) (s : State) : takeFault r s s = faultedAt r s := rfl

/-! ### The frame of an instruction -/

/-- Everything `perform` can answer: the depth fault, or what `commit` makes of the handler's answer. -/
theorem perform_eq (i : Instr) (handler : State → Res Signal) (s : State) :
    perform i handler s =
      if s.stack.length < stackIn i.mnemonic then .next (faultedAt .underflow s)
      else .next (commit s (handler (decoded i s))) := by
  unfold perform State.size
  split <;> rfl

/-- Everything `commit` can leave. -/
theorem commit_cases (start : State) (x : Res Signal) :
    (∃ t, x = .ok .proceed t ∧ commit start x = t.setInputPending false) ∨
    (∃ t, x = .ok .jumped t ∧ commit start x = t.setInputPending false) ∨
    (∃ t, x = .ok .halt t ∧ commit start x = (t.setInputPending false).setStatus .halted) ∨
    (∃ r t, x = .raise r t ∧ commit start x = takeFault r start t) ∨
    (x = .wait ∧ commit start x = start.setInputPending true) := by
  cases x with
  | ok a t => cases a <;> simp [commit]
  | raise r t => simp [commit]
  | wait => simp [commit]

/-! ### The frame of a step -/

/-- A step ends with at most one more event, a `Render`. -/
theorem finishStep_eq (start t : State) :
    finishStep start t =
      { t with events := t.events ++ (if start.gfx && completed t then [.render t.vramCells] else []) } := by
  unfold finishStep
  split
  · rfl
  · simp

/-- Everything a step can answer. -/
theorem step_cases (s : State) :
    (s.status ≠ .running ∧ step s = .next s) ∨
    (s.status = .running ∧ fetch s = .endOfStream ∧ step s = .next (finishStep s (haltAtEnd s))) ∨
    (∃ r, s.status = .running ∧ fetch s = .fault r ∧ step s = .next (takeFault r s s)) ∨
    (∃ i, s.status = .running ∧ fetch s = .instr i ∧ ∀ t, exec i s = .next t → step s = .next (finishStep s t)) := by
  unfold step
  cases hst : s.status with
  | halted => exact .inl ⟨by simp, rfl⟩
  | faulted r => exact .inl ⟨by simp, rfl⟩
  | running =>
    cases hf : fetch s with
    | endOfStream => exact .inr (.inl ⟨rfl, rfl, rfl⟩)
    | fault r => exact .inr (.inr (.inl ⟨r, rfl, rfl, rfl⟩))
    | instr i =>
      refine .inr (.inr (.inr ⟨i, rfl, rfl, fun t ht => ?_⟩))
      simp [ht]

end Sys2Proof.Machine
end

