-- ==== Sys2Proof/Laws/PerInstr.lean ====
section
/-! SUPPORT. A law of every instruction as syntax, one lemma per constructor: its encoding begins with its mnemonic's
opcode byte and has the length the table gives it (`30_encoding.md` R68, R75). -/

namespace Sys2Proof.Laws

/-- The encoding of `i` is its opcode byte and then its fields, `i.length` bytes in all, under every map. -/
def EncodeLength.Statement (i : Instr) : Prop :=
  ∀ e : Encoding, (encode e i).head? = some (e.opcodes.code i.mnemonic) ∧ (encode e i).length = i.length

theorem encodeOperand_length (t : TagMap) (o : Operand) : (encodeOperand t o).length = o.length := by
  cases o <;> simp [encodeOperand, encodeValue, Operand.length]

theorem EncodeLength.push (o : Operand) : EncodeLength.Statement (.push o) := fun e =>
  ⟨rfl, by simp [encode, encodeFields, Instr.length, encodeOperand_length, Nat.add_comm]⟩

theorem EncodeLength.pop (o : Operand) : EncodeLength.Statement (.pop o) := fun e =>
  ⟨rfl, by simp [encode, encodeFields, Instr.length, encodeOperand_length, Nat.add_comm]⟩

theorem EncodeLength.dup : EncodeLength.Statement .dup := fun _ => ⟨rfl, rfl⟩

theorem EncodeLength.add : EncodeLength.Statement .add := fun _ => ⟨rfl, rfl⟩

theorem EncodeLength.sub : EncodeLength.Statement .sub := fun _ => ⟨rfl, rfl⟩

theorem EncodeLength.mul : EncodeLength.Statement .mul := fun _ => ⟨rfl, rfl⟩

theorem EncodeLength.div : EncodeLength.Statement .div := fun _ => ⟨rfl, rfl⟩

theorem EncodeLength.sin : EncodeLength.Statement .sin := fun _ => ⟨rfl, rfl⟩

theorem EncodeLength.cos : EncodeLength.Statement .cos := fun _ => ⟨rfl, rfl⟩

theorem EncodeLength.sqrt : EncodeLength.Statement .sqrt := fun _ => ⟨rfl, rfl⟩

theorem EncodeLength.pw2 : EncodeLength.Statement .pw2 := fun _ => ⟨rfl, rfl⟩

theorem EncodeLength.pwInv : EncodeLength.Statement .pwInv := fun _ => ⟨rfl, rfl⟩

theorem EncodeLength.abs : EncodeLength.Statement .abs := fun _ => ⟨rfl, rfl⟩

theorem EncodeLength.inp : EncodeLength.Statement .inp := fun _ => ⟨rfl, rfl⟩

theorem EncodeLength.out : EncodeLength.Statement .out := fun _ => ⟨rfl, rfl⟩

theorem EncodeLength.outN : EncodeLength.Statement .outN := fun _ => ⟨rfl, rfl⟩

theorem EncodeLength.jmp (target : Addr) : EncodeLength.Statement (.jmp target) := fun _ =>
  ⟨rfl, by simp [encode, encodeFields, Instr.length, encodeAddress, Nat.add_comm]⟩

theorem EncodeLength.ja (target : Addr) : EncodeLength.Statement (.ja target) := fun _ =>
  ⟨rfl, by simp [encode, encodeFields, Instr.length, encodeAddress, Nat.add_comm]⟩

theorem EncodeLength.jae (target : Addr) : EncodeLength.Statement (.jae target) := fun _ =>
  ⟨rfl, by simp [encode, encodeFields, Instr.length, encodeAddress, Nat.add_comm]⟩

theorem EncodeLength.jb (target : Addr) : EncodeLength.Statement (.jb target) := fun _ =>
  ⟨rfl, by simp [encode, encodeFields, Instr.length, encodeAddress, Nat.add_comm]⟩

theorem EncodeLength.jbe (target : Addr) : EncodeLength.Statement (.jbe target) := fun _ =>
  ⟨rfl, by simp [encode, encodeFields, Instr.length, encodeAddress, Nat.add_comm]⟩

theorem EncodeLength.je (target : Addr) : EncodeLength.Statement (.je target) := fun _ =>
  ⟨rfl, by simp [encode, encodeFields, Instr.length, encodeAddress, Nat.add_comm]⟩

theorem EncodeLength.jne (target : Addr) : EncodeLength.Statement (.jne target) := fun _ =>
  ⟨rfl, by simp [encode, encodeFields, Instr.length, encodeAddress, Nat.add_comm]⟩

theorem EncodeLength.call (target : Addr) : EncodeLength.Statement (.call target) := fun _ =>
  ⟨rfl, by simp [encode, encodeFields, Instr.length, encodeAddress, Nat.add_comm]⟩

theorem EncodeLength.ret : EncodeLength.Statement .ret := fun _ => ⟨rfl, rfl⟩

theorem EncodeLength.halt : EncodeLength.Statement .halt := fun _ => ⟨rfl, rfl⟩

theorem EncodeLength.gInit : EncodeLength.Statement .gInit := fun _ => ⟨rfl, rfl⟩

theorem EncodeLength.gDrawOn : EncodeLength.Statement .gDrawOn := fun _ => ⟨rfl, rfl⟩

theorem EncodeLength.gDrawOff : EncodeLength.Statement .gDrawOff := fun _ => ⟨rfl, rfl⟩

theorem EncodeLength.gDraw : EncodeLength.Statement .gDraw := fun _ => ⟨rfl, rfl⟩

theorem EncodeLength.gFill : EncodeLength.Statement .gFill := fun _ => ⟨rfl, rfl⟩

end Sys2Proof.Laws
end

