-- ==== Sys2Proof/Tests/Slice0.lean ====
section
/-! SUPPORT. The model's own tests. Expected results come from the spec: words written out from `30_encoding.md`, the
vectors of `95_test_vectors.md` (named T1, A1, J1, ...), or hand calculation where a comment says so. After them, one
witness theorem for every statement with hypotheses. -/

namespace Sys2Proof.Tests

-- One theorem at a time: elaborated side by side, the many kernel evaluations below start a thread each.
set_option Elab.async false

open Sys2Proof Sys2Proof.Machine

/-! ### Small states -/

/-- A small machine: 4 RAM cells, a 2 by 2 VRAM, capacity 8 to 12, programs of at most 64 bytes. -/
def smallConfig : Config :=
  { referenceConfig with ramSize := 4, vramW := 2, vramH := 2, stackMax := 12, maxProgram := 64 }

/-- The small machine after `load` of a program, with a stack (top first) and a capacity. -/
def machine (program : List Byte) (stack : List Value) (cap : Nat := 8) : State :=
  { State.construct smallConfig [] { coming := [], thereafter := true } with
    stream := program, stack := stack, cap := cap }

/-- The next state of an outcome; a state no test expects where there is none. -/
def nextOf : Host.Outcome State Fault Refusal → State
  | .next s => s
  | .fault _ => { machine [] [] with status := .faulted .corruptedState }
  | .refused _ => { machine [] [] with status := .faulted .corruptedState }

/-- The stack, top first, after one instruction on a stack. -/
def stackAfter (i : Instr) (stack : List Value) : List Value := (nextOf (exec i (machine [] stack))).stack

/-- The `ip` after a jump to 60 on a stack, `ip` 0 before it. -/
def ipAfter (i : Addr → Instr) (stack : List Value) : Addr := (nextOf (exec (i 60#64) (machine [] stack))).ip

/-- Two Values on the stack, a RAM cell and a VRAM cell written, `ip` 3. -/
def busyish : State :=
  { machine [] [0x4000000000000000#64, 0x3FF0000000000000#64] with
    ip := 3#64, ram := [(0, 0x4014000000000000#64)], vram := [(3, 0x3FF0000000000000#64)] }

def v0 : Value := 0x0000000000000000#64
def vNeg0 : Value := 0x8000000000000000#64
def v1 : Value := 0x3FF0000000000000#64
def vNeg1 : Value := 0xBFF0000000000000#64
def v2 : Value := 0x4000000000000000#64
def v3 : Value := 0x4008000000000000#64
def v4 : Value := 0x4010000000000000#64
def v5 : Value := 0x4014000000000000#64
def vInf : Value := 0x7FF0000000000000#64
def vNegInf : Value := 0xFFF0000000000000#64
def vNaN : Value := 0x7FF8000000000123#64
/-- 2^-1074, the least positive Value -/
def vTiny : Value := 0x0000000000000001#64
/-- the largest finite Value -/
def vMax : Value := 0x7FEFFFFFFFFFFFFF#64

/-! ### WellFormed: the one check refuses the one ill-formed shape -/

theorem test_wellFormed_refuses_pop_const : (Instr.pop (.const v1)).wellFormed = false := by decide

theorem test_wellFormed_admits_the_rest :
    (Instr.pop (.reg 0xFF#8)).wellFormed = true ∧ (Instr.pop (.ram vNaN)).wellFormed = true ∧
      (Instr.pop (.vram vInf)).wellFormed = true ∧ (Instr.push (.const v1)).wellFormed = true := by decide

/-! ### Decoding: every constructor from bytes written out from `30_encoding.md` R68 to R77 -/

theorem test_decode_push :
    decode Encoding.reference [0x01, 0x00, 0x00, 0x00, 0x00, 0x00, 0x00, 0x00, 0x08, 0x40, 0xAB]
        = .ok (.push (.const v3), [0xAB]) ∧
      decode Encoding.reference [0x01, 0x01, 0x05] = .ok (.push (.reg 5), []) ∧
      decode Encoding.reference [0x01, 0x02, 0x33, 0x33, 0x33, 0x33, 0x33, 0x33, 0x07, 0x40]
        = .ok (.push (.ram 0x4007333333333333#64), []) ∧
      decode Encoding.reference [0x01, 0x03, 0x00, 0x00, 0x00, 0x00, 0x00, 0x00, 0xB0, 0x40]
        = .ok (.push (.vram 0x40B0000000000000#64), []) := ⟨rfl, rfl, rfl, rfl⟩

theorem test_decode_pop :
    decode Encoding.reference [0x02, 0x01, 0x1A] = .ok (.pop (.reg 26), []) ∧
      decode Encoding.reference [0x02, 0x02, 0x00, 0x00, 0x00, 0x00, 0x00, 0x40, 0x9F, 0x40]
        = .ok (.pop (.ram 0x409F400000000000#64), []) ∧
      decode Encoding.reference [0x02, 0x03, 0x01, 0x02, 0x03, 0x04, 0x05, 0x06, 0x07, 0x08]
        = .ok (.pop (.vram 0x0807060504030201#64), []) := ⟨rfl, rfl, rfl⟩

/-- T11, T12, T23, T24: the tag is checked before the operand bytes. -/
theorem test_decode_tags :
    decode Encoding.reference [0x01, 0x04] = .error .invalidOperand ∧
      decode Encoding.reference [0x02, 0x00, 0x00] = .error .invalidOperand ∧
      decode Encoding.reference [0x02, 0x01] = .error .outOfBounds ∧
      decode Encoding.reference [0x01] = .error .outOfBounds ∧
      decode Encoding.reference [0x01, 0x00, 0x00, 0x00] = .error .outOfBounds := ⟨rfl, rfl, rfl, rfl, rfl⟩

theorem test_decode_stack_and_arithmetic :
    decode Encoding.reference [0x03] = .ok (.dup, []) ∧ decode Encoding.reference [0x04] = .ok (.add, []) ∧
      decode Encoding.reference [0x05] = .ok (.sub, []) ∧ decode Encoding.reference [0x06] = .ok (.mul, []) ∧
      decode Encoding.reference [0x07] = .ok (.div, []) ∧ decode Encoding.reference [0x08] = .ok (.sin, []) ∧
      decode Encoding.reference [0x09] = .ok (.cos, []) ∧ decode Encoding.reference [0x0A] = .ok (.sqrt, []) ∧
      decode Encoding.reference [0x0B] = .ok (.pw2, []) ∧ decode Encoding.reference [0x0C] = .ok (.pwInv, []) ∧
      decode Encoding.reference [0x0D] = .ok (.abs, []) :=
  ⟨rfl, rfl, rfl, rfl, rfl, rfl, rfl, rfl, rfl, rfl, rfl⟩

theorem test_decode_io_and_graphics :
    decode Encoding.reference [0x0E] = .ok (.inp, []) ∧ decode Encoding.reference [0x0F] = .ok (.out, []) ∧
      decode Encoding.reference [0x10] = .ok (.outN, []) ∧ decode Encoding.reference [0x19] = .ok (.ret, []) ∧
      decode Encoding.reference [0x1A] = .ok (.halt, []) ∧ decode Encoding.reference [0x1B] = .ok (.gInit, []) ∧
      decode Encoding.reference [0x1C] = .ok (.gDrawOn, []) ∧ decode Encoding.reference [0x1D] = .ok (.gDrawOff, []) ∧
      decode Encoding.reference [0x1E] = .ok (.gDraw, []) ∧ decode Encoding.reference [0x1F] = .ok (.gFill, []) :=
  ⟨rfl, rfl, rfl, rfl, rfl, rfl, rfl, rfl, rfl, rfl⟩

theorem test_decode_addresses :
    decode Encoding.reference [0x11, 0x3C, 0x00, 0x00, 0x00, 0x00, 0x00, 0x00, 0x00] = .ok (.jmp 60#64, []) ∧
      decode Encoding.reference [0x12, 0x01, 0x02, 0x03, 0x04, 0x05, 0x06, 0x07, 0x08]
        = .ok (.ja 0x0807060504030201#64, []) ∧
      decode Encoding.reference [0x13, 0x00, 0x01, 0x00, 0x00, 0x00, 0x00, 0x00, 0x00] = .ok (.jae 256#64, []) ∧
      decode Encoding.reference [0x14, 0x31, 0x00, 0x00, 0x00, 0x00, 0x00, 0x00, 0x00] = .ok (.jb 49#64, []) ∧
      decode Encoding.reference [0x15, 0x01, 0x00, 0x00, 0x00, 0x00, 0x00, 0x00, 0x00] = .ok (.jbe 1#64, []) ∧
      decode Encoding.reference [0x16, 0xFF, 0xFF, 0xFF, 0xFF, 0xFF, 0xFF, 0xFF, 0xFF]
        = .ok (.je 0xFFFFFFFFFFFFFFFF#64, []) ∧
      decode Encoding.reference [0x17, 0x00, 0x00, 0x00, 0x00, 0x00, 0x00, 0x00, 0x80]
        = .ok (.jne 0x8000000000000000#64, []) ∧
      decode Encoding.reference [0x18, 0x15, 0x00, 0x00, 0x00, 0x00, 0x00, 0x00, 0x00] = .ok (.call 21#64, []) :=
  ⟨rfl, rfl, rfl, rfl, rfl, rfl, rfl, rfl⟩

/-- The opcode table's numbering: `02 01 05` has its first byte in bits 7..0. -/
theorem test_decodeTableWord :
    decodeTableWord 24 0x050102 = some (.pop (.reg 5)) ∧ decodeTableWord 8 0x1F = some .gFill ∧
      decodeTableWord 8 0x01 = some (.push (.const v0)) ∧ decodeTableWord 8 0x02 = none ∧
      decodeTableWord 8 0x20 = none := ⟨rfl, rfl, rfl, rfl, rfl⟩

/-- A placed word is what the very next step runs, from reset too. -/
theorem test_withFetchWord :
    (nextOf (step (State.reset.withFetchWord 8 0x1A))).status = .halted ∧
      (nextOf (step (State.reset.withFetchWord 80 0x40080000000000000001))).stack = [v3] := ⟨rfl, rfl⟩

/-! ### Stack transfer (95_test_vectors.md, 3.1) -/

/-- T1, T2. -/
theorem test_push_const :
    stackAfter (.push (.const v3)) [] = [v3] ∧ stackAfter (.push (.const vNeg0)) [] = [vNeg0] := by decide +kernel

/-- T6 with a RAM cell 0 of 6.0: -0.5 truncates to 0; T7, T9: -1 and NaN are no index. -/
theorem test_push_ram :
    (nextOf (exec (.push (.ram 0xBFE0000000000000#64)) { machine [] [] with ram := [(0, v5)] })).stack = [v5] ∧
      (nextOf (exec (.push (.ram vNeg1)) (machine [] []))).status = .faulted .outOfBounds ∧
      (nextOf (exec (.push (.ram vNaN)) (machine [] []))).status = .faulted .outOfBounds := by decide +kernel

/-- T15 and T17: the pop shrinks 8 to 6. -/
theorem test_pop_stores :
    (nextOf (exec (.pop (.ram v3)) (machine [] [v5]))).ram = [(3, v5)] ∧
      (nextOf (exec (.pop (.ram v3)) (machine [] [v5]))).cap = 6 ∧
      (nextOf (exec (.pop (.reg 0)) (machine [] [v5, v4]))).regs[0] = v5 ∧
      (nextOf (exec (.pop (.reg 0)) (machine [] [v5, v4]))).stack = [v4] := by decide +kernel

/-- T13, T14: the depth before the index, the index before the pop. -/
theorem test_pop_faults :
    (nextOf (exec (.pop (.reg 26)) (machine [] []))).status = .faulted .underflow ∧
      (nextOf (exec (.pop (.reg 26)) (machine [] [v1]))).status = .faulted .outOfBounds ∧
      (nextOf (exec (.pop (.reg 26)) (machine [] [v1]))).stack = [v1] := by decide +kernel

/-- T18, T20. -/
theorem test_dup : stackAfter .dup [v2] = [v2, v2] ∧ stackAfter .dup [vNaN] = [vNaN, vNaN] := by decide +kernel

/-! ### Arithmetic (95_test_vectors.md, 3.2). The stack is written top first. -/

/-- A1 (with its capacity), A3, A4, A5. -/
theorem test_add :
    stackAfter .add [v4, v3] = [0x401C000000000000#64] ∧ (nextOf (exec .add (machine [] [v4, v3]))).cap = 4 ∧
      stackAfter .add [vNeg0, vNeg0] = [vNeg0] ∧ stackAfter .add [vNeg0, v0] = [v0] ∧
      stackAfter .add [0x3FC999999999999A#64, 0x3FB999999999999A#64] = [0x3FD3333333333334#64] := by decide +kernel

/-- A2: infinities of two signs give a NaN, whichever. -/
theorem test_add_nan : ∀ nan : Value, fadd nan vInf vNegInf = nan := fun _ => rfl

/-- A7, A8, A9. -/
theorem test_sub :
    stackAfter .sub [v3, v5] = [v2] ∧ stackAfter .sub [v5, v3] = [0xC000000000000000#64] ∧
      stackAfter .sub [v5, v5] = [v0] := by decide +kernel

/-- A10, A11, A13. -/
theorem test_mul :
    stackAfter .mul [0x401C000000000000#64, 0x4018000000000000#64] = [0x4045000000000000#64] ∧
      stackAfter .mul [0x4024000000000000#64, 0x7FE1CCF385EBC8A0#64] = [vInf] ∧
      stackAfter .mul [v5, vNeg0] = [vNeg0] := by decide +kernel

/-- A14 to A17, A20. -/
theorem test_div :
    stackAfter .div [v4, v1] = [0x3FD0000000000000#64] ∧ stackAfter .div [v0, v1] = [vInf] ∧
      stackAfter .div [vNeg0, v1] = [vNegInf] ∧ stackAfter .div [v0, vNeg1] = [vNegInf] ∧
      stackAfter .div [vInf, v5] = [v0] := by decide +kernel

/-- A39, A41: the host's own functions, where they give a number. -/
theorem test_sin_cos (nan : Value) (h1 : isNaN (Config.sin v0) = false) (h2 : isNaN (Config.cos v0) = false) :
    fsin nan v0 = Config.sin v0 ∧ fcos nan v0 = Config.cos v0 := by
  have hc : classify v0 = .fin false 0 := rfl
  simp [fsin, fcos, transcendental, hc, h1, h2]

/-- A40: at an infinity, a NaN. -/
theorem test_sin_inf : ∀ nan : Value, fsin nan vInf = nan ∧ fcos nan vNaN = nan := fun _ => ⟨rfl, rfl⟩

/-- A22, A23, A25, A26. -/
theorem test_sqrt :
    stackAfter .sqrt [0x4022000000000000#64] = [v3] ∧ stackAfter .sqrt [vNeg0] = [vNeg0] ∧
      stackAfter .sqrt [vInf] = [vInf] ∧ stackAfter .sqrt [v2] = [0x3FF6A09E667F3BCD#64] := by decide +kernel

/-- A27, A28. -/
theorem test_pw2 :
    stackAfter .pw2 [0xC008000000000000#64] = [0x4022000000000000#64] ∧ stackAfter .pw2 [vNeg0] = [v0] := by
  decide +kernel

/-- A30 to A34. -/
theorem test_pwInv :
    stackAfter .pwInv [v4] = [0x3FD0000000000000#64] ∧ stackAfter .pwInv [v0] = [vInf] ∧
      stackAfter .pwInv [vNeg0] = [vNegInf] ∧ stackAfter .pwInv [vNegInf] = [vNeg0] ∧
      stackAfter .pwInv [v3] = [0x3FD5555555555555#64] := by decide +kernel

/-- A36, A38. -/
theorem test_abs :
    stackAfter .abs [vNeg0] = [v0] ∧ stackAfter .abs [0xFFF8000000000001#64] = [0x7FF8000000000001#64] := by
  decide +kernel

/-- Subnormals are kept and ties go to the even one: by hand from `00_scope.md` R11, 2^-1074 times 1/2 lies halfway
between 0 and 2^-1074, and 3 * 2^-1074 times 1/2 halfway between 1 and 2 units. -/
theorem test_subnormal_ties :
    stackAfter .mul [0x3FE0000000000000#64, vTiny] = [v0] ∧
      stackAfter .mul [0x3FE0000000000000#64, 0x0000000000000003#64] = [0x0000000000000002#64] := by decide +kernel

/-! ### Input and output (95_test_vectors.md, 3.3) -/

/-- I1, I2. -/
theorem test_in :
    (nextOf (exec .inp { machine [] [] with input := [.value v2] })).stack = [v2] ∧
      (nextOf (exec .inp { machine [] [] with input := [.fail, .fail] })).status = .faulted .inputFailed ∧
      (nextOf (exec .inp { machine [] [] with input := [.fail, .fail] })).input = [.fail] := by decide +kernel

/-- I4: no answer, no new state but the pending read. -/
theorem test_in_holds : exec .inp (machine [] [v1]) = .next { machine [] [v1] with inputPending := true } := rfl

/-- I6, I7. -/
theorem test_out :
    (nextOf (exec .out (machine [] [v2, v1]))).events = [.out v2] ∧ stackAfter .out [v2, v1] = [v1] ∧
      (nextOf (exec .out (machine [] []))).events = [] ∧
      (nextOf (exec .out (machine [] []))).status = .faulted .underflow := by decide +kernel

/-- I8. -/
theorem test_out_n : (nextOf (exec .outN (machine [] []))).events = [.newline] := by decide +kernel

/-! ### Control transfer (95_test_vectors.md, 3.4) -/

/-- J1. -/
theorem test_jmp : ipAfter .jmp [v1] = 60#64 := by decide +kernel

/-- J2, J3, J4, J5. -/
theorem test_ja :
    ipAfter .ja [v5, v3] = 60#64 ∧ ipAfter .ja [v3, v5] = 9#64 ∧ ipAfter .ja [v4, v4] = 9#64 ∧
      ipAfter .ja [vNaN, v1] = 9#64 := by decide +kernel

/-- J6, J7, J8. -/
theorem test_jae :
    ipAfter .jae [v4, v4] = 60#64 ∧ ipAfter .jae [v0, vNeg0] = 60#64 ∧ ipAfter .jae [v3, v5] = 9#64 := by
  decide +kernel

/-- J9 to J12. -/
theorem test_jb :
    ipAfter .jb [v3, v5] = 60#64 ∧ ipAfter .jb [v5, v3] = 9#64 ∧ ipAfter .jb [v4, v4] = 9#64 ∧
      ipAfter .jb [v1, vNaN] = 9#64 := by decide +kernel

/-- J13, J14, J15. -/
theorem test_jbe :
    ipAfter .jbe [v3, v5] = 60#64 ∧ ipAfter .jbe [v4, v4] = 60#64 ∧ ipAfter .jbe [v5, v3] = 9#64 := by decide +kernel

/-- J16 to J20: 2^-30 is nearer than EPSILON, 2^-29 is not. -/
theorem test_je :
    ipAfter .je [v1, v1] = 60#64 ∧ ipAfter .je [v2, v1] = 9#64 ∧
      ipAfter .je [0x3FF0000000400000#64, v1] = 60#64 ∧ ipAfter .je [0x3FF0000000800000#64, v1] = 9#64 ∧
      ipAfter .je [vNeg0, v0] = 60#64 := by decide +kernel

/-- J21 to J25, with the drawn NaN any NaN. -/
theorem test_jne :
    condNear vNaN referenceEpsilon vInf vInf = false ∧ condNotNear vNaN referenceEpsilon vInf vInf = true ∧
      condNear vNaN referenceEpsilon vNaN vNaN = false ∧ condNotNear vNaN referenceEpsilon v1 vNaN = true ∧
      ipAfter .jne [v2, v1] = 60#64 := by decide +kernel

/-- J27: the `call` at 10 pushes 19.0. -/
theorem test_call :
    (nextOf (exec (.call 21#64) { machine [] [v5] with ip := 10#64 })).stack = [0x4033000000000000#64, v5] ∧
      (nextOf (exec (.call 21#64) { machine [] [v5] with ip := 10#64 })).ip = 21#64 := by decide +kernel

/-- J28, J31, J32, and J33 at 2^64. -/
theorem test_ret :
    (nextOf (exec .ret (machine [] [0x4033000000000000#64, v5]))).ip = 19#64 ∧
      (nextOf (exec .ret (machine [] [0xBFE0000000000000#64]))).ip = 0#64 ∧
      (nextOf (exec .ret (machine [] [vNeg1]))).status = .faulted .outOfBounds ∧
      (nextOf (exec .ret (machine [] [0x43F0000000000000#64]))).status = .faulted .outOfBounds := by decide +kernel

/-- J35 and E5. -/
theorem test_halt :
    (nextOf (step (machine [0x1A#8] [v1]))).status = .halted ∧ (nextOf (step (machine [0x1A#8] [v1]))).ip = 1#64 ∧
      (nextOf (step (machine [] []))).status = .halted := by decide +kernel

/-! ### Graphics (95_test_vectors.md, 3.5) -/

/-- G1. -/
theorem test_g_init : (nextOf (exec .gInit (machine [] []))).events = [.displayInit 2 2] := by decide +kernel

/-- G4, G6: the Render goes by `gfx` at the start of the step. -/
theorem test_g_draw_on_off :
    (nextOf (step (machine [0x1C#8] []))).gfx = true ∧ (nextOf (step (machine [0x1C#8] []))).events = [] ∧
      (nextOf (step { machine [0x1D#8] [] with gfx := true })).gfx = false ∧
      (nextOf (step { machine [0x1D#8] [] with gfx := true })).events = [.render [v0, v0, v0, v0]] := by decide +kernel

/-- G8. -/
theorem test_g_draw :
    (nextOf (step { machine [0x1E#8] [] with gfx := true, vram := [(3, v1)] })).events
      = [.draw [v0, v0, v0, v1], .render [v0, v0, v0, v1]] := by decide +kernel

/-- G2, and P5 step 6. -/
theorem test_g_fill :
    (nextOf (exec .gFill (machine [] [v5]))).vramCells = [v5, v5, v5, v5] ∧
      (nextOf (exec (.pop (.vram v3)) { machine [] [v1] with vram := Memory.fill 4 v5 })).vramCells
        = [v5, v5, v5, v1] := by decide +kernel

/-! ### Faults and capacity (95_test_vectors.md, E4, 3.6) -/

/-- E4, J37's second step. -/
theorem test_fetch_faults :
    (nextOf (step (machine [0x00#8] []))).status = .faulted .invalidOpcode ∧
      (nextOf (step (machine [0x20#8] []))).status = .faulted .invalidOpcode ∧
      (nextOf (step { machine [0x11#8] [] with ip := 2#64 })).status = .faulted .outOfBounds := by decide +kernel

/-- K1 (growth 8 to 12), K9 (at the largest), K11 (a refused shrink, no event). -/
theorem test_capacity :
    (nextOf (exec (.push (.const v1)) (machine [] (List.replicate 8 v1)))).cap = 12 ∧
      (nextOf (exec (.push (.const v1)) (machine [] (List.replicate 12 v1) 12))).status = .faulted .reallocFailed ∧
      (nextOf (exec .out { machine [] [v3, v2, v1] with alloc := { coming := [false], thereafter := true } })).status
        = .faulted .reallocFailed ∧
      (nextOf (exec .out { machine [] [v3, v2, v1] with alloc := { coming := [false], thereafter := true } })).events
        = [] := by decide +kernel

/-! ### The host's operations (`60_exceptions.md` R149, R153; `20_memory.md` R59) -/

/-- `dump` shows the stack bottom first, every cell, and the state beside them. -/
theorem test_dump :
    (dump busyish).stack = [v1, v2] ∧ (dump busyish).cap = 8 ∧ (dump busyish).regs = List.replicate 26 v0 ∧
      (dump busyish).ram = [v5, v0, v0, v0] ∧ (dump busyish).vram = [v0, v0, v0, v1] ∧ (dump busyish).ip = 3#64 := by
  decide +kernel

/-- K4's three pops: 8, 6, 4, 3. -/
theorem test_clear :
    (match (machine [] [v3, v2, v1]).container.clear with
      | .ok c => c.values.isEmpty && c.cap == 3
      | .error _ => false) = true := by decide +kernel

/-! ### Witnesses

For every statement with hypotheses, a concrete state and operands that meet all of them, each clause at a boundary of
its range. Where a clause is about every state with a property, the witness is that property of one state. -/

theorem witness_reference_injective : EncodingInjective Encoding.reference := by decide

theorem witness_DecodeOfEncode :
    EncodingInjective Encoding.reference ∧ (Instr.push (.const vNaN)).wellFormed = true ∧
      (Instr.pop (.reg 0xFF#8)).wellFormed = true ∧ (Instr.jmp 0xFFFFFFFFFFFFFFFF#64).wellFormed = true := by decide

theorem witness_DecodedBytesAreTheEncoding :
    decode Encoding.reference [0x02, 0x01, 0xFF, 0x1A] = .ok (.pop (.reg 0xFF#8), [0x1A]) := rfl

theorem unassigned (b : Byte) (h : b = 0x00#8 ∨ b = 0x20#8 ∨ b = 0xFF#8) (m : Mnemonic) :
    OpcodeMap.reference.code m ≠ b := by
  rcases h with rfl | rfl | rfl <;> cases m <;> decide

/-- At the three boundaries: 0x00, 0x20 and 0xFF. -/
theorem witness_UnassignedOpcodeFaults :
    ((machine [0x00#8] []).status = .running ∧ (machine [0x00#8] []).stream[0]? = some 0x00#8 ∧
      ∀ m, (machine [0x00#8] []).cfg.encoding.opcodes.code m ≠ 0x00#8) ∧
    ((machine [0x20#8] []).stream[0]? = some 0x20#8 ∧ ∀ m, OpcodeMap.reference.code m ≠ 0x20#8) ∧
    ((machine [0xFF#8] []).stream[0]? = some 0xFF#8 ∧ ∀ m, OpcodeMap.reference.code m ≠ 0xFF#8) :=
  ⟨⟨rfl, rfl, unassigned _ (by decide)⟩, ⟨rfl, unassigned _ (by decide)⟩, rfl, unassigned _ (by decide)⟩

theorem unassigned_tag (b : Byte) (h : b = 0x04#8 ∨ b = 0xFF#8) (g : Tag) : TagMap.reference.code g ≠ b := by
  rcases h with rfl | rfl <;> cases g <;> decide

/-- The tags 4 and 0xFF for `push` and `pop`, the CONST tag for `pop`, and an operand that `pop` admits. -/
theorem witness_TagNotAdmittedFaults :
    (∀ v, Operand.reg 0xFF#8 ≠ .const v) ∧
    ((machine [0x01, 0x04] []).status = .running ∧ EncodingInjective (machine [0x01, 0x04] []).cfg.encoding ∧
      (machine [0x01, 0x04] []).stream[0]? = some OpcodeMap.reference.push ∧
      (machine [0x01, 0x04] []).stream[1]? = some 0x04#8 ∧ ∀ g, TagMap.reference.code g ≠ 0x04#8) ∧
    ((machine [0x02, 0xFF] []).stream[0]? = some OpcodeMap.reference.pop ∧
      (machine [0x02, 0xFF] []).stream[1]? = some 0xFF#8 ∧ ∀ g, TagMap.reference.code g ≠ 0xFF#8) ∧
    ((machine [0x02, 0x00] []).stream[0]? = some OpcodeMap.reference.pop ∧
      (machine [0x02, 0x00] []).stream[1]? = some TagMap.reference.const) :=
  ⟨by simp, ⟨rfl, by decide, rfl, rfl, unassigned_tag _ (by decide)⟩, ⟨rfl, rfl, unassigned_tag _ (by decide)⟩, rfl, rfl⟩

/-- Cut after its first byte, and before its last. -/
theorem witness_TruncatedInstructionFaults :
    (machine [0x11] []).status = .running ∧ EncodingInjective (machine [0x11] []).cfg.encoding ∧
      (Instr.jmp 9#64).wellFormed = true ∧ 1 < (encode Encoding.reference (.jmp 9#64)).length ∧
      (machine [0x11] []).stream.drop 0 = (encode Encoding.reference (.jmp 9#64)).take 1 ∧
      8 < (encode Encoding.reference (.jmp 9#64)).length ∧
      (machine [0x11, 9, 0, 0, 0, 0, 0, 0] []).stream.drop 0 = (encode Encoding.reference (.jmp 9#64)).take 8 := by
  decide

/-- A running machine at `g_draw_off` with graphics active, and the state that `exec` answers. -/
theorem witness_StepRunsDecodedInstruction :
    let s : State := { machine [0x1D#8] [] with gfx := true }
    s.status = .running ∧ s.ip.toNat < s.stream.length ∧
      decode s.cfg.encoding (s.stream.drop s.ip.toNat) = .ok (.gDrawOff, []) ∧
      exec .gDrawOff s = .next (nextOf (exec .gDrawOff s)) := ⟨rfl, by decide, rfl, rfl⟩

theorem witness_TerminalStepChangesNothing :
    ({ machine [0x1A#8] [v1] with status := .halted } : State).status = .halted ∧
      ({ machine [0x1A#8] [v1] with status := .faulted .underflow } : State).status = .faulted .underflow := ⟨rfl, rfl⟩

/-- `ip = len` with no byte and with one; `ip` one past `len`. -/
theorem witness_FetchAtAndPastTheEnd :
    ((machine [] []).status = .running ∧ (machine [] []).ip.toNat = (machine [] []).stream.length) ∧
    (let s : State := { machine [0x1A#8] [] with ip := 1#64, gfx := true };
      s.status = .running ∧ s.ip.toNat = s.stream.length) ∧
    (let s : State := { machine [0x1A#8] [] with ip := 2#64 };
      s.status = .running ∧ s.stream.length < s.ip.toNat) := by decide

theorem witness_RenderEndsTheStep :
    let s : State := { machine [0x1E#8] [] with gfx := true }
    s.status = .running ∧ step s = .next (nextOf (step s)) ∧ (nextOf (step s)).inputPending = false := ⟨rfl, rfl, rfl⟩

/-- A fault after two answers of the host: the Value, and the allocator's refusal to grow. -/
theorem witness_FaultRollsBack :
    let s : State := { machine [0x0E#8] (List.replicate 8 v1) with
      input := [.value v1], alloc := { coming := [false], thereafter := true } }
    s.status = .running ∧ step s = .next (nextOf (step s)) ∧ (nextOf (step s)).status = .faulted .reallocFailed ∧
      (nextOf (step s)).input = [] ∧ (nextOf (step s)).alloc.coming = [] := ⟨rfl, rfl, rfl, rfl, rfl⟩

theorem witness_StreamIsNeverWritten :
    step (machine [0x01, 0x01, 0x19] []) = .next (nextOf (step (machine [0x01, 0x01, 0x19] []))) := rfl

/-- For each field, an instruction that changes it. -/
theorem witness_OnlyNamedInstructionsWrite :
    (exec (.pop (.reg 25)) (machine [] [v1]) = .next (nextOf (exec (.pop (.reg 25)) (machine [] [v1]))) ∧
      (nextOf (exec (.pop (.reg 25)) (machine [] [v1]))).regs ≠ (machine [] [v1]).regs) ∧
    (nextOf (exec (.pop (.ram v0)) (machine [] [v1]))).ram ≠ (machine [] [v1]).ram ∧
    (nextOf (exec (.pop (.vram v3)) (machine [] [v1]))).vram ≠ (machine [] [v1]).vram ∧
    (nextOf (exec .gFill (machine [] [v1]))).vram ≠ (machine [] [v1]).vram ∧
    (nextOf (exec .gDrawOn (machine [] []))).gfx ≠ (machine [] []).gfx ∧
    (nextOf (exec .outN (machine [] []))).events ≠ (machine [] []).events ∧
    (nextOf (exec .inp { machine [] [] with input := [.value v1] })).input ≠ [.value v1] := by
  refine ⟨⟨rfl, ?_⟩, ?_⟩ <;> decide +kernel

/-- A fault, a halt, and an instruction that goes on. -/
theorem witness_IpAfterAStep :
    ((machine [0x03#8] []).status = .running ∧ (machine [0x03#8] []).ip.toNat < (machine [0x03#8] []).stream.length ∧
      decode (machine [0x03#8] []).cfg.encoding ((machine [0x03#8] []).stream.drop 0) = .ok (.dup, []) ∧
      step (machine [0x03#8] []) = .next (nextOf (step (machine [0x03#8] []))) ∧
      (nextOf (step (machine [0x03#8] []))).status = .faulted .underflow) ∧
    (decode (machine [0x1A#8] []).cfg.encoding ((machine [0x1A#8] []).stream.drop 0) = .ok (.halt, []) ∧
      step (machine [0x1A#8] []) = .next (nextOf (step (machine [0x1A#8] []))) ∧
      (nextOf (step (machine [0x1A#8] []))).status = .halted) ∧
    (decode (machine [0x10#8] []).cfg.encoding ((machine [0x10#8] []).stream.drop 0) = .ok (.outN, []) ∧
      step (machine [0x10#8] []) = .next (nextOf (step (machine [0x10#8] []))) ∧
      (nextOf (step (machine [0x10#8] []))).status = .running ∧
      (nextOf (step (machine [0x10#8] []))).inputPending = false ∧
      Instr.outN.mnemonic ∉ [Mnemonic.jmp, .ja, .jae, .jb, .jbe, .je, .jne, .call, .ret]) :=
  ⟨⟨rfl, by decide, rfl, rfl, rfl⟩, ⟨rfl, rfl, rfl⟩, rfl, rfl, rfl, rfl, by decide⟩

/-- A state of the invariant that is not the reset state: a loaded program, a full stack, RAM and VRAM written. -/
def busy : State :=
  { machine [0x11, 0x3C, 0, 0, 0, 0, 0, 0, 0] (List.replicate 12 v1) 12 with
    ram := [(0, v1), (3, vNaN)], vram := [(3, v5)], gfx := true }

theorem witness_IpNeverWraps :
    Inv busy ∧ busy.ip.toNat < busy.stream.length ∧
      decode busy.cfg.encoding (busy.stream.drop busy.ip.toNat) = .ok (.jmp 60#64, []) :=
  ⟨by decide +kernel, by decide, rfl⟩

theorem witness_CorruptedStateNeverOccurs :
    (machine [0x02, 0x00] []).status = .running ∧
      step (machine [0x02, 0x00] []) = .next (nextOf (step (machine [0x02, 0x00] []))) := ⟨rfl, rfl⟩

/-- Depth 0 where one Value is needed, depth 0 and 1 where two are, none where none is, and exactly the depth needed. -/
theorem witness_DepthCheckIsUniform :
    ((Instr.pop (.reg 26)).wellFormed = true ∧ (machine [] []).stack = [] ∧
      (Instr.pop (.reg 26)).mnemonic ∈
        [Mnemonic.pop, .dup, .sin, .cos, .sqrt, .pw2, .pwInv, .abs, .out, .ret, .gFill]) ∧
    ((machine [] [v1]).stack.length < 2 ∧ (machine [] []).stack.length < 2 ∧
      Instr.div.mnemonic ∈ [Mnemonic.add, .sub, .mul, .div, .ja, .jae, .jb, .jbe, .je, .jne]) ∧
    ((machine [] []).status = .running ∧
      (Instr.call 0#64).mnemonic ∈ [Mnemonic.push, .inp, .outN, .jmp, .call, .halt, .gInit, .gDrawOn, .gDrawOff, .gDraw] ∧
      exec (.call 0#64) (machine [] []) = .next (nextOf (exec (.call 0#64) (machine [] [])))) ∧
    ((machine [] [v1]).status = .running ∧ (machine [] [v1]).stack ≠ [] ∧
      Instr.gFill.mnemonic ∈ [Mnemonic.pop, .dup, .sin, .cos, .sqrt, .pw2, .pwInv, .abs, .out, .ret, .gFill] ∧
      exec .gFill (machine [] [v1]) = .next (nextOf (exec .gFill (machine [] [v1])))) ∧
    (2 ≤ (machine [] [v1, v2]).stack.length ∧
      (Instr.ja 60#64).mnemonic ∈ [Mnemonic.add, .sub, .mul, .div, .ja, .jae, .jb, .jbe, .je, .jne] ∧
      exec (.ja 60#64) (machine [] [v1, v2]) = .next (nextOf (exec (.ja 60#64) (machine [] [v1, v2])))) :=
  ⟨by decide, by decide, ⟨rfl, by decide, rfl⟩, ⟨rfl, by decide, by decide, rfl⟩, by decide, by decide, rfl⟩

theorem witness_StepKeepsInv : Inv busy ∧ step busy = .next (nextOf (step busy)) := ⟨by decide +kernel, rfl⟩

/-- A program of exactly MAX_PROGRAM bytes, and one byte more. -/
theorem witness_LoadInstallsTheProgram :
    (List.replicate 64 0x1A#8).length ≤ smallConfig.maxProgram ∧
      smallConfig.maxProgram < (List.replicate 65 0x1A#8).length := by decide

theorem witness_PopPushCyclesKeepCap :
    (machine [] (List.replicate 8 v1)).stack.length = (machine [] (List.replicate 8 v1)).cap ∧
      1 ≤ (machine [] (List.replicate 8 v1)).cap ∧ (machine [] [v1] 1).stack.length = (machine [] [v1] 1).cap := by decide

/-- What a handler's part leaves, for the witness below. -/
def stateOf {α : Type} : Res α → State
  | .ok _ s => s
  | .raise _ s => s
  | .wait => machine [] []

/-- E6: three pushes on a stack that is full before the last, then two pops and three. -/
theorem witness_StackIsLifo :
    let s := machine [] [v5, v5] 4
    let t := stateOf (pushAll [v1, v2, v3] s)
    s.stack.length ≤ s.cap ∧ 1 ≤ s.cap ∧ s.cap ≤ s.cfg.stackMax ∧ pushAll [v1, v2, v3] s = .ok () t ∧
      popMany 2 t = .ok [v3, v2] (stateOf (popMany 2 t)) ∧ popMany 3 t = .ok [v3, v2, v1] (stateOf (popMany 3 t)) :=
  ⟨by decide, by decide, by decide, rfl, rfl, rfl⟩

/-- A push with room and one that grows; the first and the last register, RAM cell and VRAM cell. -/
theorem witness_PushPushesItsSource :
    PushGoesThrough (machine [] []) ∧ PushGoesThrough (machine [] (List.replicate 8 v1)) ∧
      (0#8).toNat < 26 ∧ (25#8).toNat < 26 ∧ toIndex v0 (machine [] []).cfg.ramSize = some 0 ∧
      toIndex 0x400FFFFFFFFFFFFF#64 (machine [] []).cfg.ramSize = some 3 ∧
      toIndex vNeg0 ((machine [] []).cfg.vramW * (machine [] []).cfg.vramH) = some 0 ∧
      toIndex v3 ((machine [] []).cfg.vramW * (machine [] []).cfg.vramH) = some 3 := by decide +kernel

/-- A pop that keeps the storage and one that shrinks it; regions in canonical form. -/
theorem witness_PopStoresTheTop :
    (machine [] [v1] 2).stack = v1 :: [] ∧ PopGoesThrough (machine [] [v1] 2) ∧
      PopGoesThrough (machine [] [v1]) ∧ (25#8).toNat < 26 ∧ busy.ram.wf ∧ busy.vram.wf ∧
      toIndex v3 busy.cfg.ramSize = some 3 ∧ toIndex v3 (busy.cfg.vramW * busy.cfg.vramH) = some 3 ∧
      PopGoesThrough busy ∧ busy.stack = v1 :: List.replicate 11 v1 := by decide +kernel

/-- The first index that is out of range, a negative one, a NaN, and a stack that is not empty. -/
theorem witness_OperandOutOfRangeFaults :
    26 ≤ (26#8).toNat ∧ 26 ≤ (255#8).toNat ∧ toIndex v4 (machine [] [v1]).cfg.ramSize = none ∧
      toIndex vNeg1 (machine [] [v1]).cfg.ramSize = none ∧ toIndex vNaN (machine [] [v1]).cfg.ramSize = none ∧
      toIndex v4 ((machine [] [v1]).cfg.vramW * (machine [] [v1]).cfg.vramH) = none ∧ (machine [] [v1]).stack ≠ [] := by
  decide +kernel

theorem witness_DupCopiesTheTop :
    ((machine [] [vNaN]).stack = vNaN :: [] ∧ PushGoesThrough (machine [] [vNaN]) ∧
      PushGoesThrough (machine [] (List.replicate 8 v1))) ∧ (machine [] []).stack = [] ∧
    ((machine [] (List.replicate 12 v1) 12).stack ≠ [] ∧ ¬ PushGoesThrough (machine [] (List.replicate 12 v1) 12)) := by
  decide +kernel

/-- A full storage at its largest (K9), a growth refused (K10), a shrink refused (K11), and a second shrink refused; the
operands of `witness_PushPushesItsSource` and `witness_PopStoresTheTop`, and a return address. -/
theorem witness_RefusedAllocationFaults :
    (let s : State := { machine [] (List.replicate 12 v1) 12 with input := [.value v2] };
      ¬ PushGoesThrough s ∧ s.stack ≠ [] ∧ s.input = .value v2 :: [] ∧ toIndex v3 s.cfg.ramSize = some 3 ∧
        toIndex v3 (s.cfg.vramW * s.cfg.vramH) = some 3 ∧ (25#8).toNat < 26) ∧
    (let s : State := { machine [] (List.replicate 8 v1) with alloc := { coming := [], thereafter := false } };
      ¬ PushGoesThrough s ∧ s.stack ≠ []) ∧
    (let s : State := { machine [] [v3, v2, v1] with alloc := { coming := [false], thereafter := true } };
      s.stack ≠ [] ∧ ¬ PopGoesThrough s ∧ s.stack.head? = some v3 ∧ toAddress v3 = some 3#64 ∧ 2 ≤ s.stack.length) ∧
    (let s : State := { machine [] [v2, v1] with alloc := { coming := [true, false], thereafter := true } };
      2 ≤ s.stack.length ∧ PopGoesThrough s ∧ ¬ PopGoesThrough (popped s) ∧
        Instr.sub.mnemonic ∈ [Mnemonic.add, .sub, .mul, .div, .ja, .jae, .jb, .jbe, .je, .jne]) := by decide +kernel

/-- A1's two shrinks, and a stack of two with no shrink. -/
theorem witness_BinaryInstructionsComplete :
    (let s := machine [] [v4, v3];
      s.stack = v4 :: v3 :: [] ∧ s.stack.length ≤ s.cap ∧ PopGoesThrough s ∧ PopGoesThrough (popped s)) ∧
    (let s := machine [] [v4, v3] 2;
      s.stack.length ≤ s.cap ∧ PopGoesThrough s ∧ PopGoesThrough (popped s)) := by decide +kernel

theorem witness_UnaryInstructionsComplete : (machine [] [vNeg1]).stack = vNeg1 :: [] := rfl

theorem witness_AbsClearsTheSignBit :
    (machine [] [0xFFF8000000000001#64]).stack = 0xFFF8000000000001#64 :: [] ∧ (machine [] []).stack = [] := ⟨rfl, rfl⟩

theorem witness_SinAndCosAreTheConfiguredFunctions :
    IsFinite v0 ∧ IsFinite vMax ∧ ¬ IsFinite vInf ∧ ¬ IsFinite vNaN := by decide +kernel

/-- The largest finite Values, whose sum overflows, and the least positive one. -/
theorem witness_ArithmeticIsCorrectlyRounded :
    IsFinite vMax ∧ IsFinite vTiny ∧ IsFinite vNeg0 ∧ signedUnits vTiny ≠ 0 ∧ signedUnits vMax ≠ 0 ∧
      overflowUnits ≤ (signedUnits vMax + signedUnits vMax).natAbs := by decide +kernel

theorem witness_SquareRootIsCorrectlyRounded :
    IsFinite vTiny ∧ 0 < signedUnits vTiny ∧ IsFinite vMax ∧ 0 < signedUnits vMax ∧ IsFinite v0 ∧ 0 ≤ signedUnits v0 ∧
      signedUnits v0 < signedUnits (fsqrt vNaN vTiny) ∧ signedUnits (fsqrt vNaN vTiny) < signedUnits vMax := by
  decide +kernel

/-- Each clause: a NaN, two infinities, finite Values, zeros of both signs, a negative number. -/
theorem witness_SpecialValuesOfArithmetic :
    isNaN vNaN = true ∧ IsInfinite vInf ∧ IsInfinite vNegInf ∧ signBit vInf ≠ signBit vNegInf ∧
      signBit vInf = signBit vInf ∧ isNaN vInf = false ∧ signBit vNegInf = true ∧ IsFinite vMax ∧ IsFinite vTiny ∧ magnitude v0 = 0 ∧ magnitude vNeg0 = 0 ∧
      IsFinite v0 ∧ magnitude vTiny ≠ 0 ∧ IsFinite vNeg1 ∧ magnitude vNeg1 ≠ 0 ∧ signBit vNeg1 = true ∧
      signBit vInf = false := by decide +kernel

theorem witness_EveryNaNCanBeDrawn : isNaN 0xFFFFFFFFFFFFFFFF#64 = true ∧ isNaN 0x7FF0000000000001#64 = true := by
  decide +kernel

theorem witness_ComparisonIsNumeric :
    IsFinite vNeg0 ∧ IsFinite vMax ∧ IsInfinite vInf ∧ IsInfinite vNegInf ∧ isNaN vNaN = true := by decide +kernel

/-- A NaN on either side, infinities of one sign, and both zeros. -/
theorem witness_JumpConditionsOnSpecialValues :
    isNaN vNaN = true ∧ IsInfinite vNegInf ∧ signBit vNegInf = signBit vNegInf ∧ magnitude v0 = 0 ∧
      magnitude vNeg0 = 0 ∧ flt 0#64 referenceEpsilon = true := by decide +kernel

theorem witness_JumpIgnoresTheDrawnNaN : isNaN vNaN = true ∧ isNaN 0xFFFFFFFFFFFFFFFF#64 = true := by decide +kernel

/-- -0.5, the first index and the last, and one past it. -/
theorem witness_ToIndexTruncates :
    ¬ IsFinite vInf ∧ ¬ IsFinite vNaN ∧ IsFinite 0xBFE0000000000000#64 ∧
      toIndex 0xBFE0000000000000#64 4 = some 0 ∧ toIndex 0x400FFFFFFFFFFFFF#64 4 = some 3 ∧
      toIndex v4 4 = none := by decide +kernel

/-- The largest Value below 2^64, and 2^64. -/
theorem witness_ToAddressTruncates :
    ¬ IsFinite vNegInf ∧ IsFinite 0x43EFFFFFFFFFFFFF#64 ∧
      toAddress 0x43EFFFFFFFFFFFFF#64 = some 0xFFFFFFFFFFFFF800#64 ∧ IsFinite 0x43F0000000000000#64 ∧
      toAddress 0x43F0000000000000#64 = none := by decide +kernel

/-- 0, 2^53 - 1 and 2^53. -/
theorem witness_StreamOffsetsAreExactValues :
    0 ≤ 2 ^ 53 ∧ 2 ^ 53 - 1 ≤ 2 ^ 53 ∧ valueOfNat 0 = v0 ∧ valueOfNat (2 ^ 53 - 1) = 0x433FFFFFFFFFFFFF#64 ∧
      valueOfNat (2 ^ 53) = 0x4340000000000000#64 := by decide +kernel

theorem witness_InTakesTheHostsAnswer :
    (let s : State := { machine [] [] with input := [.value vNaN] };
      s.input = .value vNaN :: [] ∧ PushGoesThrough s) ∧
    (let s : State := { machine [] (List.replicate 12 v1) 12 with input := [.value vNaN] };
      s.input = .value vNaN :: [] ∧ ¬ PushGoesThrough s) ∧
    ({ machine [] [] with input := [.fail] } : State).input = .fail :: [] := by decide +kernel

theorem witness_InHoldsUntilAnswered :
    let s : State := { machine [0x0E#8] [] with gfx := true }
    s.input = [] ∧ s.status = .running ∧ fetch s = .instr .inp ∧ step s = .next (nextOf (step s)) ∧
      (nextOf (step s)).inputPending = true := ⟨rfl, rfl, rfl, rfl, rfl⟩

theorem witness_OutEmitsTheTop :
    (machine [] [v1]).stack = v1 :: [] ∧ PopGoesThrough (machine [] [v1]) ∧ PopGoesThrough (machine [] [v1] 2) := by
  decide +kernel

theorem witness_ConditionalJumpsComplete :
    let s := machine [] [v5, v3]
    s.stack = v5 :: v3 :: [] ∧ PopGoesThrough s ∧ PopGoesThrough (popped s) := by decide +kernel

theorem witness_CallPushesTheReturnAddress :
    PushGoesThrough (machine [] []) ∧ PushGoesThrough (machine [] (List.replicate 8 v1)) := by decide +kernel

/-- J31 (-0.5) and 2^64, the first Value beyond the addresses. -/
theorem witness_RetJumpsToTheTop :
    (let s := machine [] [0xBFE0000000000000#64];
      s.stack = 0xBFE0000000000000#64 :: [] ∧ PopGoesThrough s ∧ toAddress 0xBFE0000000000000#64 = some 0#64) ∧
    ((machine [] [0x43F0000000000000#64]).stack = 0x43F0000000000000#64 :: [] ∧
      toAddress 0x43F0000000000000#64 = none) := by decide +kernel

/-- The `call` ends the program, and its push grows a full stack. -/
theorem witness_CallThenRetResumesAfterTheCall :
    let s := machine [0x18, 0, 0, 0, 0, 0, 0, 0, 0] (List.replicate 8 v1)
    Inv s ∧ s.ip.toNat + 9 ≤ s.stream.length ∧ s.stack.length < s.cfg.stackMax ∧ AllocNeverFails s.alloc := by
  decide +kernel

theorem witness_HaltHalts :
    let s : State := { machine [0x10#8, 0x1A#8] [] with ip := 1#64, gfx := true }
    s.status = .running ∧ fetch s = .instr .halt := ⟨rfl, rfl⟩

theorem witness_GraphicsInstructionsComplete :
    (machine [0x1C#8] []).status = .running ∧ fetch (machine [0x1C#8] []) = .instr .gDrawOn ∧
      fetch (machine [0x1D#8] []) = .instr .gDrawOff ∧ fetch (machine [0x1E#8] []) = .instr .gDraw ∧
      fetch (machine [0x1B#8] []) = .instr .gInit := ⟨rfl, rfl, rfl, rfl, rfl⟩

theorem witness_GFillFillsVram :
    (let s := machine [] [v5];
      s.stack = v5 :: [] ∧ PopGoesThrough s) ∧ (machine [] []).stack = [] ∧
    (let s : State := { machine [] [v5] with alloc := { coming := [], thereafter := false } };
      s.stack ≠ [] ∧ ¬ PopGoesThrough s) := by decide +kernel

/-- A program of exactly MAX_PROGRAM bytes for an admissible configuration that is not the reference one. -/
theorem witness_LoadedMachinesMeetInv :
    Admissible smallConfig ∧ (List.replicate 64 0x1A#8).length ≤ smallConfig.maxProgram ∧
      Inv (State.construct smallConfig [.fail] { coming := [false], thereafter := true }) ∧
      (∃ t, load [0x1A#8] (State.construct smallConfig [] { coming := [], thereafter := true }) = .next t) :=
  ⟨by decide +kernel, by decide, by decide +kernel, _, rfl⟩

theorem witness_RegionsThatReadAlikeAreEqual :
    Memory.wf (Memory.write [(2, v1)] 2 v0) ∧ Memory.wf [] ∧
      ∀ i, Memory.read (Memory.write [(2, v1)] 2 v0) i = Memory.read [] i :=
  ⟨by decide +kernel, by decide, fun _ => rfl⟩

/-- The capacity 8 and the capacity 1 on a stack of one Value: a push with room, and one that grows. -/
theorem witness_CapacityDecidesOnlyAllocationFailure :
    let s := machine [] [v1]
    let u := exec (.push (.const v2)) { s with cap := 1, alloc := { coming := [true], thereafter := false } }
    s.status = .running ∧ exec (.push (.const v2)) s = .next (nextOf (exec (.push (.const v2)) s)) ∧ u = .next (nextOf u) ∧
      (nextOf (exec (.push (.const v2)) s)).status ≠ .faulted .reallocFailed ∧
      (nextOf u).status ≠ .faulted .reallocFailed := ⟨rfl, rfl, rfl, by decide +kernel, by decide +kernel⟩

theorem witness_OnlyPushAndDrawReadRegions :
    let s := machine [] [v4, v3]
    let u := exec (.ja 60#64) { s with regs := Vector.replicate 26 v1, ram := [(0, v1)], vram := [(1, v2)], gfx := true }
    (∀ o, Instr.ja 60#64 ≠ .push o) ∧ Instr.ja 60#64 ≠ .gDraw ∧ exec (.ja 60#64) s = .next (nextOf (exec (.ja 60#64) s)) ∧
      u = .next (nextOf u) := ⟨by simp, by simp, rfl, rfl⟩

end Sys2Proof.Tests
end

section
/-! PROOF LAYER. The grid of magnitudes. Bits 62..0 of a Value, read as a natural number, count the Values of one sign in
rising order; `unitsOfMagnitude` says which multiple of 2^-1074 each of them stands for. It is strictly monotone, which is
what comparison (O39) and rounding (O35) rest on. -/

namespace Sys2Proof.Machine

/-- The multiple of 2^-1074 that the bits 62..0 of a finite Value stand for. -/
def unitsOfMagnitude (mag : Nat) : Nat :=
  if mag / 2 ^ 52 = 0 then mag % 2 ^ 52 else (2 ^ 52 + mag % 2 ^ 52) * 2 ^ (mag / 2 ^ 52 - 1)

theorem fracField_eq_magnitude_mod (v : Value) : fracField v = magnitude v % 2 ^ 52 := by
  unfold fracField magnitude
  omega

theorem unitsOf_eq_unitsOfMagnitude (v : Value) : unitsOf v = unitsOfMagnitude (magnitude v) := by
  rw [unitsOf, unitsOfMagnitude, fracField_eq_magnitude_mod, expField]

theorem signedUnits_eq (v : Value) : signedUnits v = signed (signBit v) (unitsOfMagnitude (magnitude v)) := by
  rw [signedUnits, unitsOf_eq_unitsOfMagnitude]

/-- `q` and `k` are a significand and the exponent of the spacing it counts: 53 significant bits, fewer only where the
spacing is one unit (subnormals). -/
def IsSignificand (k q : Nat) : Prop := q < 2 ^ 53 ∧ (k = 0 ∨ 2 ^ 52 ≤ q)

/-- The magnitude `k * 2^52 + q` stands for `q` spacings of `2^k` units; a significand that has grown to 2^53 carries into
the exponent field and still does. -/
theorem unitsOfMagnitude_of_le {k q : Nat} (hq : q ≤ 2 ^ 53) (hk : k = 0 ∨ 2 ^ 52 ≤ q) :
    unitsOfMagnitude (k * 2 ^ 52 + q) = q * 2 ^ k := by
  unfold unitsOfMagnitude
  rcases Nat.lt_or_ge q (2 ^ 52) with hsub | hnorm
  · obtain rfl : k = 0 := by omega
    rw [if_pos (by omega)]
    omega
  · rw [if_neg (by omega)]
    rcases Nat.lt_or_eq_of_le hq with hlt | rfl
    · have hexp : (k * 2 ^ 52 + q) / 2 ^ 52 - 1 = k := by omega
      have hfrac : 2 ^ 52 + (k * 2 ^ 52 + q) % 2 ^ 52 = q := by omega
      rw [hexp, hfrac]
    · have hexp : (k * 2 ^ 52 + 2 ^ 53) / 2 ^ 52 - 1 = k + 1 := by omega
      have hfrac : 2 ^ 52 + (k * 2 ^ 52 + 2 ^ 53) % 2 ^ 52 = 2 ^ 52 := by omega
      rw [hexp, hfrac]
      ring

theorem unitsOfMagnitude_significand {k q : Nat} (h : IsSignificand k q) :
    unitsOfMagnitude (k * 2 ^ 52 + q) = q * 2 ^ k :=
  unitsOfMagnitude_of_le h.1.le h.2

/-- The next magnitude stands for one spacing more. -/
theorem unitsOfMagnitude_significand_succ {k q : Nat} (h : IsSignificand k q) :
    unitsOfMagnitude (k * 2 ^ 52 + q + 1) = (q + 1) * 2 ^ k := by
  obtain ⟨hq, hk⟩ := h
  rw [Nat.add_assoc]
  exact unitsOfMagnitude_of_le (by omega) (by omega)

/-- Every magnitude has a significand and a spacing. -/
theorem exists_significand (mag : Nat) : ∃ k q, IsSignificand k q ∧ mag = k * 2 ^ 52 + q := by
  refine ⟨mag / 2 ^ 52 - 1, mag - (mag / 2 ^ 52 - 1) * 2 ^ 52, ⟨?_, ?_⟩, ?_⟩ <;> omega

theorem unitsOfMagnitude_strictMono : StrictMono unitsOfMagnitude := by
  refine strictMono_nat_of_lt_succ fun mag => ?_
  obtain ⟨k, q, h, rfl⟩ := exists_significand mag
  rw [unitsOfMagnitude_significand h, unitsOfMagnitude_significand_succ h]
  exact Nat.mul_lt_mul_of_pos_right (Nat.lt_succ_self q) (Nat.two_pow_pos k)

@[simp] theorem unitsOfMagnitude_zero : unitsOfMagnitude 0 = 0 := rfl

theorem unitsOfMagnitude_eq_zero {mag : Nat} : unitsOfMagnitude mag = 0 ↔ mag = 0 :=
  unitsOfMagnitude_strictMono.injective.eq_iff' unitsOfMagnitude_zero

/-- A Value is finite, infinite or a NaN as its magnitude is below, at or above that of an infinity. -/
theorem isFinite_iff (v : Value) : IsFinite v ↔ magnitude v < infMagnitude := by
  have := magnitude_lt v
  rw [IsFinite, expField, infMagnitude_eq]
  omega

theorem isNaN_eq_false {v : Value} (h : magnitude v ≤ infMagnitude) : isNaN v = false :=
  decide_eq_false (Nat.not_lt.mpr h)

end Sys2Proof.Machine
end

section
/-! PROOF LAYER. Comparison of Values is comparison of the numbers (`44_control.md` R120; O39). -/

namespace Sys2Proof.Machine

/-- A strictly monotone map that keeps 0 keeps the order of signed numbers. -/
theorem signed_lt_signed_map_iff {f : Nat → Nat} (hf : StrictMono f) (h0 : f 0 = 0) (s t : Bool) (m n : Nat) :
    signed s (f m) < signed t (f n) ↔ signed s m < signed t n := by
  have hlt : ∀ a b, f a < f b ↔ a < b := fun _ _ => hf.lt_iff_lt
  have hm := hlt 0 m
  have hn := hlt 0 n
  have hmn := hlt m n
  have hnm := hlt n m
  rw [h0] at hm hn
  cases s <;> cases t <;> simp only [signed, Bool.false_eq_true, if_true, if_false] <;> omega

theorem flt_iff {x y : Value} (hx : magnitude x ≤ infMagnitude) (hy : magnitude y ≤ infMagnitude) :
    flt x y = true ↔ orderKey x < orderKey y := by
  simp [flt, isNaN_eq_false hx, isNaN_eq_false hy]

theorem fle_iff {x y : Value} (hx : magnitude x ≤ infMagnitude) (hy : magnitude y ≤ infMagnitude) :
    fle x y = true ↔ orderKey x ≤ orderKey y := by
  simp [fle, isNaN_eq_false hx, isNaN_eq_false hy]

/-- The order of the patterns is the order of the numbers. -/
theorem orderKey_lt_iff (x y : Value) : orderKey x < orderKey y ↔ signedUnits x < signedUnits y := by
  rw [signedUnits_eq, signedUnits_eq]
  exact (signed_lt_signed_map_iff unitsOfMagnitude_strictMono unitsOfMagnitude_zero ..).symm

theorem orderKey_le_iff (x y : Value) : orderKey x ≤ orderKey y ↔ signedUnits x ≤ signedUnits y := by
  rw [← not_lt, orderKey_lt_iff, not_lt]

/-- An infinity's key is the outermost of its sign. -/
theorem orderKey_of_isInfinite {y : Value} (hy : IsInfinite y) :
    orderKey y = if signBit y then -(infMagnitude : Int) else infMagnitude := by
  rw [orderKey, signed, hy]

theorem orderKey_of_isFinite {x : Value} (hx : IsFinite x) :
    -(infMagnitude : Int) < orderKey x ∧ orderKey x < infMagnitude := by
  have := (isFinite_iff x).mp hx
  unfold orderKey signed
  split <;> omega

/-- Settles O39: the keys order finite Values as their numbers do, and an infinity's key is the outermost of its sign. -/
theorem comparisonIsNumeric : Obligations.ComparisonIsNumeric := by
  have infPos : (0 : Int) < infMagnitude := by decide
  refine ⟨fun x y hx hy => ?_, fun x y hx hy => ?_, fun x y hx hy => ?_, fun x y h => ?_⟩
  · have hx := ((isFinite_iff x).mp hx).le
    have hy := ((isFinite_iff y).mp hy).le
    exact ⟨(flt_iff hx hy).trans (orderKey_lt_iff x y), (fle_iff hx hy).trans (orderKey_le_iff x y)⟩
  · have hkx := orderKey_of_isFinite hx
    have hxm := ((isFinite_iff x).mp hx).le
    rw [flt_iff hxm hy.le, fle_iff hxm hy.le, flt_iff hy.le hxm, fle_iff hy.le hxm, orderKey_of_isInfinite hy]
    cases signBit y <;> simp <;> omega
  · rw [flt_iff hx.le hy.le, fle_iff hx.le hy.le, orderKey_of_isInfinite hx, orderKey_of_isInfinite hy]
    cases signBit x <;> cases signBit y <;> simp <;> omega
  · rcases h with h | h
    · exact ⟨flt_nan_left h y, fle_nan_left h y⟩
    · exact ⟨flt_nan_right x h, fle_nan_right x h⟩

end Sys2Proof.Machine
end

section
/-! PROOF LAYER. Rounding to nearest, ties to even. `roundRat` takes the magnitude whose number is nearest to `num / den`
units among all magnitudes, those past the infinity included, and then cuts off at the infinity; that cut is where
overflow begins. -/

namespace Sys2Proof.Machine

/-- How far the number of a magnitude is from `num / den` units, in units of `1 / den`. -/
def unitsDistance (num den mag : Nat) : Nat := (((unitsOfMagnitude mag * den : Nat) : Int) - num).natAbs

/-- No magnitude is nearer to `num / den` units, and where another is as near this one is even. -/
def NearestMagnitude (num den mag : Nat) : Prop :=
  ∀ m, unitsDistance num den mag ≤ unitsDistance num den m ∧
    (unitsDistance num den mag = unitsDistance num den m → m ≠ mag → mag % 2 = 0)

/-- The magnitude that `roundRat` gives before the cut at the infinity. -/
def roundedMagnitude (num den : Nat) : Nat :=
  gridExp (num / den) * 2 ^ 52 +
    nearestEven (num / (den * 2 ^ gridExp (num / den)))
      (compare (2 * (num % (den * 2 ^ gridExp (num / den)))) (den * 2 ^ gridExp (num / den)))

theorem roundRat_eq (neg : Bool) (num den : Nat) :
    roundRat neg num den = pack neg (min (roundedMagnitude num den) infMagnitude) := rfl

theorem min_infMagnitude_lt (mag : Nat) : min mag infMagnitude < 2 ^ 63 :=
  lt_of_le_of_lt (min_le_right ..) (by decide)

@[simp] theorem signBit_roundRat (neg : Bool) (num den : Nat) : signBit (roundRat neg num den) = neg := by
  rw [roundRat_eq, signBit_pack neg (min_infMagnitude_lt _)]

/-- The spacing that `gridExp` picks leaves 53 significant bits. -/
theorem isSignificand_gridExp (floor : Nat) : IsSignificand (gridExp floor) (floor / 2 ^ gridExp floor) := by
  unfold gridExp IsSignificand
  rcases Nat.lt_or_ge floor (2 ^ 53) with hsmall | hlarge
  · have hlog : floor.log2 < 53 := by
      rcases Nat.eq_zero_or_pos floor with rfl | hpos
      · decide
      · exact (Nat.log2_lt hpos.ne').mpr hsmall
    rw [Nat.sub_eq_zero_of_le (by omega), pow_zero, Nat.div_one]
    exact ⟨hsmall, .inl rfl⟩
  · have hne : floor ≠ 0 := by omega
    have hlog : 53 ≤ floor.log2 := (Nat.le_log2 hne).mpr hlarge
    have hlow : 2 ^ 52 * 2 ^ (floor.log2 - 52) ≤ floor := by
      rw [← pow_add, Nat.add_sub_cancel' (by omega)]
      exact Nat.log2_self_le hne
    have hhigh : floor < 2 ^ 53 * 2 ^ (floor.log2 - 52) := by
      rw [← pow_add, show 53 + (floor.log2 - 52) = floor.log2 + 1 by omega]
      exact Nat.lt_log2_self
    exact ⟨Nat.div_lt_of_lt_mul (by rwa [Nat.mul_comm]),
      .inr ((Nat.le_div_iff_mul_le (Nat.two_pow_pos _)).mpr hlow)⟩

/-- `nearestEven` goes down below the midpoint and up above it, and at the midpoint to the even one. -/
theorem nearestEven_cases (q twice whole : Nat) :
    (nearestEven q (compare twice whole) = q ∧ twice ≤ whole ∧ (twice = whole → q % 2 = 0)) ∨
    (nearestEven q (compare twice whole) = q + 1 ∧ whole ≤ twice ∧ (twice = whole → (q + 1) % 2 = 0)) := by
  rcases Nat.lt_trichotomy twice whole with h | h | h
  · rw [Nat.compare_eq_lt.mpr h]
    exact .inl ⟨rfl, h.le, by omega⟩
  · rw [Nat.compare_eq_eq.mpr h]
    by_cases hq : q % 2 = 0
    · exact .inl ⟨if_pos hq, h.le, fun _ => hq⟩
    · exact .inr ⟨if_neg hq, h.ge, by omega⟩
  · rw [Nat.compare_eq_gt.mpr h]
    exact .inr ⟨rfl, h.le, by omega⟩

theorem unitsOfMagnitude_mul_lt {den : Nat} (hden : 0 < den) {m n : Nat} (h : m < n) :
    unitsOfMagnitude m * den < unitsOfMagnitude n * den :=
  Nat.mul_lt_mul_of_pos_right (unitsOfMagnitude_strictMono h) hden

/-- A number `rem` past a magnitude `low`, with the next magnitude `gap` past it: the nearer of the two, and at the
midpoint the even one, is nearest among all magnitudes, since every other is beyond one of them. -/
theorem nearestMagnitude_of_neighbours {num den low base gap rem mag : Nat} (hden : 0 < den)
    (hlow : unitsOfMagnitude low * den = base) (hhigh : unitsOfMagnitude (low + 1) * den = base + gap)
    (hnum : num = base + rem) (hrem : rem < gap)
    (hmag : (mag = low ∧ 2 * rem ≤ gap ∧ (2 * rem = gap → low % 2 = 0)) ∨
      (mag = low + 1 ∧ gap ≤ 2 * rem ∧ (2 * rem = gap → (low + 1) % 2 = 0))) :
    NearestMagnitude num den mag := by
  intro m
  have hbeyond : m = low ∨ m = low + 1 ∨ unitsOfMagnitude m * den < base ∨
      base + gap < unitsOfMagnitude m * den := by
    rcases Nat.lt_trichotomy m low with h | h | h
    · exact .inr (.inr (.inl (hlow ▸ unitsOfMagnitude_mul_lt hden h)))
    · exact .inl h
    · rcases Nat.eq_or_lt_of_le h with h | h
      · exact .inr (.inl h.symm)
      · exact .inr (.inr (.inr (hhigh ▸ unitsOfMagnitude_mul_lt hden h)))
  unfold unitsDistance
  rcases hmag with ⟨rfl, hside, heven⟩ | ⟨rfl, hside, heven⟩ <;>
    rcases hbeyond with rfl | rfl | h | h <;> simp only [hlow, hhigh] <;> omega

/-- The rounded magnitude is the nearest one. -/
theorem roundedMagnitude_nearest (num : Nat) {den : Nat} (hden : 0 < den) :
    NearestMagnitude num den (roundedMagnitude num den) := by
  have hsig := isSignificand_gridExp (num / den)
  rw [Nat.div_div_eq_div_mul] at hsig
  unfold roundedMagnitude
  generalize gridExp (num / den) = k at hsig ⊢
  have hlow := congrArg (· * den) (unitsOfMagnitude_significand hsig)
  have hhigh := congrArg (· * den) (unitsOfMagnitude_significand_succ hsig)
  refine nearestMagnitude_of_neighbours hden (base := den * 2 ^ k * (num / (den * 2 ^ k))) (hlow.trans (by ring))
    (hhigh.trans (by ring)) (Nat.div_add_mod num (den * 2 ^ k)).symm
    (Nat.mod_lt num (Nat.mul_pos hden (Nat.two_pow_pos k))) ?_
  rcases nearestEven_cases (num / (den * 2 ^ k)) (2 * (num % (den * 2 ^ k))) (den * 2 ^ k) with
    ⟨hN, hside, heven⟩ | ⟨hN, hside, heven⟩
  · exact .inl ⟨by rw [hN], hside, by omega⟩
  · exact .inr ⟨by rw [hN, Nat.add_assoc], hside, by omega⟩

/-- Half the spacing of the largest finite Values, in units. -/
def topHalfSpacing : Nat := 2 ^ 2044

theorem topHalfSpacing_pos : 0 < topHalfSpacing :=
  pow_pos two_pos _

theorem two_mul_topHalfSpacing : 2 ^ 2045 = 2 * topHalfSpacing := by
  rw [topHalfSpacing, ← pow_succ']

theorem unitsOfMagnitude_infMagnitude : unitsOfMagnitude infMagnitude = 2 ^ 54 * topHalfSpacing := by
  have h := unitsOfMagnitude_of_le (k := 2045) (q := 2 ^ 53) le_rfl (.inr (by omega))
  rw [show 2045 * 2 ^ 52 + 2 ^ 53 = infMagnitude from rfl] at h
  rw [h, two_mul_topHalfSpacing]
  ring

theorem unitsOfMagnitude_largestFinite : unitsOfMagnitude (infMagnitude - 1) = (2 ^ 54 - 2) * topHalfSpacing := by
  have h := unitsOfMagnitude_of_le (k := 2045) (q := 2 ^ 53 - 1) (by omega) (.inr (by omega))
  rw [show 2045 * 2 ^ 52 + (2 ^ 53 - 1) = infMagnitude - 1 from rfl] at h
  rw [h, two_mul_topHalfSpacing]
  ring

theorem overflowUnits_eq : overflowUnits = (2 ^ 54 - 1) * topHalfSpacing := by
  rw [overflowUnits, topHalfSpacing]

/-- The nearest magnitude reaches the infinity's exactly where the number overflows: `overflowUnits` is the midpoint of
the largest finite Value, which is odd, and the next magnitude. -/
theorem NearestMagnitude.infMagnitude_le_iff {num den mag : Nat} (h : NearestMagnitude num den mag) (hden : 0 < den) :
    infMagnitude ≤ mag ↔ overflowUnits * den ≤ num := by
  have hspace : 0 < topHalfSpacing * den := Nat.mul_pos topHalfSpacing_pos hden
  have hodd : infMagnitude % 2 = 0 ∧ 0 < infMagnitude := by decide
  have hinf : unitsOfMagnitude infMagnitude * den = 2 ^ 54 * (topHalfSpacing * den) := by
    rw [unitsOfMagnitude_infMagnitude, Nat.mul_assoc]
  have hlargest : unitsOfMagnitude (infMagnitude - 1) * den = (2 ^ 54 - 2) * (topHalfSpacing * den) := by
    rw [unitsOfMagnitude_largestFinite, Nat.mul_assoc]
  rw [overflowUnits_eq, Nat.mul_assoc]
  rcases Nat.lt_or_ge mag infMagnitude with hlt | hge
  · refine iff_of_false (Nat.not_le.mpr hlt) fun hover => ?_
    obtain ⟨hnear, htie⟩ := h infMagnitude
    simp only [unitsDistance, hinf] at hnear htie
    rcases Nat.lt_or_eq_of_le (Nat.le_sub_one_of_lt hlt) with hbelow | rfl
    · have := unitsOfMagnitude_mul_lt hden hbelow
      omega
    · omega
  · refine iff_of_true hge ?_
    obtain ⟨hnear, -⟩ := h (infMagnitude - 1)
    simp only [unitsDistance, hlargest] at hnear
    rcases Nat.eq_or_lt_of_le hge with rfl | habove
    · omega
    · have := unitsOfMagnitude_mul_lt hden habove
      omega

end Sys2Proof.Machine
end

section
/-! PROOF LAYER. Correct rounding with signs, and from it O35. -/

namespace Sys2Proof.Machine

/-! ### Signed numbers -/

theorem natAbs_signed (neg : Bool) (n : Nat) : (signed neg n).natAbs = n := by
  cases neg <;> simp [signed]

@[simp] theorem signed_zero (neg : Bool) : signed neg 0 = 0 := by cases neg <;> rfl

theorem signed_natAbs_self (z : Int) : signed (decide (z < 0)) z.natAbs = z := by
  by_cases h : z < 0
  · rw [decide_eq_true h, signed, if_pos rfl]
    omega
  · rw [decide_eq_false h, signed, if_neg Bool.false_ne_true]
    omega

theorem signed_not (neg : Bool) (n : Nat) : signed (!neg) n = -signed neg n := by
  cases neg <;> simp [signed]

/-- The sign of a product is the exclusive or of the signs (`42_arithmetic.md` R107). -/
theorem signed_mul_signed (s t : Bool) (m n : Nat) : signed s m * signed t n = signed (s ^^ t) (m * n) := by
  cases s <;> cases t <;> simp [signed]

theorem signed_mul_two_pow (s : Bool) (m e : Nat) : signed s m * 2 ^ e = signed s (m * 2 ^ e) := by
  cases s <;> simp [signed]

theorem sign_signed (t : Bool) {n : Nat} (hn : n ≠ 0) : (signed t n).sign = signed t 1 := by
  have : 0 < n := Nat.pos_of_ne_zero hn
  cases t <;> simp [signed, Int.sign_eq_one_of_pos, this]

theorem signed_lt_zero_iff {neg : Bool} {n : Nat} (hn : 0 < n) : signed neg n < 0 ↔ neg = true := by
  cases neg <;> simp [signed, hn]

/-- Two numbers of one sign are as far apart as their absolute values; two of opposite signs, as far as the sum of
those. -/
theorem natAbs_signed_mul_sub (s neg : Bool) (u den num : Nat) :
    (signed s u * den - signed neg num).natAbs =
      if s = neg then (((u * den : Nat) : Int) - num).natAbs else u * den + num := by
  have hcast : ((u * den : Nat) : Int) = (u : Int) * den := Nat.cast_mul u den
  cases s <;> cases neg <;> simp [signed] <;> omega

/-! ### A nearest magnitude makes a correctly rounded Value -/

/-- `CorrectlyRounded` with its two cases as fields. (As a structure it is never unfolded to the number `overflowUnits`,
whose 2000 bits no proof should compute with.) -/
structure RoundsTo (num : Int) (den : Nat) (r : Value) : Prop where
  infinite : overflowUnits * den ≤ num.natAbs → IsInfinite r ∧ (signBit r = true ↔ num < 0)
  nearest : num.natAbs < overflowUnits * den → IsFinite r ∧ ∀ c : Value, IsFinite c →
    (signedUnits r * den - num).natAbs ≤ (signedUnits c * den - num).natAbs ∧
    ((signedUnits r * den - num).natAbs = (signedUnits c * den - num).natAbs →
      signedUnits c ≠ signedUnits r → magnitude r % 2 = 0)

theorem correctlyRounded_iff_roundsTo (num : Int) (den : Nat) (r : Value) :
    CorrectlyRounded num den r ↔ RoundsTo num den r := by
  by_cases h : overflowUnits * den ≤ num.natAbs
  · simp only [CorrectlyRounded, if_pos h]
    exact ⟨fun hr => ⟨fun _ => hr, fun h' => absurd h (Nat.not_le.mpr h')⟩, fun hr => hr.infinite h⟩
  · simp only [CorrectlyRounded, if_neg h]
    exact ⟨fun hr => ⟨fun h' => absurd h' h, fun _ => hr⟩, fun hr => hr.nearest (Nat.not_le.mp h)⟩

theorem overflowUnits_pos : 0 < overflowUnits := by
  rw [overflowUnits_eq]
  exact Nat.mul_pos (by decide) topHalfSpacing_pos

theorem infMagnitude_lt_two_pow : infMagnitude < 2 ^ 63 := by decide

/-- No finite Value of either sign is nearer than the nearest magnitude with the number's own sign: a Value of the other
sign is no nearer than zero is. -/
theorem NearestMagnitude.roundsTo {num den mag : Nat} (h : NearestMagnitude num den mag) (hden : 0 < den)
    (neg : Bool) : RoundsTo (signed neg num) den (pack neg (min mag infMagnitude)) := by
  have hcut := h.infMagnitude_le_iff hden
  refine ⟨fun hnum => ?_, fun hnum => ?_⟩ <;> rw [natAbs_signed] at hnum
  · have hpos : 0 < num := (Nat.mul_pos overflowUnits_pos hden).trans_le hnum
    rw [min_eq_right (hcut.mpr hnum), IsInfinite, magnitude_pack neg infMagnitude_lt_two_pow,
      signBit_pack neg infMagnitude_lt_two_pow, signed_lt_zero_iff hpos]
    exact ⟨rfl, Iff.rfl⟩
  · have hlt : mag < infMagnitude := Nat.not_le.mp (mt hcut.mp (Nat.not_le.mpr hnum))
    have h63 := hlt.trans infMagnitude_lt_two_pow
    have hmag := magnitude_pack neg h63
    have hsign := signBit_pack neg h63
    rw [min_eq_left hlt.le, isFinite_iff, hmag]
    refine ⟨hlt, fun c _ => ?_⟩
    rw [signedUnits_eq, hmag, hsign, signedUnits_eq c, natAbs_signed_mul_sub, natAbs_signed_mul_sub, if_pos rfl]
    by_cases hc : signBit c = neg
    · obtain ⟨hnear, htie⟩ := h (magnitude c)
      rw [if_pos hc]
      refine ⟨hnear, fun heq hne => htie heq fun hm => hne ?_⟩
      rw [hm, hc]
    · obtain ⟨hnear, htie⟩ := h 0
      rw [if_neg hc]
      simp only [unitsDistance, unitsOfMagnitude_zero] at hnear htie
      refine ⟨by omega, fun heq hne => htie (by omega) fun hm => hne ?_⟩
      have hzero : unitsOfMagnitude (magnitude c) * den = 0 := by omega
      have hc0 : unitsOfMagnitude (magnitude c) = 0 := (Nat.mul_eq_zero.mp hzero).resolve_right hden.ne'
      rw [hc0, ← hm, unitsOfMagnitude_zero, signed_zero, signed_zero]

/-- `roundRat` rounds correctly (`00_scope.md` R11; `42_arithmetic.md` R101). -/
theorem roundRat_roundsTo (neg : Bool) (num : Nat) {den : Nat} (hden : 0 < den) :
    RoundsTo (signed neg num) den (roundRat neg num den) :=
  roundRat_eq neg num den ▸ (roundedMagnitude_nearest num hden).roundsTo hden neg

/-- A zero rounds to the zero of the sign given. -/
theorem roundRat_zero (neg : Bool) {den : Nat} (hden : 0 < den) : roundRat neg 0 den = pack neg 0 := by
  have hcompare : compare 0 den = .lt := Nat.compare_eq_lt.mpr hden
  simp [roundRat_eq, roundedMagnitude, gridExp, nearestEven, hcompare]

/-! ### The operations on finite Values -/

@[simp] theorem magnitude_fneg (v : Value) : magnitude (fneg v) = magnitude v := by
  rw [magnitude, fneg, BitVec.toNat_xor, Nat.xor_mod_two_pow]
  exact Nat.xor_zero _

@[simp] theorem signBit_fneg (v : Value) : signBit (fneg v) = !signBit v := by
  simp [signBit, fneg]

theorem signedUnits_fneg (v : Value) : signedUnits (fneg v) = -signedUnits v := by
  rw [signedUnits_eq, signedUnits_eq, magnitude_fneg, signBit_fneg, signed_not]

theorem isFinite_fneg {v : Value} (h : IsFinite v) : IsFinite (fneg v) := by
  rwa [isFinite_iff, magnitude_fneg, ← isFinite_iff]

theorem unitsOf_eq_zero_iff (v : Value) : unitsOf v = 0 ↔ magnitude v = 0 := by
  rw [unitsOf_eq_unitsOfMagnitude, unitsOfMagnitude_eq_zero]

theorem fadd_finite (nan : Value) {b a : Value} (hb : IsFinite b) (ha : IsFinite a) :
    fadd nan b a =
      if signedUnits b + signedUnits a = 0 then pack (signBit b && signBit a) 0
      else roundRat (decide (signedUnits b + signedUnits a < 0)) (signedUnits b + signedUnits a).natAbs 1 := by
  simp only [fadd, classify_fin b hb, classify_fin a ha]
  rfl

theorem fmul_finite (nan : Value) {b a : Value} (hb : IsFinite b) (ha : IsFinite a) :
    fmul nan b a = roundRat (signBit b ^^ signBit a) (unitsOf b * unitsOf a) (2 ^ 1074) := by
  simp only [fmul, classify_fin b hb, classify_fin a ha]

theorem fdiv_finite (nan : Value) {b a : Value} (hb : IsFinite b) (ha : IsFinite a) :
    fdiv nan b a =
      if unitsOf a = 0 then (if unitsOf b = 0 then nan else pack (signBit b ^^ signBit a) infMagnitude)
      else roundRat (signBit b ^^ signBit a) (unitsOf b * 2 ^ 1074) (unitsOf a) := by
  simp only [fdiv, classify_fin b hb, classify_fin a ha]

theorem fadd_roundsTo (nan : Value) {b a : Value} (hb : IsFinite b) (ha : IsFinite a) :
    RoundsTo (signedUnits b + signedUnits a) 1 (fadd nan b a) := by
  rw [fadd_finite nan hb ha]
  split
  · rename_i hzero
    have h := roundRat_roundsTo (signBit b && signBit a) 0 Nat.one_pos
    rwa [roundRat_zero _ Nat.one_pos, signed_zero, ← hzero] at h
  · have h := roundRat_roundsTo (decide (signedUnits b + signedUnits a < 0))
      (signedUnits b + signedUnits a).natAbs Nat.one_pos
    rwa [signed_natAbs_self] at h

theorem fsub_roundsTo (nan : Value) {b a : Value} (hb : IsFinite b) (ha : IsFinite a) :
    RoundsTo (signedUnits b - signedUnits a) 1 (fsub nan b a) := by
  rw [fsub, Int.sub_eq_add_neg, ← signedUnits_fneg]
  exact fadd_roundsTo nan hb (isFinite_fneg ha)

theorem fmul_roundsTo (nan : Value) {b a : Value} (hb : IsFinite b) (ha : IsFinite a) :
    RoundsTo (signedUnits b * signedUnits a) (2 ^ 1074) (fmul nan b a) := by
  rw [fmul_finite nan hb ha, signedUnits, signedUnits, signed_mul_signed]
  exact roundRat_roundsTo _ _ (pow_pos two_pos _)

theorem fdiv_roundsTo (nan : Value) {b a : Value} (hb : IsFinite b) (ha : IsFinite a)
    (hne : signedUnits a ≠ 0) :
    RoundsTo (signedUnits b * 2 ^ 1074 * (signedUnits a).sign) (signedUnits a).natAbs (fdiv nan b a) := by
  have hunits : unitsOf a ≠ 0 := fun h => hne (by rw [signedUnits, h, signed_zero])
  have hnum : signedUnits b * 2 ^ 1074 * (signedUnits a).sign =
      signed (signBit b ^^ signBit a) (unitsOf b * 2 ^ 1074) := by
    rw [signedUnits, signedUnits, sign_signed _ hunits, mul_right_comm, signed_mul_signed, Nat.mul_one,
      signed_mul_two_pow]
  rw [fdiv_finite nan hb ha, if_neg hunits, hnum, signedUnits, natAbs_signed]
  exact roundRat_roundsTo _ _ (Nat.pos_of_ne_zero hunits)

/-- Settles O35: each operation computes its exact result and rounds it once by `roundRat`, or gives an exact zero. -/
theorem arithmeticIsCorrectlyRounded : Obligations.ArithmeticIsCorrectlyRounded := by
  simp only [Obligations.ArithmeticIsCorrectlyRounded, correctlyRounded_iff_roundsTo]
  exact fun nan _ _ hb ha => ⟨fadd_roundsTo nan hb ha, fsub_roundsTo nan hb ha, fmul_roundsTo nan hb ha,
    fdiv_roundsTo nan hb ha⟩

end Sys2Proof.Machine
end

section
/-! PROOF LAYER. What the operations give on NaNs, infinities and zeros, one equation per operation and class of operands,
and from them O37. A difference is a sum with the sign of `a` flipped, so its cases are those of the sum. -/

namespace Sys2Proof.Machine

theorem classify_of_isInfinite {v : Value} (h : IsInfinite v) : classify v = .inf (signBit v) :=
  (classify_inf_iff v _).mpr ⟨h, rfl⟩

/-! ### Negation and zeros -/

theorem isNaN_fneg (v : Value) : isNaN (fneg v) = isNaN v := by rw [isNaN, magnitude_fneg, isNaN]

theorem isInfinite_fneg {v : Value} (h : IsInfinite v) : IsInfinite (fneg v) := (magnitude_fneg v).trans h

theorem fneg_eq_pack (v : Value) : fneg v = pack (!signBit v) (magnitude v) := by
  rw [← pack_fields (fneg v), signBit_fneg, magnitude_fneg]

theorem pack_false_zero : pack false 0 = 0#64 := rfl

theorem isFinite_of_magnitude_eq_zero {v : Value} (h : magnitude v = 0) : IsFinite v :=
  (isFinite_iff v).mpr (h ▸ by decide)

/-! ### A NaN operand -/

theorem fsub_nan_left {b : Value} (h : isNaN b = true) (nan a : Value) : fsub nan b a = nan :=
  fadd_nan_left h nan (fneg a)

theorem fsub_nan_right {a : Value} (h : isNaN a = true) (nan b : Value) : fsub nan b a = nan :=
  fadd_nan_right ((isNaN_fneg a).trans h) nan b

theorem fmul_nan_left {b : Value} (h : isNaN b = true) (nan a : Value) : fmul nan b a = nan := by
  simp only [fmul, (classify_nan_iff b).mpr h]

theorem fmul_nan_right {a : Value} (h : isNaN a = true) (nan b : Value) : fmul nan b a = nan := by
  rw [fmul, (classify_nan_iff a).mpr h]
  cases classify b <;> rfl

theorem fdiv_nan_left {b : Value} (h : isNaN b = true) (nan a : Value) : fdiv nan b a = nan := by
  simp only [fdiv, (classify_nan_iff b).mpr h]

theorem fdiv_nan_right {a : Value} (h : isNaN a = true) (nan b : Value) : fdiv nan b a = nan := by
  rw [fdiv, (classify_nan_iff a).mpr h]
  cases classify b <;> rfl

/-! ### Two infinities -/

theorem fadd_inf_inf (nan : Value) {b a : Value} (hb : IsInfinite b) (ha : IsInfinite a) :
    fadd nan b a = if signBit b = signBit a then b else nan := by
  simp only [fadd, classify_of_isInfinite hb, classify_of_isInfinite ha]

theorem fsub_inf_inf (nan : Value) {b a : Value} (hb : IsInfinite b) (ha : IsInfinite a) :
    fsub nan b a = if signBit b = signBit a then nan else b := by
  rw [fsub, fadd_inf_inf nan hb (isInfinite_fneg ha), signBit_fneg]
  cases signBit b <;> cases signBit a <;> rfl

theorem fmul_inf_inf (nan : Value) {b a : Value} (hb : IsInfinite b) (ha : IsInfinite a) :
    fmul nan b a = pack (signBit b ^^ signBit a) infMagnitude := by
  simp only [fmul, classify_of_isInfinite hb, classify_of_isInfinite ha]

theorem fdiv_inf_inf (nan : Value) {b a : Value} (hb : IsInfinite b) (ha : IsInfinite a) : fdiv nan b a = nan := by
  simp only [fdiv, classify_of_isInfinite hb, classify_of_isInfinite ha]

/-! ### An infinity and a finite Value -/

theorem fadd_inf_finite (nan : Value) {b a : Value} (hb : IsInfinite b) (ha : IsFinite a) : fadd nan b a = b := by
  simp only [fadd, classify_of_isInfinite hb, classify_fin a ha]

theorem fadd_finite_inf (nan : Value) {b a : Value} (hb : IsFinite b) (ha : IsInfinite a) : fadd nan b a = a := by
  simp only [fadd, classify_fin b hb, classify_of_isInfinite ha]

theorem fsub_inf_finite (nan : Value) {b a : Value} (hb : IsInfinite b) (ha : IsFinite a) : fsub nan b a = b :=
  fadd_inf_finite nan hb (isFinite_fneg ha)

theorem fsub_finite_inf (nan : Value) {b a : Value} (hb : IsFinite b) (ha : IsInfinite a) :
    fsub nan b a = pack (!signBit a) infMagnitude := by
  rw [fsub, fadd_finite_inf nan hb (isInfinite_fneg ha), fneg_eq_pack, ha]

theorem fmul_inf_finite (nan : Value) {b a : Value} (hb : IsInfinite b) (ha : IsFinite a) :
    fmul nan b a = if magnitude a = 0 then nan else pack (signBit b ^^ signBit a) infMagnitude := by
  simp only [fmul, classify_of_isInfinite hb, classify_fin a ha, unitsOf_eq_zero_iff]

theorem fmul_finite_inf (nan : Value) {b a : Value} (hb : IsFinite b) (ha : IsInfinite a) :
    fmul nan b a = if magnitude b = 0 then nan else pack (signBit b ^^ signBit a) infMagnitude := by
  simp only [fmul, classify_fin b hb, classify_of_isInfinite ha, unitsOf_eq_zero_iff]

theorem fdiv_inf_finite (nan : Value) {b a : Value} (hb : IsInfinite b) (ha : IsFinite a) :
    fdiv nan b a = pack (signBit b ^^ signBit a) infMagnitude := by
  simp only [fdiv, classify_of_isInfinite hb, classify_fin a ha]

theorem fdiv_finite_inf (nan : Value) {b a : Value} (hb : IsFinite b) (ha : IsInfinite a) :
    fdiv nan b a = pack (signBit b ^^ signBit a) 0 := by
  simp only [fdiv, classify_fin b hb, classify_of_isInfinite ha]

/-! ### Two finite Values -/

/-- A sum of two zeros is negative only where both are (`42_arithmetic.md` R105). -/
theorem fadd_of_zeros (nan : Value) {b a : Value} (hb : magnitude b = 0) (ha : magnitude a = 0) :
    fadd nan b a = pack (signBit b && signBit a) 0 := by
  have hzero : ∀ {v}, magnitude v = 0 → signedUnits v = 0 := fun h => by
    rw [signedUnits_eq, h, unitsOfMagnitude_zero, signed_zero]
  rw [fadd_finite nan (isFinite_of_magnitude_eq_zero hb) (isFinite_of_magnitude_eq_zero ha), hzero hb, hzero ha,
    if_pos (Int.add_zero 0)]

theorem fsub_self (nan : Value) {x : Value} (hx : IsFinite x) : fsub nan x x = 0#64 := by
  rw [fsub, fadd_finite nan hx (isFinite_fneg hx), signedUnits_fneg, if_pos (Int.add_right_neg _), signBit_fneg,
    Bool.and_not_self, pack_false_zero]

theorem signBit_fmul_finite (nan : Value) {b a : Value} (hb : IsFinite b) (ha : IsFinite a) :
    signBit (fmul nan b a) = (signBit b ^^ signBit a) := by
  rw [fmul_finite nan hb ha, signBit_roundRat]

theorem fmul_of_zero (nan : Value) {b a : Value} (hb : IsFinite b) (ha : IsFinite a)
    (h : magnitude b = 0 ∨ magnitude a = 0) : fmul nan b a = pack (signBit b ^^ signBit a) 0 := by
  rw [← unitsOf_eq_zero_iff, ← unitsOf_eq_zero_iff] at h
  rw [fmul_finite nan hb ha, Nat.mul_eq_zero.mpr h, roundRat_zero _ (pow_pos two_pos _)]

theorem signBit_fdiv_finite (nan : Value) {b a : Value} (hb : IsFinite b) (ha : IsFinite a) (h : magnitude a ≠ 0) :
    signBit (fdiv nan b a) = (signBit b ^^ signBit a) := by
  rw [fdiv_finite nan hb ha, if_neg (mt (unitsOf_eq_zero_iff a).mp h), signBit_roundRat]

/-- Division by zero: an infinity, or a NaN where the dividend is a zero too (`42_arithmetic.md` R108). -/
theorem fdiv_by_zero (nan : Value) {b a : Value} (hb : IsFinite b) (ha : magnitude a = 0) :
    fdiv nan b a = if magnitude b = 0 then nan else pack (signBit b ^^ signBit a) infMagnitude := by
  simp only [fdiv_finite nan hb (isFinite_of_magnitude_eq_zero ha), unitsOf_eq_zero_iff, if_pos ha]

/-! ### The square root -/

theorem fsqrt_nan {v : Value} (h : isNaN v = true) (nan : Value) : fsqrt nan v = nan := by
  simp only [fsqrt, (classify_nan_iff v).mpr h]

theorem fsqrt_inf (nan : Value) {v : Value} (h : IsInfinite v) :
    fsqrt nan v = if signBit v = true then nan else v := by
  simp only [fsqrt, classify_of_isInfinite h]

theorem fsqrt_finite (nan : Value) {v : Value} (h : IsFinite v) :
    fsqrt nan v =
      if magnitude v = 0 then v else if signBit v = true then nan else roundSqrt (unitsOf v * 2 ^ 1074) := by
  simp only [fsqrt, classify_fin v h, unitsOf_eq_zero_iff]

/-! ### The clauses together -/

theorem arithmetic_of_nan (nan : Value) {b a : Value} (h : isNaN b = true ∨ isNaN a = true) :
    fadd nan b a = nan ∧ fsub nan b a = nan ∧ fmul nan b a = nan ∧ fdiv nan b a = nan := by
  rcases h with h | h
  · exact ⟨fadd_nan_left h nan a, fsub_nan_left h nan a, fmul_nan_left h nan a, fdiv_nan_left h nan a⟩
  · exact ⟨fadd_nan_right h nan b, fsub_nan_right h nan b, fmul_nan_right h nan b, fdiv_nan_right h nan b⟩

/-- Settles O37: each clause is the equation of its operation on its class of operands. -/
theorem specialValuesOfArithmetic : Obligations.SpecialValuesOfArithmetic := by
  intro nan
  refine ⟨fun _ _ => arithmetic_of_nan nan, ?twoInfinities, ?infinityAndFinite, fun _ => fsub_self nan,
    fadd_of_zeros nan rfl rfl, fadd_of_zeros nan rfl rfl, ?twoFinite, fun _ h => fsqrt_nan h nan, ?rootOfZero,
    ?rootOfNegative, ?rootOfInfinity⟩
  case twoInfinities =>
    intro b a hb ha
    rw [fadd_inf_inf nan hb ha, fsub_inf_inf nan hb ha]
    exact ⟨fun hs => ⟨if_neg hs, if_neg hs⟩, fun hs => ⟨if_pos hs, if_pos hs⟩, fmul_inf_inf nan hb ha,
      fdiv_inf_inf nan hb ha⟩
  case infinityAndFinite =>
    intro b a hb ha
    rw [fmul_inf_finite nan hb ha, fmul_finite_inf nan ha hb]
    exact ⟨fadd_inf_finite nan hb ha, fadd_finite_inf nan ha hb, fsub_inf_finite nan hb ha,
      fsub_finite_inf nan ha hb, fdiv_inf_finite nan hb ha, fdiv_finite_inf nan ha hb,
      fun h0 => ⟨if_pos h0, if_pos h0⟩, fun h0 => ⟨if_neg h0, if_neg h0⟩⟩
  case twoFinite =>
    intro b a hb ha
    exact ⟨signBit_fmul_finite nan hb ha, fmul_of_zero nan hb ha, signBit_fdiv_finite nan hb ha,
      fun hb0 ha0 => (fdiv_by_zero nan hb ha0).trans (if_neg hb0),
      fun hb0 ha0 => (fdiv_by_zero nan hb ha0).trans (if_pos hb0)⟩
  case rootOfZero =>
    intro v h0
    rw [fsqrt_finite nan (isFinite_of_magnitude_eq_zero h0), if_pos h0]
  case rootOfNegative =>
    intro v hv h0 hs
    rw [fsqrt_finite nan hv, if_neg h0, if_pos hs]
  case rootOfInfinity =>
    intro v hv
    rw [fsqrt_inf nan hv]
    exact ⟨fun hs => if_neg (Bool.eq_false_iff.mp hs), fun hs => if_pos hs⟩

end Sys2Proof.Machine
end

section
/-! PROOF LAYER. The machines a run can start from meet the invariant (`70_reset_and_hazards.md` R155, R156; O60). -/

namespace Sys2Proof.Machine

/-- What the host's `load` can answer when it goes through. -/
theorem load_eq_next_iff {bytes : List Byte} {s t : State} :
    load bytes s = .next t ↔
      s = State.construct s.cfg s.input s.alloc ∧ bytes.length ≤ s.cfg.maxProgram ∧
        t = ((s.setStream bytes).setIp 0#64).setStatus .running := by
  unfold load
  split
  · rename_i hs
    split
    · rename_i hlen
      rw [Host.Outcome.next.injEq]
      exact ⟨fun h => ⟨hs, hlen, h.symm⟩, fun ⟨_, _, h⟩ => h.symm⟩
    · rename_i hlen
      exact ⟨fun h => (nomatch h), fun ⟨_, h, _⟩ => absurd h hlen⟩
  · rename_i hs
    exact ⟨fun h => (nomatch h), fun ⟨h, _⟩ => absurd h hs⟩

/-- An empty region is inside every size. -/
theorem Memory.within_nil (n : Nat) : Memory.within [] n := fun _ h => (nomatch h)

theorem inv_construct {cfg : Config} (h : Admissible cfg) (input : List InputAnswer) (alloc : Allocator) :
    Inv (State.construct cfg input alloc) := by
  have ⟨_, _, _, hcap, hmax, _⟩ := h
  exact ⟨h, Nat.zero_le _, hcap, hmax, Nat.zero_le _, Memory.wf_nil, Memory.within_nil _,
    Memory.wf_nil, Memory.within_nil _, fun hpending => nomatch hpending⟩

/-- The invariant bounds the stream by `MAX_PROGRAM`, and of the status it asks only that a pending read be in a running
machine: a program of at most that length may be placed in it. -/
theorem Inv.placeProgram {s : State} (h : Inv s) {bytes : List Byte} (hlen : bytes.length ≤ s.cfg.maxProgram) :
    Inv (((s.setStream bytes).setIp 0#64).setStatus .running) := by
  obtain ⟨hcfg, hsize, hcap, hmax, _, hram, hramIn, hvram, hvramIn, _⟩ := h
  exact ⟨hcfg, hsize, hcap, hmax, hlen, hram, hramIn, hvram, hvramIn, fun _ => rfl⟩

theorem Inv.load {s t : State} {bytes : List Byte} (h : Inv s) (hload : load bytes s = .next t) : Inv t := by
  obtain ⟨_, hlen, rfl⟩ := load_eq_next_iff.mp hload
  exact h.placeProgram hlen

/-- The invariant does not speak of the host's answers. -/
theorem Inv.supplyInput {s : State} (h : Inv s) (r : InputAnswer) : Inv (supplyInput r s) := h

/-- Settles O60: construction meets the invariant, and neither a `load` nor an answer of the host breaks it. -/
theorem loadedMachinesMeetInv : Obligations.LoadedMachinesMeetInv := by
  refine ⟨fun cfg input alloc h => ?_, fun _ _ _ h => Inv.load h, fun _ r h => Inv.supplyInput h r⟩
  have hinv := inv_construct h input alloc
  refine ⟨hinv, fun bytes hlen => ?_⟩
  exact ⟨_, load_eq_next_iff.mpr ⟨rfl, hlen, rfl⟩, rfl, Inv.placeProgram hinv hlen⟩

end Sys2Proof.Machine
end

section
/-! PROOF LAYER. Every well-formed instruction is `perform` around a handler of its own, so a claim about every
instruction is one about `perform` and one about the handlers. -/

namespace Sys2Proof.Machine

/-- The handler of each instruction (`30_encoding.md` R77), as `exec` gives it to `perform`. `start` is the state at the
instruction's opcode, of which `je` and `jne` take the draw and EPSILON. -/
def handlerOf (i : Instr) (start : State) : State → Res Signal :=
  match i with
  | .push source => fun s => (sourceValue source s).bind fun v s => (push v s).bind fun _ s => .ok .proceed s
  | .pop dest => popTo dest
  | .dup => fun s => (top s).bind fun v s => (push v s).bind fun _ s => .ok .proceed s
  | .add => drawing fun nan => binary (fadd nan)
  | .sub => drawing fun nan => binary (fsub nan)
  | .mul => drawing fun nan => binary (fmul nan)
  | .div => drawing fun nan => binary (fdiv nan)
  | .sin => drawing fun nan => unary (fsin nan)
  | .cos => drawing fun nan => unary (fcos nan)
  | .sqrt => drawing fun nan => unary (fsqrt nan)
  | .pw2 => drawing fun nan => unary fun v => fmul nan v v
  | .pwInv => drawing fun nan => unary fun v => fdiv nan one v
  | .abs => unary fabs
  | .inp => readInput
  | .out => fun s => (pop s).bind fun v s => .ok .proceed (emit (.out v) s)
  | .outN => fun s => .ok .proceed (emit .newline s)
  | .jmp target => fun s => .ok .jumped (setPosition target s)
  | .ja target => condJump condAbove target
  | .jae target => condJump condAboveEq target
  | .jb target => condJump condBelow target
  | .jbe target => condJump condBelowEq target
  | .je target => condJump (condNear start.nanDraw start.cfg.epsilon) target
  | .jne target => condJump (condNotNear start.nanDraw start.cfg.epsilon) target
  | .call target => fun s => (push (valueOfNat s.ip.toNat) s).bind fun _ s => .ok .jumped (setPosition target s)
  | .ret => returnToTop
  | .halt => fun s => .ok .halt s
  | .gInit => fun s => .ok .proceed (emit (.displayInit s.cfg.vramW s.cfg.vramH) s)
  | .gDrawOn => fun s => .ok .proceed (s.setGfx true)
  | .gDrawOff => fun s => .ok .proceed (s.setGfx false)
  | .gDraw => fun s => .ok .proceed (emit (.draw s.vramCells) s)
  | .gFill => fun s => (pop s).bind fun v s => .ok .proceed (s.setVram (Memory.fill s.cfg.vramSize v))

theorem exec_eq_perform {i : Instr} (h : i.wellFormed = true) (s : State) :
    exec i s = perform i (handlerOf i s) s := by
  cases i with
  | pop dest => exact if_pos h
  | _ => rfl

/-- `pop CONST`, the one ill-formed term (log 12). -/
theorem exec_of_not_wellFormed {i : Instr} (h : ¬ i.wellFormed = true) (s : State) :
    exec i s = .next (faultedAt .invalidOperand s) := by
  cases i with
  | pop dest => exact if_neg h
  | _ => exact absurd rfl h

/-- Everything an instruction can answer: always a next state. -/
theorem exec_eq (i : Instr) (s : State) :
    exec i s = .next (
      if ¬ i.wellFormed = true then faultedAt .invalidOperand s
      else if s.stack.length < stackIn i.mnemonic then faultedAt .underflow s
      else commit s (handlerOf i s (decoded i s))) := by
  by_cases hwf : i.wellFormed = true
  · rw [exec_eq_perform hwf, perform_eq, if_neg (not_not_intro hwf)]
    split <;> rfl
  · rw [exec_of_not_wellFormed hwf, if_pos hwf]

end Sys2Proof.Machine
end

section
/-! PROOF LAYER. Which faults a handler can raise, and that it sets no status itself: only the frame of an instruction
does (`40_execution_engine.md` R89, R90). From it O17: no operation raises CorruptedState (`00_scope.md` R7). -/

namespace Sys2Proof.Machine

/-- An answer of a part of a handler that leaves the status as it was, and raises no fault of the integrity layer. -/
def Res.Uncorrupted {α : Type} (status : Status) : Res α → Prop
  | .ok _ t => t.status = status
  | .raise r _ => r ≠ .corruptedState
  | .wait => True

theorem Res.Uncorrupted.ok {α : Type} {a : α} {t : State} {status : Status} (h : t.status = status) :
    (Res.ok a t).Uncorrupted status := h

theorem Res.Uncorrupted.raise {α : Type} {r : FaultReason} {t : State} {status : Status} (h : r ≠ .corruptedState) :
    (Res.raise r t : Res α).Uncorrupted status := h

theorem Res.Uncorrupted.wait {α : Type} {status : Status} : (Res.wait : Res α).Uncorrupted status := trivial

theorem Res.Uncorrupted.bind {α β : Type} {status : Status} {x : Res α} {f : α → State → Res β}
    (hx : x.Uncorrupted status) (hf : ∀ a t, (f a t).Uncorrupted t.status) : (x.bind f).Uncorrupted status := by
  cases x with
  | ok a t =>
    have ht : t.status = status := hx
    exact ht ▸ hf a t
  | raise r t => exact hx
  | wait => exact hx

/-! ### The shared operations -/

theorem push_uncorrupted (v : Value) (s : State) : (push v s).Uncorrupted s.status := by
  rw [push_eq]
  split
  · exact .ok (pushed_status v s)
  · split <;> exact .raise (by decide)

theorem pop_uncorrupted (s : State) : (pop s).Uncorrupted s.status := by
  cases hs : s.stack with
  | nil =>
    rw [pop_nil hs]
    exact .raise (by decide)
  | cons v rest =>
    rw [pop_cons hs]
    split
    · exact .ok (popped_status s)
    · exact .raise (by decide)

theorem top_uncorrupted (s : State) : (top s).Uncorrupted s.status := by
  cases h : top s with
  | ok v t =>
    obtain ⟨_, rfl⟩ := top_eq_ok h
    exact .ok rfl
  | raise r t =>
    obtain ⟨rfl, _⟩ := top_eq_raise h
    exact .raise (by decide)
  | wait => exact .wait

theorem locate_uncorrupted (o : Operand) (s : State) : (locate o s).Uncorrupted s.status := by
  cases h : locate o s with
  | ok p t =>
    obtain ⟨rfl, _⟩ := locate_eq_ok h
    exact .ok rfl
  | raise r t =>
    obtain ⟨_, ⟨rfl, _⟩ | ⟨rfl, _⟩⟩ := locate_eq_raise h <;> exact .raise (by decide)
  | wait => exact .wait

theorem sourceValue_uncorrupted (o : Operand) (s : State) : (sourceValue o s).Uncorrupted s.status := by
  have hread : ((locate o s).bind fun p t => .ok (readPlace p t) t).Uncorrupted s.status :=
    (locate_uncorrupted o s).bind fun _ _ => .ok rfl
  cases o with
  | const v => exact .ok rfl
  | reg i => exact hread
  | ram v => exact hread
  | vram v => exact hread

/-! ### The handlers -/

/-- The end of every handler that pushes its result. -/
theorem push_proceed_uncorrupted (v : Value) (s : State) :
    ((push v s).bind fun _ t => .ok Signal.proceed t).Uncorrupted s.status :=
  (push_uncorrupted v s).bind fun _ _ => .ok rfl

theorem binary_uncorrupted (op : Value → Value → Value) (s : State) : (binary op s).Uncorrupted s.status :=
  (pop_uncorrupted s).bind fun _ s => (pop_uncorrupted s).bind fun _ s => push_proceed_uncorrupted _ s

theorem unary_uncorrupted (f : Value → Value) (s : State) : (unary f s).Uncorrupted s.status :=
  (top_uncorrupted s).bind fun _ _ => .ok rfl

/-- A draw changes only its counter. -/
theorem drawing_uncorrupted {handler : Value → State → Res Signal} (s : State)
    (h : ∀ nan t, (handler nan t).Uncorrupted t.status) : (drawing handler s).Uncorrupted s.status :=
  h s.nanDraw (s.setNanDraws (s.nanDraws + 1))

theorem condJump_uncorrupted (cond : Value → Value → Bool) (target : Addr) (s : State) :
    (condJump cond target s).Uncorrupted s.status :=
  (pop_uncorrupted s).bind fun _ s => (pop_uncorrupted s).bind fun _ s => by
    split <;> exact .ok rfl

theorem returnToTop_uncorrupted (s : State) : (returnToTop s).Uncorrupted s.status :=
  (top_uncorrupted s).bind fun _ s => by
    split
    · exact .raise (by decide)
    · exact (pop_uncorrupted s).bind fun _ _ => .ok rfl

theorem readInput_uncorrupted (s : State) : (readInput s).Uncorrupted s.status := by
  unfold readInput
  split
  · exact .wait
  · exact .raise (by decide)
  · rename_i v rest _
    exact push_proceed_uncorrupted v (s.setInput rest)

theorem popTo_uncorrupted (dest : Operand) (s : State) : (popTo dest s).Uncorrupted s.status :=
  (locate_uncorrupted dest s).bind fun p s => (pop_uncorrupted s).bind fun v s => .ok (writePlace_status p v s)

/-! ### Instructions and steps -/

/-- The end of a handler sets the status Halted, or the fault that was raised, or none. -/
theorem commit_uncorrupted {s : State} {x : Res Signal} (hs : s.status ≠ .faulted .corruptedState)
    (hx : x.Uncorrupted s.status) : (commit s x).status ≠ .faulted .corruptedState := by
  cases x with
  | ok a t =>
    have ht : t.status ≠ .faulted .corruptedState := fun h => hs (Eq.trans (Eq.symm hx) h)
    cases a with
    | proceed => exact ht
    | jumped => exact ht
    | halt => exact nofun
  | raise r t => exact fun h => hx (Status.faulted.inj h)
  | wait => exact hs

theorem handlerOf_uncorrupted (i : Instr) (start u : State) : (handlerOf i start u).Uncorrupted u.status := by
  cases i with
  | push source => exact (sourceValue_uncorrupted source u).bind push_proceed_uncorrupted
  | pop dest => exact popTo_uncorrupted dest u
  | dup => exact (top_uncorrupted u).bind push_proceed_uncorrupted
  | add | sub | mul | div => exact drawing_uncorrupted u fun _ => binary_uncorrupted _
  | sin | cos | sqrt => exact drawing_uncorrupted u fun _ => unary_uncorrupted _
  | pw2 => exact drawing_uncorrupted u fun nan => unary_uncorrupted fun v => fmul nan v v
  | pwInv => exact drawing_uncorrupted u fun nan => unary_uncorrupted fun v => fdiv nan one v
  | abs => exact unary_uncorrupted fabs u
  | inp => exact readInput_uncorrupted u
  | out | gFill => exact (pop_uncorrupted u).bind fun _ _ => .ok rfl
  | ja target | jae target | jb target | jbe target | je target | jne target =>
    exact condJump_uncorrupted _ target u
  | call target => exact (push_uncorrupted _ u).bind fun _ _ => .ok rfl
  | ret => exact returnToTop_uncorrupted u
  | outN | jmp | halt | gInit | gDrawOn | gDrawOff | gDraw => exact .ok rfl

/-- No instruction takes the fault CorruptedState. -/
theorem exec_uncorrupted {i : Instr} {s t : State} (hs : s.status ≠ .faulted .corruptedState)
    (h : exec i s = .next t) : t.status ≠ .faulted .corruptedState := by
  rw [exec_eq] at h
  cases h
  split
  · exact nofun
  · split
    · exact nofun
    · exact commit_uncorrupted hs (handlerOf_uncorrupted i s (decoded i s))

/-- Fetching and decoding raise InvalidOpcode, InvalidOperand and OutOfBounds only (`40_execution_engine.md` R91). -/
theorem fetch_fault_ne_corruptedState {s : State} {r : FaultReason} (h : fetch s = .fault r) : r ≠ .corruptedState := by
  unfold fetch at h
  split at h
  · cases h
  · split at h
    · cases h
      decide
    · split at h
      · cases h
      · rename_i err _
        cases h
        cases err <;> decide

theorem finishStep_status (start t : State) : (finishStep start t).status = t.status := by
  rw [finishStep_eq]

/-- Settles O17: a step ends in the status its instruction leaves, or Halted, or a fault of the fetch. -/
theorem corruptedStateNeverOccurs : Obligations.CorruptedStateNeverOccurs := by
  intro s t hrun h
  have hs : s.status ≠ .faulted .corruptedState := by simp [hrun]
  rcases step_cases s with ⟨hne, -⟩ | ⟨-, -, hstep⟩ | ⟨r, -, hf, hstep⟩ | ⟨i, -, -, hstep⟩
  · exact absurd hrun hne
  · cases hstep.symm.trans h
    rw [finishStep_status]
    exact nofun
  · cases hstep.symm.trans h
    exact fun hr => fetch_fault_ne_corruptedState hf (Status.faulted.inj hr)
  · cases (hstep _ (exec_eq i s)).symm.trans h
    rw [finishStep_status]
    exact exec_uncorrupted hs (exec_eq i s)

end Sys2Proof.Machine
end

section
/-! PROOF LAYER. A region has one canonical form (log 7; O57). -/

namespace Sys2Proof.Machine

theorem Memory.read_cons_self (a : Nat) (v : Value) (m : Memory) : Memory.read ((a, v) :: m) a = v := if_pos rfl

theorem Memory.read_cons_of_ne {a i : Nat} (h : a ≠ i) (v : Value) (m : Memory) :
    Memory.read ((a, v) :: m) i = m.read i := if_neg h

/-- A listed cell reads as something else than `+0.0`, so regions that read alike agree on which cell is the first. -/
theorem Memory.head_le_of_read_eq {a b : Nat} {v w : Value} {m₁ m₂ : Memory} (h₁ : Memory.wf ((a, v) :: m₁))
    (h₂ : Memory.wf ((b, w) :: m₂)) (h : ∀ i, Memory.read ((a, v) :: m₁) i = Memory.read ((b, w) :: m₂) i) : b ≤ a := by
  by_contra hab
  obtain ⟨-, hv, -⟩ := Memory.wf_cons.mp h₁
  obtain ⟨hlt, -, -⟩ := Memory.wf_cons.mp h₂
  have hunlisted : Memory.read ((b, w) :: m₂) a = Memory.unlisted :=
    Memory.read_of_lt <| List.forall_mem_cons.mpr ⟨not_le.mp hab, fun d hd => (not_le.mp hab).trans (hlt d hd)⟩
  exact hv ((Memory.read_cons_self a v m₁).symm.trans ((h a).trans hunlisted))

/-- Regions in canonical form with the same first cell that read alike have tails that read alike: below and at the first
cell, neither tail lists anything. -/
theorem Memory.tail_read_eq {a : Nat} {v w : Value} {m₁ m₂ : Memory} (h₁ : Memory.wf ((a, v) :: m₁))
    (h₂ : Memory.wf ((a, w) :: m₂)) (h : ∀ i, Memory.read ((a, v) :: m₁) i = Memory.read ((a, w) :: m₂) i) (i : Nat) :
    m₁.read i = m₂.read i := by
  obtain ⟨hlt₁, -, -⟩ := Memory.wf_cons.mp h₁
  obtain ⟨hlt₂, -, -⟩ := Memory.wf_cons.mp h₂
  by_cases hi : a = i
  · subst hi
    rw [Memory.read_of_lt hlt₁, Memory.read_of_lt hlt₂]
  · rw [← Memory.read_cons_of_ne hi v m₁, h i, Memory.read_cons_of_ne hi]

/-- Settles O57, by induction on the two lists: their first cells have the same index, hence the same Value. -/
theorem regionsThatReadAlikeAreEqual : Obligations.RegionsThatReadAlikeAreEqual := by
  intro m₁
  induction m₁ with
  | nil =>
    rintro (_ | ⟨⟨b, w⟩, m₂⟩) - h₂ h
    · rfl
    · obtain ⟨-, hw, -⟩ := Memory.wf_cons.mp h₂
      exact absurd ((h b).trans (Memory.read_cons_self b w m₂)).symm hw
  | cons c m₁ ih =>
    obtain ⟨a, v⟩ := c
    rintro (_ | ⟨⟨b, w⟩, m₂⟩) h₁ h₂ h
    · obtain ⟨-, hv, -⟩ := Memory.wf_cons.mp h₁
      exact absurd ((Memory.read_cons_self a v m₁).symm.trans (h a)) hv
    · obtain rfl : a = b :=
        le_antisymm (Memory.head_le_of_read_eq h₂ h₁ fun i => (h i).symm) (Memory.head_le_of_read_eq h₁ h₂ h)
      have hvw : v = w := by simpa only [Memory.read_cons_self] using h a
      obtain ⟨-, -, htail₁⟩ := Memory.wf_cons.mp h₁
      obtain ⟨-, -, htail₂⟩ := Memory.wf_cons.mp h₂
      rw [hvw, ih m₂ htail₁ htail₂ (Memory.tail_read_eq h₁ h₂ h)]

end Sys2Proof.Machine
end

section
/-! PROOF LAYER. Every step keeps the invariant (`10_state.md` R24, R29 to R31, R35; O20), which holds right after reset
(O19). The invariant speaks of neither `ip`, the registers, gfx, the host's answers, the events nor the draw counter: an
update of one of these keeps it by definition. -/

namespace Sys2Proof.Machine

/-! ### The updates that the invariant speaks of -/

theorem Inv.pushed {s : State} (h : Inv s) {v : Value} (hp : PushGoesThrough s) : Inv (pushed v s) := by
  obtain ⟨hcfg, hsize, hcap, hmax, hlen, hram, hramIn, hvram, hvramIn, hpending⟩ := h
  obtain ⟨hsize', hcap', hmax'⟩ := pushed_within (v := v) hp hsize hcap hmax
  simp only [Inv, State.size, State.len, pushed_cfg, pushed_stream, pushed_ram, pushed_vram, pushed_inputPending,
    pushed_status]
  exact ⟨hcfg, hsize', hcap', hmax', hlen, hram, hramIn, hvram, hvramIn, hpending⟩

theorem Inv.popped {s : State} (h : Inv s) (hp : PopGoesThrough s) : Inv (popped s) := by
  obtain ⟨hcfg, hsize, _, hmax, hlen, hram, hramIn, hvram, hvramIn, hpending⟩ := h
  obtain ⟨hroom, hcap'⟩ := popped_within hp hsize
  simp only [Inv, State.size, State.len, popped_cfg, popped_stream, popped_ram, popped_vram, popped_inputPending,
    popped_status]
  exact ⟨hcfg, hroom.le, Nat.one_le_of_lt hroom, hcap'.trans hmax, hlen, hram, hramIn, hvram, hvramIn, hpending⟩

theorem Inv.setTop {s : State} (h : Inv s) {w : Value} (hs : s.stack = w :: s.stack.tail) (v : Value) :
    Inv (setTop v s) := by
  obtain ⟨hcfg, hsize, hrest⟩ := h
  have hlen : (v :: s.stack.tail).length = s.stack.length := (congrArg List.length hs).symm
  exact ⟨hcfg, hlen.trans_le hsize, hrest⟩

theorem Inv.setVram {s : State} (h : Inv s) {m : Memory} (hwf : m.wf) (hin : m.within s.cfg.vramSize) :
    Inv (s.setVram m) := by
  obtain ⟨hcfg, hsize, hcap, hmax, hlen, hram, hramIn, -, -, hpending⟩ := h
  exact ⟨hcfg, hsize, hcap, hmax, hlen, hram, hramIn, hwf, hin, hpending⟩

theorem Inv.setRam {s : State} (h : Inv s) {m : Memory} (hwf : m.wf) (hin : m.within s.cfg.ramSize) :
    Inv (s.setRam m) := by
  obtain ⟨hcfg, hsize, hcap, hmax, hlen, -, -, hvram, hvramIn, hpending⟩ := h
  exact ⟨hcfg, hsize, hcap, hmax, hlen, hwf, hin, hvram, hvramIn, hpending⟩

/-- A machine in which no read is pending may have any status. -/
theorem Inv.endRead {s : State} (h : Inv s) (st : Status) : Inv ((s.setInputPending false).setStatus st) := by
  obtain ⟨hcfg, hsize, hcap, hmax, hlen, hram, hramIn, hvram, hvramIn, -⟩ := h
  exact ⟨hcfg, hsize, hcap, hmax, hlen, hram, hramIn, hvram, hvramIn, fun hpending => nomatch hpending⟩

theorem Inv.waitForInput {s : State} (h : Inv s) (hrun : s.status = .running) : Inv (s.setInputPending true) := by
  obtain ⟨hcfg, hsize, hcap, hmax, hlen, hram, hramIn, hvram, hvramIn, -⟩ := h
  exact ⟨hcfg, hsize, hcap, hmax, hlen, hram, hramIn, hvram, hvramIn, fun _ => hrun⟩

/-- A place that is a cell of the machine: what `locate` answers. -/
def Place.Exists (c : Config) : Place → Prop
  | .reg _ => True
  | .ram i => i < c.ramSize
  | .vram i => i < c.vramSize

theorem locate_exists {o : Operand} {s t : State} {p : Place} (h : locate o s = .ok p t) : p.Exists s.cfg := by
  obtain ⟨-, ⟨i, h26, -, rfl⟩ | ⟨v, i, -, hi, rfl⟩ | ⟨v, i, -, hi, rfl⟩⟩ := locate_eq_ok h
  · trivial
  · exact toIndex_lt hi
  · exact toIndex_lt hi

theorem Inv.writePlace {s : State} (h : Inv s) {p : Place} (hp : p.Exists s.cfg) (v : Value) :
    Inv (writePlace p v s) := by
  have ⟨_, _, _, _, _, hram, hramIn, hvram, hvramIn, _⟩ := h
  cases p with
  | reg i => exact h
  | ram i => exact h.setRam (Memory.write_wf hram i v) (Memory.write_within hramIn hp v)
  | vram i => exact h.setVram (Memory.write_wf hvram i v) (Memory.write_within hvramIn hp v)

/-! ### The handlers -/

/-- An answer that went through did so in a state of the invariant. -/
def Res.KeepsInv {α : Type} : Res α → Prop
  | .ok _ t => Inv t
  | .raise _ _ => True
  | .wait => True

theorem Res.KeepsInv.ok {α : Type} {a : α} {t : State} (h : Inv t) : (Res.ok a t).KeepsInv := h

theorem Res.KeepsInv.raise {α : Type} {r : FaultReason} {t : State} : (Res.raise r t : Res α).KeepsInv := trivial

theorem Res.KeepsInv.wait {α : Type} : (Res.wait : Res α).KeepsInv := trivial

/-- The second part may use what the first one answered. -/
theorem Res.KeepsInv.bind {α β : Type} {x : Res α} {f : α → State → Res β}
    (h : ∀ a t, x = .ok a t → (f a t).KeepsInv) : (x.bind f).KeepsInv := by
  cases x with
  | ok a t => exact h a t rfl
  | raise r t => exact .raise
  | wait => exact .wait

/-- What follows a `Push` runs in a state of the invariant. -/
theorem Inv.push_bind {s : State} (h : Inv s) (v : Value) {β : Type} {f : Unit → State → Res β}
    (hf : ∀ t, Inv t → (f () t).KeepsInv) : ((push v s).bind f).KeepsInv :=
  .bind fun _ t ht => by
    obtain ⟨hp, rfl⟩ := push_eq_ok ht
    exact hf _ (h.pushed hp)

/-- What follows a `Pop` runs in a state of the invariant, of the same configuration. -/
theorem Inv.pop_bind {s : State} (h : Inv s) {β : Type} {f : Value → State → Res β}
    (hf : ∀ v t, Inv t → t.cfg = s.cfg → (f v t).KeepsInv) : ((pop s).bind f).KeepsInv :=
  .bind fun v t ht => by
    obtain ⟨hp, -, rfl⟩ := pop_eq_ok ht
    exact hf v _ (h.popped hp) (popped_cfg s)

theorem push_proceed_keepsInv {s : State} (h : Inv s) (v : Value) :
    ((push v s).bind fun _ t => .ok Signal.proceed t).KeepsInv :=
  h.push_bind v fun _ ht => .ok ht

/-- Reading a source changes nothing. -/
theorem sourceValue_eq_ok_state {o : Operand} {s t : State} {v : Value} (h : sourceValue o s = .ok v t) : t = s := by
  rw [sourceValue_eq] at h
  split at h
  · cases h
    rfl
  · obtain ⟨p, u, hlocate, hread⟩ := Res.bind_eq_ok.mp h
    obtain ⟨rfl, -⟩ := locate_eq_ok hlocate
    cases hread
    rfl

theorem binary_keepsInv {s : State} (h : Inv s) (op : Value → Value → Value) : (binary op s).KeepsInv :=
  h.pop_bind fun _ _ ht _ => ht.pop_bind fun _ _ hu _ => push_proceed_keepsInv hu _

theorem unary_keepsInv {s : State} (h : Inv s) (f : Value → Value) : (unary f s).KeepsInv :=
  .bind fun v t ht => by
    obtain ⟨hs, rfl⟩ := top_eq_ok ht
    exact .ok (h.setTop hs (f v))

theorem condJump_keepsInv {s : State} (h : Inv s) (cond : Value → Value → Bool) (target : Addr) :
    (condJump cond target s).KeepsInv :=
  h.pop_bind fun _ _ ht _ => ht.pop_bind fun _ _ hu _ => by
    split
    · exact .ok hu
    · exact .ok hu

theorem returnToTop_keepsInv {s : State} (h : Inv s) : (returnToTop s).KeepsInv :=
  .bind fun v t ht => by
    obtain ⟨-, rfl⟩ := top_eq_ok ht
    split
    · exact .raise
    · exact h.pop_bind fun _ _ hu _ => .ok hu

theorem readInput_keepsInv {s : State} (h : Inv s) : (readInput s).KeepsInv := by
  unfold readInput
  split
  · exact .wait
  · exact .raise
  · rename_i v rest _
    have hrest : Inv (s.setInput rest) := h
    exact push_proceed_keepsInv hrest v

theorem popTo_keepsInv {s : State} (h : Inv s) (dest : Operand) : (popTo dest s).KeepsInv :=
  .bind fun p t ht => by
    obtain ⟨rfl, -⟩ := locate_eq_ok ht
    exact h.pop_bind fun v u hu hcfg => .ok (hu.writePlace (hcfg ▸ locate_exists ht) v)

theorem handlerOf_keepsInv (i : Instr) (start : State) {s : State} (h : Inv s) : (handlerOf i start s).KeepsInv := by
  cases i with
  | push source =>
    exact .bind fun v t ht => by
      obtain rfl := sourceValue_eq_ok_state ht
      exact push_proceed_keepsInv h v
  | pop dest => exact popTo_keepsInv h dest
  | dup =>
    exact .bind fun v t ht => by
      obtain ⟨-, rfl⟩ := top_eq_ok ht
      exact push_proceed_keepsInv h v
  | add | sub | mul | div =>
    have hdrawn : Inv (s.setNanDraws (s.nanDraws + 1)) := h
    exact binary_keepsInv hdrawn _
  | sin | cos | sqrt | pw2 | pwInv =>
    have hdrawn : Inv (s.setNanDraws (s.nanDraws + 1)) := h
    exact unary_keepsInv hdrawn _
  | abs => exact unary_keepsInv h fabs
  | inp => exact readInput_keepsInv h
  | out => exact h.pop_bind fun _ _ ht _ => .ok ht
  | ja target | jae target | jb target | jbe target | je target | jne target => exact condJump_keepsInv h _ target
  | call target => exact h.push_bind _ fun _ ht => .ok ht
  | ret => exact returnToTop_keepsInv h
  | gFill => exact h.pop_bind fun v t ht _ => .ok (ht.setVram (Memory.fill_wf _ v) (Memory.fill_within _ v))
  | outN | jmp | halt | gInit | gDrawOn | gDrawOff | gDraw => exact .ok h

/-! ### Instructions and steps -/

theorem Inv.takeFault {s : State} (h : Inv s) (r : FaultReason) (reached : State) : Inv (takeFault r s reached) :=
  h.endRead (.faulted r)

theorem Inv.commit {s : State} (h : Inv s) (hrun : s.status = .running) {x : Res Signal} (hx : x.KeepsInv) :
    Inv (commit s x) := by
  cases x with
  | ok a t =>
    have ht : Inv t := hx
    cases a with
    | proceed => exact ht.endRead t.status
    | jumped => exact ht.endRead t.status
    | halt => exact ht.endRead .halted
  | raise r t => exact h.takeFault r t
  | wait => exact h.waitForInput hrun

theorem Inv.decoded {s : State} (h : Inv s) (i : Instr) : Inv (decoded i s) := h

/-- Every instruction of a running machine keeps the invariant. -/
theorem Inv.exec {s t : State} (h : Inv s) (hrun : s.status = .running) {i : Instr} (he : exec i s = .next t) :
    Inv t := by
  rw [exec_eq] at he
  cases he
  split
  · exact h.takeFault .invalidOperand s
  · split
    · exact h.takeFault .underflow s
    · exact h.commit hrun (handlerOf_keepsInv i s (h.decoded i))

theorem Inv.finishStep {t : State} (h : Inv t) (start : State) : Inv (finishStep start t) := by
  rw [finishStep_eq]
  exact h

/-- Settles O20, by what a step can answer. -/
theorem stepKeepsInv : Obligations.StepKeepsInv := by
  intro s t h hst
  rcases step_cases s with ⟨-, hstep⟩ | ⟨-, -, hstep⟩ | ⟨r, -, -, hstep⟩ | ⟨i, hrun, -, hstep⟩
  · cases hstep.symm.trans hst
    exact h
  · cases hstep.symm.trans hst
    exact (h.endRead .halted).finishStep s
  · cases hstep.symm.trans hst
    exact h.takeFault r s
  · cases (hstep _ (exec_eq i s)).symm.trans hst
    exact (h.exec hrun (exec_eq i s)).finishStep s

/-! ### Reset -/

theorem admissible_referenceConfig : Admissible referenceConfig := by decide

/-- Settles O19: reset is construction with the reference configuration (`70_reset_and_hazards.md` R155). -/
theorem invHoldsAfterReset : Obligations.InvHoldsAfterReset :=
  inv_construct admissible_referenceConfig _ _

end Sys2Proof.Machine
end

section
/-! PROOF LAYER. What the decoder reads is the encoding of the instruction that it answers, and so a decoded instruction
ends inside the stream (`20_memory.md` R38; `30_encoding.md` R68; O16). -/

namespace Sys2Proof

/-- A reader that answers has read something, and answers what it makes of it. -/
theorem Read.map_eq_ok {α β : Type} {x : Read α} {f : α × List Byte → β} {b : β} (h : x.map f = .ok b) :
    ∃ a, x = .ok a ∧ f a = b := by
  cases x with
  | error err => cases h
  | ok a => exact ⟨a, rfl, Except.ok.inj h⟩

theorem decodeTail_eq_ok {tags : TagMap} {g : Tag} {bs rest : List Byte} {o : Operand}
    (h : decodeTail g bs = .ok (o, rest)) : tags.code g :: bs = encodeOperand tags o ++ rest := by
  cases g with
  | reg =>
    obtain ⟨⟨i, r⟩, hread, hfield⟩ := Read.map_eq_ok h
    cases hfield
    rw [readByte_eq_ok hread]
    rfl
  | const | ram | vram =>
    obtain ⟨⟨v, r⟩, hread, hfield⟩ := Read.map_eq_ok h
    cases hfield
    rw [readValue_eq_ok hread]
    rfl

theorem decodeOperand_eq_ok {tags : TagMap} {allowed : List Tag} {bs rest : List Byte} {o : Operand}
    (h : decodeOperand tags allowed bs = .ok (o, rest)) : bs = encodeOperand tags o ++ rest := by
  unfold decodeOperand at h
  split at h
  · cases h
  · rename_i b r hread
    split at h
    · cases h
    · rename_i g hlookup
      obtain ⟨-, hcode⟩ := TagMap.lookup_code hlookup
      rw [readByte_eq_ok hread, ← hcode]
      exact decodeTail_eq_ok h

/-- The bytes that are read as an instruction are its encoding. -/
theorem decode_eq_ok {e : Encoding} {bs rest : List Byte} {i : Instr} (h : decode e bs = .ok (i, rest)) :
    bs = encode e i ++ rest := by
  unfold decode at h
  split at h
  · cases h
  · rename_i b r hread
    split at h
    · cases h
    · rename_i m hlookup
      rw [readByte_eq_ok hread, ← OpcodeMap.lookup_code hlookup]
      cases m with
      | push | pop =>
        obtain ⟨⟨o, r'⟩, hoperand, hfield⟩ := Read.map_eq_ok h
        cases hfield
        rw [decodeOperand_eq_ok hoperand]
        rfl
      | jmp | ja | jae | jb | jbe | je | jne | call =>
        obtain ⟨⟨a, r'⟩, haddress, hfield⟩ := Read.map_eq_ok h
        cases hfield
        rw [readAddress_eq_ok haddress]
        rfl
      | _ =>
        cases h
        rfl

theorem encode_length (e : Encoding) (i : Instr) : (encode e i).length = i.length := by
  cases i with
  | push source => exact (Laws.EncodeLength.push source e).2
  | pop dest => exact (Laws.EncodeLength.pop dest e).2
  | jmp target => exact (Laws.EncodeLength.jmp target e).2
  | ja target => exact (Laws.EncodeLength.ja target e).2
  | jae target => exact (Laws.EncodeLength.jae target e).2
  | jb target => exact (Laws.EncodeLength.jb target e).2
  | jbe target => exact (Laws.EncodeLength.jbe target e).2
  | je target => exact (Laws.EncodeLength.je target e).2
  | jne target => exact (Laws.EncodeLength.jne target e).2
  | call target => exact (Laws.EncodeLength.call target e).2
  | _ => rfl

end Sys2Proof

namespace Sys2Proof.Machine

/-- A decoded instruction ends inside the stream. -/
theorem decode_end_le {s : State} {i : Instr} {rest : List Byte} (hip : s.ip.toNat < s.stream.length)
    (h : decode s.cfg.encoding (s.stream.drop s.ip.toNat) = .ok (i, rest)) :
    s.ip.toNat + i.length ≤ s.stream.length := by
  have hlen := congrArg List.length (decode_eq_ok h)
  rw [List.length_drop, List.length_append, encode_length] at hlen
  omega

/-- Settles O16: the instruction ends inside the stream, which the invariant bounds by 2^53 bytes. -/
theorem ipNeverWraps : Obligations.IpNeverWraps := by
  intro s i rest hinv hip hdecode
  obtain ⟨⟨-, -, -, -, -, -, hmax, -⟩, -, -, -, hprogram, -⟩ := hinv
  have hend := decode_end_le hip hdecode
  have hlt : s.ip.toNat + i.length < 2 ^ 64 :=
    (hend.trans (hprogram.trans hmax)).trans_lt (Nat.pow_lt_pow_right (by decide) (by decide))
  refine ⟨?_, hend⟩
  rw [BitVec.toNat_add, BitVec.toNat_ofNat, Nat.add_mod_mod, Nat.mod_eq_of_lt hlt]

end Sys2Proof.Machine
end

section
/-! PROOF LAYER. Only an `in` that the host has not answered waits, and a waiting step changes the pending read alone
(`40_execution_engine.md` R95; O46). -/

namespace Sys2Proof.Machine

theorem push_proceed_ne_wait (v : Value) (s : State) : ((push v s).bind fun _ t => .ok Signal.proceed t) ≠ .wait := by
  simp [Res.bind_eq_wait, push_ne_wait]

theorem binary_ne_wait (op : Value → Value → Value) (s : State) : binary op s ≠ .wait := by
  simp [binary, Res.bind_eq_wait, pop_ne_wait, push_ne_wait]

theorem unary_ne_wait (f : Value → Value) (s : State) : unary f s ≠ .wait := by
  simp [unary, Res.bind_eq_wait, top_ne_wait]

theorem condJump_ne_wait (cond : Value → Value → Bool) (target : Addr) (s : State) :
    condJump cond target s ≠ .wait := by
  simp only [condJump, ne_eq, Res.bind_eq_wait, pop_ne_wait, false_or]
  rintro ⟨a, s', -, b, t, -, h⟩
  split at h <;> cases h

theorem returnToTop_ne_wait (s : State) : returnToTop s ≠ .wait := by
  simp only [returnToTop, ne_eq, Res.bind_eq_wait, top_ne_wait, false_or]
  rintro ⟨v, t, -, h⟩
  split at h
  · cases h
  · simp [Res.bind_eq_wait, pop_ne_wait] at h

theorem sourceValue_ne_wait (o : Operand) (s : State) : sourceValue o s ≠ .wait := by
  cases o <;> simp [sourceValue, Res.bind_eq_wait, locate_ne_wait]

theorem readInput_eq_wait {s : State} (h : readInput s = .wait) : s.input = [] := by
  unfold readInput at h
  split at h
  · assumption
  · cases h
  · exact absurd h (push_proceed_ne_wait _ _)

theorem handlerOf_eq_wait {i : Instr} {start s : State} (h : handlerOf i start s = .wait) :
    i = .inp ∧ s.input = [] := by
  cases i with
  | inp => exact ⟨rfl, readInput_eq_wait h⟩
  | push source => simp [handlerOf, Res.bind_eq_wait, sourceValue_ne_wait, push_ne_wait] at h
  | pop dest => simp [handlerOf, popTo, Res.bind_eq_wait, locate_ne_wait, pop_ne_wait] at h
  | dup => simp [handlerOf, Res.bind_eq_wait, top_ne_wait, push_ne_wait] at h
  | add | sub | mul | div => exact absurd h (binary_ne_wait _ _)
  | sin | cos | sqrt | pw2 | pwInv | abs => exact absurd h (unary_ne_wait _ _)
  | ja | jae | jb | jbe | je | jne => exact absurd h (condJump_ne_wait _ _ _)
  | ret => exact absurd h (returnToTop_ne_wait s)
  | call => simp [handlerOf, Res.bind_eq_wait, push_ne_wait] at h
  | out | gFill => simp [handlerOf, Res.bind_eq_wait, pop_ne_wait] at h
  | outN | jmp | halt | gInit | gDrawOn | gDrawOff | gDraw => cases h

/-- The end of a handler leaves a read pending only where the handler waits. -/
theorem commit_inputPending {s : State} {x : Res Signal} (h : (commit s x).inputPending = true) : x = .wait := by
  rcases commit_cases s x with ⟨t, -, hc⟩ | ⟨t, -, hc⟩ | ⟨t, -, hc⟩ | ⟨r, t, -, hc⟩ | ⟨hx, -⟩
  · simp [hc] at h
  · simp [hc] at h
  · simp [hc] at h
  · simp [hc] at h
  · exact hx

theorem exec_inp_waits {s : State} (h : s.input = []) : exec .inp s = .next { s with inputPending := true } := by
  have hwait : handlerOf .inp s (decoded .inp s) = .wait := by
    simp [handlerOf, readInput, decoded, h]
  rw [exec_eq, hwait]
  rfl

theorem exec_inputPending {i : Instr} {s t : State} (h : exec i s = .next t) (ht : t.inputPending = true) :
    i = .inp ∧ s.input = [] := by
  rw [exec_eq] at h
  cases h
  split at ht
  · cases ht
  · split at ht
    · cases ht
    · exact handlerOf_eq_wait (s := decoded i s) (commit_inputPending ht)

theorem finishStep_inputPending (start t : State) : (finishStep start t).inputPending = t.inputPending := by
  rw [finishStep_eq]

/-- A step that waits does not complete, so no Render ends it. -/
theorem finishStep_of_pending (start : State) {t : State} (h : t.inputPending = true) : finishStep start t = t := by
  have hc : completed t = false := by
    unfold completed
    split <;> simp [h]
  simp [finishStep, hc]

theorem step_inp_waits {s : State} (hrun : s.status = .running) (hf : fetch s = .instr .inp) (h : s.input = []) :
    step s = .next { s with inputPending := true } := by
  rcases step_cases s with ⟨hne, -⟩ | ⟨-, hf', -⟩ | ⟨r, -, hf', -⟩ | ⟨i, -, hf', hstep⟩
  · exact absurd hrun hne
  · cases hf.symm.trans hf'
  · cases hf.symm.trans hf'
  · cases hf.symm.trans hf'
    rw [hstep _ (exec_inp_waits h), finishStep_of_pending s rfl]

/-- A read is pending after a step only where the step fetched an `in` that the host has not answered. -/
theorem step_inputPending {s t : State} (hrun : s.status = .running) (h : step s = .next t)
    (ht : t.inputPending = true) : fetch s = .instr .inp ∧ s.input = [] := by
  rcases step_cases s with ⟨hne, -⟩ | ⟨-, -, hstep⟩ | ⟨r, -, -, hstep⟩ | ⟨i, -, hf, hstep⟩
  · exact absurd hrun hne
  · cases hstep.symm.trans h
    rw [finishStep_inputPending] at ht
    cases ht
  · cases hstep.symm.trans h
    cases ht
  · cases (hstep _ (exec_eq i s)).symm.trans h
    rw [finishStep_inputPending] at ht
    obtain ⟨rfl, hinput⟩ := exec_inputPending (exec_eq i s) ht
    exact ⟨hf, hinput⟩

/-- Settles O46: neither the fetch nor `in` reads the pending read, so a held `in` holds again. -/
theorem inHoldsUntilAnswered : Obligations.InHoldsUntilAnswered := by
  refine ⟨fun _ => exec_inp_waits, fun s hrun hf hinput => ⟨step_inp_waits hrun hf hinput, ?_⟩,
    fun s t hrun h ht => ?_⟩
  · exact step_inp_waits (s := { s with inputPending := true }) hrun hf hinput
  · obtain ⟨hf, hinput⟩ := step_inputPending hrun h ht
    cases (step_inp_waits hrun hf hinput).symm.trans h
    exact ⟨hf, hinput, rfl⟩

end Sys2Proof.Machine
end

section
/-! PROOF LAYER. The capacity and the allocator decide nothing but which allocations fail (`10_state.md` R29; O58): two
runs of a handler from states that differ only in them answer alike, unless one of the two raises ReallocFailed. -/

namespace Sys2Proof.Machine

/-! ### States that differ only in the storage of the stack -/

/-- The second state is the first but for the capacity and the allocator. -/
def SameButStorage (s t : State) : Prop := ∃ cap alloc, t = { s with cap := cap, alloc := alloc }

/-- An operation that works on the other fields, whatever it does to the storage. -/
theorem SameButStorage.map {s t : State} (h : SameButStorage s t) {f : State → State}
    (hf : ∀ cap alloc, SameButStorage (f s) (f { s with cap := cap, alloc := alloc })) : SameButStorage (f s) (f t) := by
  obtain ⟨cap, alloc, rfl⟩ := h
  exact hf cap alloc

theorem SameButStorage.stack_eq {s t : State} (h : SameButStorage s t) : t.stack = s.stack := by
  obtain ⟨_, _, rfl⟩ := h
  rfl

/-- A push that goes through leaves in either state all but the storage as it was, and the Value on top. -/
theorem SameButStorage.pushed {s t : State} (h : SameButStorage s t) (v : Value) :
    SameButStorage (pushed v s) (pushed v t) :=
  h.map fun cap alloc => by
    refine ⟨(Machine.pushed v { s with cap := cap, alloc := alloc }).cap,
      (Machine.pushed v { s with cap := cap, alloc := alloc }).alloc, ?_⟩
    ext1 <;> simp

theorem SameButStorage.popped {s t : State} (h : SameButStorage s t) : SameButStorage (popped s) (popped t) :=
  h.map fun cap alloc => by
    refine ⟨(Machine.popped { s with cap := cap, alloc := alloc }).cap,
      (Machine.popped { s with cap := cap, alloc := alloc }).alloc, ?_⟩
    ext1 <;> simp

theorem SameButStorage.writePlace {s t : State} (h : SameButStorage s t) (p : Place) (v : Value) :
    SameButStorage (writePlace p v s) (writePlace p v t) :=
  h.map fun cap alloc => ⟨cap, alloc, by cases p <;> rfl⟩

/-! ### Answers that differ only in the storage -/

/-- Two answers that are alike but for the storage, unless one of them is a failed allocation. -/
inductive Res.Agree {α : Type} : Res α → Res α → Prop
  | ok (a : α) {s t : State} (h : SameButStorage s t) : Agree (.ok a s) (.ok a t)
  | raise (r : FaultReason) {s t : State} (h : SameButStorage s t) : Agree (.raise r s) (.raise r t)
  | wait : Agree .wait .wait
  | leftFails (s : State) (y : Res α) : Agree (.raise .reallocFailed s) y
  | rightFails (x : Res α) (t : State) : Agree x (.raise .reallocFailed t)

/-- From states alike but for the storage, a part of a handler answers alike. -/
def StorageBlind {α : Type} (handler : State → Res α) : Prop :=
  ∀ s t : State, SameButStorage s t → (handler s).Agree (handler t)

theorem Res.Agree.bind {α β : Type} {x y : Res α} {f g : α → State → Res β} (h : x.Agree y)
    (hfg : ∀ a s t, SameButStorage s t → (f a s).Agree (g a t)) : (x.bind f).Agree (y.bind g) := by
  cases h with
  | ok a h => exact hfg a _ _ h
  | raise r h => exact .raise r h
  | wait => exact .wait
  | leftFails s y => exact .leftFails s _
  | rightFails x t => exact .rightFails _ t

theorem StorageBlind.bind {α β : Type} {x : State → Res α} {f : α → State → Res β} (hx : StorageBlind x)
    (hf : ∀ a, StorageBlind (f a)) : StorageBlind fun s => (x s).bind f :=
  fun s t h => (hx s t h).bind hf

theorem storageBlind_ok {α : Type} (a : α) : StorageBlind (.ok a) := fun _ _ h => .ok a h

/-- The end of a handler that updates a field which is no part of the storage. -/
theorem StorageBlind.update {α : Type} (a : α) {f : State → State}
    (hf : ∀ s cap alloc, f { s with cap := cap, alloc := alloc } = { f s with cap := cap, alloc := alloc }) :
    StorageBlind fun s => .ok a (f s) :=
  fun _ _ h => .ok a (h.map fun cap alloc => ⟨cap, alloc, hf _ cap alloc⟩)

/-! ### The shared operations -/

theorem push_storageBlind (v : Value) : StorageBlind (push v) := by
  intro s t h
  rw [push_eq, push_eq]
  split
  · split
    · exact .ok () (h.pushed v)
    · split <;> exact .rightFails _ _
  · split <;> exact .leftFails _ _

theorem pop_storageBlind : StorageBlind pop := by
  intro s t h
  cases hs : s.stack with
  | nil =>
    rw [pop_nil hs, pop_nil (h.stack_eq.trans hs)]
    exact .raise .underflow h
  | cons v rest =>
    rw [pop_cons hs, pop_cons (h.stack_eq.trans hs)]
    split
    · split
      · exact .ok v h.popped
      · exact .rightFails _ _
    · exact .leftFails _ _

theorem top_nil {s : State} (hs : s.stack = []) : top s = .raise .underflow s := by
  simp [top, hs]

theorem top_storageBlind : StorageBlind top := by
  intro s t h
  cases hs : s.stack with
  | nil =>
    rw [top_nil hs, top_nil (h.stack_eq.trans hs)]
    exact .raise .underflow h
  | cons v rest =>
    rw [top_cons hs, top_cons (h.stack_eq.trans hs)]
    exact .ok v h

/-- The region sizes, which decide what an operand names, are part of the configuration. -/
theorem locate_storageBlind (o : Operand) : StorageBlind (locate o) := by
  rintro s _ ⟨cap, alloc, rfl⟩
  have h : SameButStorage s { s with cap := cap, alloc := alloc } := ⟨cap, alloc, rfl⟩
  cases o with
  | const v => exact .raise .invalidOperand h
  | reg i =>
    by_cases hi : i.toNat < 26
    · simpa only [locate, dif_pos hi] using Res.Agree.ok _ h
    · simpa only [locate, dif_neg hi] using Res.Agree.raise _ h
  | ram v =>
    cases hi : toIndex v s.cfg.ramSize with
    | none => simpa only [locate, hi] using Res.Agree.raise _ h
    | some i => simpa only [locate, hi] using Res.Agree.ok _ h
  | vram v =>
    cases hi : toIndex v s.cfg.vramSize with
    | none => simpa only [locate, hi] using Res.Agree.raise _ h
    | some i => simpa only [locate, hi] using Res.Agree.ok _ h

theorem readPlace_storageBlind (p : Place) : StorageBlind fun s => .ok (readPlace p s) s := by
  rintro s _ ⟨cap, alloc, rfl⟩
  exact .ok _ ⟨cap, alloc, rfl⟩

theorem sourceValue_storageBlind (o : Operand) : StorageBlind (sourceValue o) := by
  have hread : StorageBlind fun s => (locate o s).bind fun p s => .ok (readPlace p s) s :=
    (locate_storageBlind o).bind readPlace_storageBlind
  cases o with
  | const v => exact storageBlind_ok v
  | reg i => exact hread
  | ram v => exact hread
  | vram v => exact hread

/-! ### The handlers -/

theorem push_proceed_storageBlind (v : Value) : StorageBlind fun s => (push v s).bind fun _ t => .ok Signal.proceed t :=
  (push_storageBlind v).bind fun _ => storageBlind_ok _

theorem binary_storageBlind (op : Value → Value → Value) : StorageBlind (binary op) :=
  pop_storageBlind.bind fun _ => pop_storageBlind.bind fun _ => push_proceed_storageBlind _

theorem unary_storageBlind (f : Value → Value) : StorageBlind (unary f) :=
  top_storageBlind.bind fun v => .update _ (f := setTop (f v)) fun _ _ _ => rfl

/-- The draw depends on its counter only. -/
theorem drawing_storageBlind {handler : Value → State → Res Signal} (h : ∀ nan, StorageBlind (handler nan)) :
    StorageBlind (drawing handler) := by
  rintro s _ ⟨cap, alloc, rfl⟩
  exact h s.nanDraw _ _ ⟨cap, alloc, rfl⟩

theorem setPosition_storageBlind (target : Addr) : StorageBlind fun s => .ok Signal.jumped (setPosition target s) :=
  .update _ fun _ _ _ => rfl

theorem condJump_storageBlind (cond : Value → Value → Bool) (target : Addr) : StorageBlind (condJump cond target) :=
  pop_storageBlind.bind fun _ => pop_storageBlind.bind fun _ _ _ h => by
    split
    · exact setPosition_storageBlind target _ _ h
    · exact .ok _ h

theorem returnToTop_storageBlind : StorageBlind returnToTop :=
  top_storageBlind.bind fun _ _ _ h => by
    split
    · exact .raise .outOfBounds h
    · exact pop_storageBlind.bind (fun _ => setPosition_storageBlind _) _ _ h

theorem readInput_storageBlind : StorageBlind readInput := by
  rintro s _ ⟨cap, alloc, rfl⟩
  unfold readInput
  dsimp only
  split
  · exact .wait
  · exact .raise .inputFailed ⟨cap, alloc, rfl⟩
  · exact push_proceed_storageBlind _ _ _ ⟨cap, alloc, rfl⟩

theorem popTo_storageBlind (dest : Operand) : StorageBlind (popTo dest) :=
  (locate_storageBlind dest).bind fun p => pop_storageBlind.bind fun v _ _ h => .ok _ (h.writePlace p v)

theorem handlerOf_storageBlind (i : Instr) (start : State) : StorageBlind (handlerOf i start) := by
  cases i with
  | push source => exact (sourceValue_storageBlind source).bind push_proceed_storageBlind
  | pop dest => exact popTo_storageBlind dest
  | dup => exact top_storageBlind.bind push_proceed_storageBlind
  | add | sub | mul | div => exact drawing_storageBlind fun _ => binary_storageBlind _
  | sin | cos | sqrt => exact drawing_storageBlind fun _ => unary_storageBlind _
  | pw2 => exact drawing_storageBlind fun nan => unary_storageBlind fun v => fmul nan v v
  | pwInv => exact drawing_storageBlind fun nan => unary_storageBlind fun v => fdiv nan one v
  | abs => exact unary_storageBlind fabs
  | inp => exact readInput_storageBlind
  | out => exact pop_storageBlind.bind fun v => .update _ (f := emit (.out v)) fun _ _ _ => rfl
  | ja | jae | jb | jbe | je | jne => exact condJump_storageBlind _ _
  | call target =>
    rintro s _ ⟨cap, alloc, rfl⟩
    exact (push_storageBlind (valueOfNat s.ip.toNat)).bind (fun _ => setPosition_storageBlind target) _ _
      ⟨cap, alloc, rfl⟩
  | ret => exact returnToTop_storageBlind
  | gFill =>
    exact pop_storageBlind.bind fun v =>
      .update _ (f := fun s => s.setVram (Memory.fill s.cfg.vramSize v)) fun _ _ _ => rfl
  | halt => exact storageBlind_ok _
  | jmp target => exact setPosition_storageBlind target
  | outN | gInit | gDrawOn | gDrawOff | gDraw =>
    rintro s _ ⟨cap, alloc, rfl⟩
    exact .ok _ ⟨cap, alloc, rfl⟩

/-! ### Instructions -/

/-- `je` and `jne` take nothing of the storage from the state at their opcode. -/
theorem SameButStorage.handlerOf_eq {s t : State} (h : SameButStorage s t) (i : Instr) :
    handlerOf i t = handlerOf i s := by
  obtain ⟨_, _, rfl⟩ := h
  cases i <;> rfl

theorem SameButStorage.decoded {s t : State} (h : SameButStorage s t) (i : Instr) :
    SameButStorage (decoded i s) (decoded i t) :=
  h.map fun cap alloc => ⟨cap, alloc, rfl⟩

theorem SameButStorage.faultedAt {s t : State} (h : SameButStorage s t) (r : FaultReason) :
    SameButStorage (faultedAt r s) (faultedAt r t) :=
  h.map fun cap alloc => ⟨cap, alloc, rfl⟩

theorem SameButStorage.commit {s t : State} (h : SameButStorage s t) {x y : Res Signal} (hxy : x.Agree y)
    (hs : (commit s x).status ≠ .faulted .reallocFailed) (ht : (commit t y).status ≠ .faulted .reallocFailed) :
    SameButStorage (commit s x) (commit t y) := by
  cases hxy with
  | ok a hst =>
    obtain ⟨cap, alloc, rfl⟩ := hst
    cases a <;> exact ⟨cap, alloc, rfl⟩
  | raise r hst =>
    obtain ⟨cap, _, rfl⟩ := h
    obtain ⟨_, alloc, rfl⟩ := hst
    exact ⟨cap, alloc, rfl⟩
  | wait =>
    obtain ⟨cap, alloc, rfl⟩ := h
    exact ⟨cap, alloc, rfl⟩
  | leftFails u y => exact absurd rfl hs
  | rightFails x u => exact absurd rfl ht

theorem SameButStorage.exec {s t s' t' : State} (h : SameButStorage s t) {i : Instr} (hs : exec i s = .next s')
    (ht : exec i t = .next t') (hs' : s'.status ≠ .faulted .reallocFailed)
    (ht' : t'.status ≠ .faulted .reallocFailed) : SameButStorage s' t' := by
  rw [exec_eq] at hs ht
  rw [h.stack_eq, h.handlerOf_eq] at ht
  cases hs
  cases ht
  by_cases hwf : ¬ i.wellFormed = true
  · simpa only [if_pos hwf] using h.faultedAt .invalidOperand
  by_cases hdepth : s.stack.length < stackIn i.mnemonic
  · simpa only [if_neg hwf, if_pos hdepth] using h.faultedAt .underflow
  simp only [if_neg hwf, if_neg hdepth] at hs' ht' ⊢
  exact h.commit (handlerOf_storageBlind i s _ _ (h.decoded i)) hs' ht'

/-- Settles O58: the two runs of the handler answer alike, and neither is a failed allocation. -/
theorem capacityDecidesOnlyAllocationFailure : Obligations.CapacityDecidesOnlyAllocationFailure := by
  intro i s t u cap alloc _ hs hu ht' hu'
  have hsame : SameButStorage s { s with cap := cap, alloc := alloc } := ⟨cap, alloc, rfl⟩
  obtain ⟨_, _, rfl⟩ := hsame.exec hs hu ht' hu'
  rfl

end Sys2Proof.Machine
end

section
/-! PROOF LAYER. What an instruction leaves, from what its handler answers. A push or a pop either goes through or takes
the fault ReallocFailed (`20_memory.md` R53 to R56, R58), and an operand either names a cell or takes the fault
OutOfBounds (R49, R52). -/

namespace Sys2Proof.Machine

/-- A well-formed instruction that finds the Values it needs runs its handler. -/
theorem exec_eq_commit {i : Instr} {s : State} (hwf : i.wellFormed = true)
    (hdepth : stackIn i.mnemonic ≤ s.stack.length) :
    exec i s = .next (commit s (handlerOf i s (decoded i s))) := by
  rw [exec_eq, if_neg (not_not_intro hwf), if_neg (Nat.not_lt.mpr hdepth)]

theorem one_le_length_of_cons {s : State} {v : Value} {rest : List Value} (hs : s.stack = v :: rest) :
    1 ≤ s.stack.length :=
  List.length_pos_iff_exists_cons.mpr ⟨v, rest, hs⟩

/-! ### Pushes and pops that cannot be had -/

theorem push_of_refused {s : State} (h : ¬ PushGoesThrough s) (v : Value) :
    push v s = .raise .reallocFailed (s.setAlloc (pushRefused s).alloc) := by
  rw [push_eq, if_neg h]
  unfold pushRefused
  split <;> rfl

theorem pop_of_refused {s : State} {v : Value} {rest : List Value} (hs : s.stack = v :: rest)
    (h : ¬ PopGoesThrough s) :
    pop s = .raise .reallocFailed ((s.setStack rest).setAlloc s.alloc.advance) := by
  rw [pop_cons hs, if_neg h]

/-- An instruction whose handler comes to a push that cannot be had: only the answers that it took stay taken. -/
theorem exec_eq_pushRefused {i : Instr} {s : State} (hwf : i.wellFormed = true)
    (hdepth : stackIn i.mnemonic ≤ s.stack.length) (h : ¬ PushGoesThrough s) {v : Value} {input : List InputAnswer}
    {f : Unit → State → Res Signal}
    (hh : handlerOf i s (decoded i s) = (push v ((decoded i s).setInput input)).bind f) :
    exec i s = .next { pushRefused s with input := input } := by
  have hrefused : ¬ PushGoesThrough ((decoded i s).setInput input) := h
  rw [exec_eq_commit hwf hdepth, hh, push_of_refused hrefused]
  rfl

/-- An instruction whose handler begins with a pop whose shrink is refused. -/
theorem exec_eq_popRefused {i : Instr} {s : State} (hwf : i.wellFormed = true)
    (hdepth : stackIn i.mnemonic ≤ s.stack.length) {v : Value} {rest : List Value} (hs : s.stack = v :: rest)
    (h : ¬ PopGoesThrough s) {draws : Nat} {f : Value → State → Res Signal}
    (hh : handlerOf i s (decoded i s) = (pop ((decoded i s).setNanDraws draws)).bind f) :
    exec i s = .next (popRefused s) := by
  have hs' : ((decoded i s).setNanDraws draws).stack = v :: rest := hs
  have hrefused : ¬ PopGoesThrough ((decoded i s).setNanDraws draws) := h
  rw [exec_eq_commit hwf hdepth, hh, pop_of_refused hs' hrefused]
  rfl

/-! ### The operand of `push` and `pop` -/

/-- The cell that an operand names, if there is one. -/
def placeOf (c : Config) : Operand → Option Place
  | .const _ => none
  | .reg i => if h : i.toNat < 26 then some (.reg ⟨i.toNat, h⟩) else none
  | .ram v => (toIndex v c.ramSize).map .ram
  | .vram v => (toIndex v c.vramSize).map .vram

theorem placeOf_reg (c : Config) {i : Byte} (h : i.toNat < 26) : placeOf c (.reg i) = some (.reg ⟨i.toNat, h⟩) :=
  dif_pos h

theorem placeOf_ram {c : Config} {v : Value} {k : Nat} (h : toIndex v c.ramSize = some k) :
    placeOf c (.ram v) = some (.ram k) :=
  congrArg (Option.map Place.ram) h

theorem placeOf_vram {c : Config} {v : Value} {k : Nat} (h : toIndex v (c.vramW * c.vramH) = some k) :
    placeOf c (.vram v) = some (.vram k) :=
  congrArg (Option.map Place.vram) h

theorem placeOf_reg_eq_none (c : Config) {i : Byte} (h : 26 ≤ i.toNat) : placeOf c (.reg i) = none :=
  dif_neg (Nat.not_lt.mpr h)

theorem placeOf_ram_eq_none {c : Config} {v : Value} (h : toIndex v c.ramSize = none) : placeOf c (.ram v) = none :=
  congrArg (Option.map Place.ram) h

theorem placeOf_vram_eq_none {c : Config} {v : Value} (h : toIndex v (c.vramW * c.vramH) = none) :
    placeOf c (.vram v) = none :=
  congrArg (Option.map Place.vram) h

/-- A constant names no cell. -/
theorem isDestination_of_placeOf {c : Config} {o : Operand} {p : Place} (h : placeOf c o = some p) :
    o.isDestination = true := by
  cases o with
  | const v => cases h
  | reg i | ram v | vram v => rfl

theorem locate_of_placeOf {o : Operand} {s : State} {p : Place} (h : placeOf s.cfg o = some p) :
    locate o s = .ok p s := by
  cases o with
  | const v => cases h
  | reg i =>
    obtain ⟨hi, hp⟩ := Option.dite_none_right_eq_some.mp h
    cases hp
    exact dif_pos hi
  | ram v | vram v =>
    obtain ⟨k, hk, rfl⟩ := Option.map_eq_some_iff.mp h
    simp only [locate, hk]

theorem locate_of_placeOf_eq_none {o : Operand} {s : State} (hd : o.isDestination = true)
    (h : placeOf s.cfg o = none) : locate o s = .raise .outOfBounds s := by
  cases o with
  | const v => cases hd
  | reg i =>
    have hi : ¬ i.toNat < 26 := fun hi => nomatch (placeOf_reg s.cfg hi).symm.trans h
    exact dif_neg hi
  | ram v | vram v => simp only [locate, Option.map_eq_none_iff.mp h]

/-- A source that is no constant is read from the cell that it names. -/
theorem sourceValue_eq_locate {o : Operand} (hd : o.isDestination = true) (s : State) :
    sourceValue o s = (locate o s).bind fun p t => .ok (readPlace p t) t := by
  cases o with
  | const v => cases hd
  | reg i | ram v | vram v => rfl

theorem sourceValue_of_placeOf {o : Operand} {s : State} {p : Place} (h : placeOf s.cfg o = some p) :
    sourceValue o s = .ok (readPlace p s) s := by
  rw [sourceValue_eq_locate (isDestination_of_placeOf h), locate_of_placeOf h, Res.bind_ok]

end Sys2Proof.Machine
end

section
/-! PROOF LAYER. `push`, `pop` and `ret`, where they go through and where they fault (`41_stack_transfer.md` R97, R98;
`44_control.md` R129; O26, O27, O28, O52). -/

namespace Sys2Proof.Machine

/-! ### `push` -/

/-- After its source is read, `push` is a push. -/
theorem handlerOf_push {o : Operand} {u : State} {v : Value} (hv : sourceValue o u = .ok v u) (start : State) :
    handlerOf (.push o) start u = (push v u).bind fun _ t => .ok .proceed t := by
  simp only [handlerOf, hv, Res.bind_ok]

theorem exec_push {o : Operand} {s : State} {v : Value}
    (hv : sourceValue o (decoded (.push o) s) = .ok v (decoded (.push o) s)) (h : PushGoesThrough s) :
    exec (.push o) s = .next { pushed v s with
      ip := s.ip + BitVec.ofNat 64 (Instr.push o).length, inputPending := false } := by
  have hpush : push v (decoded (.push o) s) = .ok () (pushed v (decoded (.push o) s)) := push_ok h
  rw [exec_eq_commit rfl (Nat.zero_le _), handlerOf_push hv, hpush, decoded, pushed_setIp]
  rfl

theorem exec_push_of_place {o : Operand} {s : State} {p : Place} (hp : placeOf s.cfg o = some p)
    (h : PushGoesThrough s) :
    exec (.push o) s = .next { pushed (readPlace p s) s with
      ip := s.ip + BitVec.ofNat 64 (Instr.push o).length, inputPending := false } := by
  rw [exec_push (sourceValue_of_placeOf (s := decoded (.push o) s) hp) h]
  cases p <;> rfl

/-- Settles O26: a source is a constant, or it names a cell and gives the Value there. -/
theorem pushPushesItsSource : Obligations.PushPushesItsSource := fun _ h =>
  ⟨fun _ => exec_push rfl h, fun _ hi => exec_push_of_place (placeOf_reg _ hi) h,
    fun _ _ hk => exec_push_of_place (placeOf_ram hk) h, fun _ _ hk => exec_push_of_place (placeOf_vram hk) h⟩

/-! ### `pop` -/

theorem popTo_of_placeOf {o : Operand} {u : State} {p : Place} (hp : placeOf u.cfg o = some p) :
    popTo o u = (pop u).bind fun v t => .ok .proceed (writePlace p v t) := by
  rw [popTo, locate_of_placeOf hp, Res.bind_ok]

theorem exec_pop_of_place {o : Operand} {s : State} {p : Place} {v : Value} {rest : List Value}
    (hp : placeOf s.cfg o = some p) (hs : s.stack = v :: rest) (h : PopGoesThrough s) :
    exec (.pop o) s = .next (((writePlace p v (popped s)).setIp
      (s.ip + BitVec.ofNat 64 (Instr.pop o).length)).setInputPending false) := by
  have hhandler : handlerOf (.pop o) s (decoded (.pop o) s) =
      (pop (decoded (.pop o) s)).bind fun v t => .ok .proceed (writePlace p v t) := popTo_of_placeOf hp
  have hpop : pop (decoded (.pop o) s) = .ok v (popped (decoded (.pop o) s)) := pop_ok hs h
  rw [exec_eq_commit (i := .pop o) (isDestination_of_placeOf hp) (one_le_length_of_cons hs), hhandler, hpop, decoded,
    popped_setIp]
  cases p <;> rfl

theorem Memory.read_write_self_and_others {m : Memory} (hm : m.wf) (k : Nat) (v : Value) :
    (m.write k v).read k = v ∧ ∀ j, j ≠ k → (m.write k v).read j = m.read j :=
  ⟨by rw [Memory.read_write hm, if_pos rfl], fun j hj => by rw [Memory.read_write hm, if_neg hj]⟩

/-- Settles O27: the Value popped is written to the cell that the operand names. -/
theorem popStoresTheTop : Obligations.PopStoresTheTop := by
  intro s v rest hs h
  refine ⟨fun i hi => ?_, fun hm x k hk => ⟨s.ram.write k v, ?_, Memory.read_write_self_and_others hm k v⟩,
    fun hm x k hk => ⟨s.vram.write k v, ?_, Memory.read_write_self_and_others hm k v⟩⟩
  · rw [exec_pop_of_place (placeOf_reg _ hi) hs h, writePlace, State.setReg, popped_regs]
    rfl
  · rw [exec_pop_of_place (placeOf_ram hk) hs h, writePlace, popped_ram]
    rfl
  · rw [exec_pop_of_place (placeOf_vram hk) hs h, writePlace, popped_vram]
    rfl

/-! ### Operands that name no cell -/

theorem exec_push_of_no_place {o : Operand} {s : State} (hd : o.isDestination = true) (hp : placeOf s.cfg o = none) :
    exec (.push o) s = .next (faultedAt .outOfBounds s) := by
  have hlocate : locate o (decoded (.push o) s) = .raise .outOfBounds (decoded (.push o) s) :=
    locate_of_placeOf_eq_none hd hp
  rw [exec_eq_commit rfl (Nat.zero_le _)]
  simp only [handlerOf, sourceValue_eq_locate hd, hlocate, Res.bind_raise]
  rfl

theorem exec_pop_of_no_place {o : Operand} {s : State} (hd : o.isDestination = true) (hp : placeOf s.cfg o = none)
    (hs : s.stack ≠ []) : exec (.pop o) s = .next (faultedAt .outOfBounds s) := by
  have hlocate : locate o (decoded (.pop o) s) = .raise .outOfBounds (decoded (.pop o) s) :=
    locate_of_placeOf_eq_none hd hp
  rw [exec_eq_commit (i := .pop o) hd (List.length_pos_iff.mpr hs), handlerOf, popTo, hlocate]
  rfl

/-- Settles O28: the operand is checked before the push or the pop. -/
theorem operandOutOfRangeFaults : Obligations.OperandOutOfRangeFaults := by
  have hcell : ∀ {o : Operand} {s : State}, o.isDestination = true → placeOf s.cfg o = none →
      exec (.push o) s = .next (faultedAt .outOfBounds s) ∧
        (s.stack ≠ [] → exec (.pop o) s = .next (faultedAt .outOfBounds s)) :=
    fun hd hp => ⟨exec_push_of_no_place hd hp, exec_pop_of_no_place hd hp⟩
  exact ⟨fun s _ hi => hcell rfl (placeOf_reg_eq_none s.cfg hi), fun _ _ hx => hcell rfl (placeOf_ram_eq_none hx),
    fun _ _ hx => hcell rfl (placeOf_vram_eq_none hx),
    fun s v => exec_of_not_wellFormed (i := .pop (.const v)) nofun s⟩

/-! ### `ret` -/

/-- After the conversion of the top, `ret` is a pop. -/
theorem returnToTop_of_toAddress {u : State} {v : Value} {rest : List Value} {t : Addr} (hs : u.stack = v :: rest)
    (ht : toAddress v = some t) : returnToTop u = (pop u).bind fun _ u' => .ok .jumped (setPosition t u') := by
  simp only [returnToTop, top_cons hs, Res.bind_ok, ht]

theorem exec_ret {s : State} {v : Value} {rest : List Value} {t : Addr} (hs : s.stack = v :: rest)
    (h : PopGoesThrough s) (ht : toAddress v = some t) :
    exec .ret s = .next { popped s with ip := t, inputPending := false } := by
  have hhandler : handlerOf .ret s (decoded .ret s) =
      (pop (decoded .ret s)).bind fun _ u => .ok .jumped (setPosition t u) := returnToTop_of_toAddress hs ht
  have hpop : pop (decoded .ret s) = .ok v (popped (decoded .ret s)) := pop_ok hs h
  rw [exec_eq_commit (i := .ret) rfl (one_le_length_of_cons hs), hhandler, hpop, decoded, popped_setIp]
  rfl

theorem exec_ret_of_rejected {s : State} {v : Value} {rest : List Value} (hs : s.stack = v :: rest)
    (ht : toAddress v = none) : exec .ret s = .next (faultedAt .outOfBounds s) := by
  have hhandler : handlerOf .ret s (decoded .ret s) = .raise .outOfBounds (decoded .ret s) := by
    have htop : top (decoded .ret s) = .ok v (decoded .ret s) := top_cons hs
    simp only [handlerOf, returnToTop, htop, Res.bind_ok, ht]
  rw [exec_eq_commit (i := .ret) rfl (one_le_length_of_cons hs), hhandler]
  rfl

/-- Settles O52: the conversion is before the pop. -/
theorem retJumpsToTheTop : Obligations.RetJumpsToTheTop := fun _ _ _ hs =>
  ⟨fun _ h ht => exec_ret hs h ht, exec_ret_of_rejected hs⟩

end Sys2Proof.Machine
end

section
/-! PROOF LAYER. Every instruction that pushes or pops takes the fault ReallocFailed where it cannot have the storage
(`20_memory.md` R53 to R56, R58; O30). -/

namespace Sys2Proof.Machine

/-! ### One push -/

theorem push_refused {o : Operand} {s : State} {v : Value} (h : ¬ PushGoesThrough s)
    (hv : sourceValue o (decoded (.push o) s) = .ok v (decoded (.push o) s)) :
    exec (.push o) s = .next (pushRefused s) :=
  exec_eq_pushRefused (input := s.input) rfl (Nat.zero_le _) h (handlerOf_push hv s)

theorem push_place_refused {o : Operand} {s : State} {p : Place} (h : ¬ PushGoesThrough s)
    (hp : placeOf s.cfg o = some p) : exec (.push o) s = .next (pushRefused s) :=
  push_refused h (sourceValue_of_placeOf hp)

theorem dup_refused {s : State} (h : ¬ PushGoesThrough s) (hs : s.stack ≠ []) :
    exec .dup s = .next (pushRefused s) := by
  obtain ⟨v, rest, hcons⟩ := List.exists_cons_of_ne_nil hs
  have hhandler : handlerOf .dup s (decoded .dup s) =
      (push v (decoded .dup s)).bind fun _ t => .ok .proceed t := by
    have htop : top (decoded .dup s) = .ok v (decoded .dup s) := top_cons hcons
    simp only [handlerOf, htop, Res.bind_ok]
  exact exec_eq_pushRefused (i := .dup) (input := s.input) rfl (one_le_length_of_cons hcons) h hhandler

theorem inp_refused {s : State} {v : Value} {more : List InputAnswer} (h : ¬ PushGoesThrough s)
    (hinput : s.input = .value v :: more) : exec .inp s = .next { pushRefused s with input := more } := by
  have hread : readInput (decoded .inp s) =
      (push v ((decoded .inp s).setInput more)).bind fun _ t => .ok .proceed t := by
    have hinput' : (decoded .inp s).input = .value v :: more := hinput
    simp only [readInput, hinput']
  exact exec_eq_pushRefused rfl (Nat.zero_le _) h hread

theorem call_refused {s : State} (h : ¬ PushGoesThrough s) (target : Addr) :
    exec (.call target) s = .next (pushRefused s) :=
  exec_eq_pushRefused (input := s.input) rfl (Nat.zero_le _) h rfl

/-! ### One pop -/

theorem pop_place_refused {o : Operand} {s : State} {p : Place} {v : Value} {rest : List Value}
    (hs : s.stack = v :: rest) (h : ¬ PopGoesThrough s) (hp : placeOf s.cfg o = some p) :
    exec (.pop o) s = .next (popRefused s) :=
  exec_eq_popRefused (i := .pop o) (draws := s.nanDraws) (isDestination_of_placeOf hp) (one_le_length_of_cons hs) hs h
    (popTo_of_placeOf hp)

theorem ret_refused {s : State} {v : Value} {rest : List Value} {t : Addr} (hs : s.stack = v :: rest)
    (h : ¬ PopGoesThrough s) (ht : toAddress v = some t) : exec .ret s = .next (popRefused s) :=
  exec_eq_popRefused (i := .ret) (draws := s.nanDraws) rfl (one_le_length_of_cons hs) hs h
    (returnToTop_of_toAddress hs ht)

/-! ### Two pops -/

/-- The handlers that pop `a` and then `b`. -/
def popTwice (f : Value → Value → State → Res Signal) (s : State) : Res Signal :=
  (pop s).bind fun a t => (pop t).bind fun b u => f a b u

/-- The instructions that need two Values begin by popping them; before that they draw at most. -/
theorem handlerOf_eq_popTwice {i : Instr} (h : stackIn i.mnemonic = 2) (start u : State) :
    ∃ f draws, handlerOf i start u = popTwice f (u.setNanDraws draws) := by
  cases i with
  | add | sub | mul | div => exact ⟨_, _, rfl⟩
  | ja | jae | jb | jbe | je | jne => exact ⟨_, u.nanDraws, rfl⟩
  | _ => cases h

theorem wellFormed_of_stackIn_two {i : Instr} (h : stackIn i.mnemonic = 2) : i.wellFormed = true := by
  cases i with
  | pop dest => cases h
  | _ => rfl

theorem popTwice_second_refused {s : State} {a b : Value} {rest : List Value} (hs : s.stack = a :: b :: rest)
    (h : PopGoesThrough s) (h' : ¬ PopGoesThrough (popped s)) (f : Value → Value → State → Res Signal) :
    popTwice f s = .raise .reallocFailed (((popped s).setStack rest).setAlloc (popped s).alloc.advance) := by
  have hrest : (popped s).stack = b :: rest := by rw [popped_stack, hs, List.tail_cons]
  rw [popTwice, pop_ok hs h, Res.bind_ok, pop_of_refused hrest h', Res.bind_raise]

theorem second_pop_refused {i : Instr} {s : State} {a b : Value} {rest : List Value} (hi : stackIn i.mnemonic = 2)
    (hs : s.stack = a :: b :: rest) (h : PopGoesThrough s) (h' : ¬ PopGoesThrough (popped s)) :
    exec i s = .next (secondPopRefused s) := by
  obtain ⟨f, draws, hh⟩ := handlerOf_eq_popTwice hi s (decoded i s)
  have hpopped : popped ((decoded i s).setNanDraws draws) = (decoded i (popped s)).setNanDraws draws := by
    rw [popped_setNanDraws, decoded, popped_setIp, decoded, popped_ip]
  have hsecond : ¬ PopGoesThrough (popped ((decoded i s).setNanDraws draws)) := hpopped ▸ h'
  have hdepth : stackIn i.mnemonic ≤ s.stack.length := by simp [hi, hs]
  rw [exec_eq_commit (wellFormed_of_stackIn_two hi) hdepth, hh,
    popTwice_second_refused (s := (decoded i s).setNanDraws draws) hs h hsecond, hpopped]
  have hinput : (((decoded i (popped s)).setNanDraws draws).setStack rest).input = s.input := popped_input s
  simp only [commit, takeFault, State.setAlloc_input, hinput]
  rfl

/-- Settles O30, by what a handler that begins with a push, with a pop or with two pops leaves. -/
theorem refusedAllocationFaults : Obligations.RefusedAllocationFaults := by
  refine ⟨fun s h => ?_, fun s hne h => ?_, fun s hlen i hi => ?_⟩
  · exact ⟨fun v => push_refused h rfl, fun _ hi => push_place_refused h (placeOf_reg _ hi),
      fun _ _ hk => push_place_refused h (placeOf_ram hk), fun _ _ hk => push_place_refused h (placeOf_vram hk),
      dup_refused h, fun _ _ => inp_refused h, call_refused h⟩
  · obtain ⟨v, rest, hs⟩ := List.exists_cons_of_ne_nil hne
    have hdepth := one_le_length_of_cons hs
    refine ⟨fun _ hi => pop_place_refused hs h (placeOf_reg _ hi),
      fun _ _ hk => pop_place_refused hs h (placeOf_ram hk),
      fun _ _ hk => pop_place_refused hs h (placeOf_vram hk),
      exec_eq_popRefused (i := .out) (draws := s.nanDraws) rfl hdepth hs h rfl,
      exec_eq_popRefused (i := .gFill) (draws := s.nanDraws) rfl hdepth hs h rfl, fun w t hw ht => ?_⟩
    rw [hs, List.head?_cons, Option.some.injEq] at hw
    exact ret_refused hs h (hw ▸ ht)
  · have htwo : ∀ m ∈ [Mnemonic.add, .sub, .mul, .div, .ja, .jae, .jb, .jbe, .je, .jne], stackIn m = 2 := by decide
    have hi := htwo _ hi
    obtain ⟨a, b, rest, hs⟩ : ∃ a b rest, s.stack = a :: b :: rest := by
      match hst : s.stack, hlen with
      | a :: b :: rest, _ => exact ⟨a, b, rest, rfl⟩
    refine ⟨fun h => ?_, second_pop_refused hi hs⟩
    obtain ⟨f, draws, hh⟩ := handlerOf_eq_popTwice hi s (decoded i s)
    exact exec_eq_popRefused (wellFormed_of_stackIn_two hi) (hi.trans_le hlen) hs h hh

end Sys2Proof.Machine
end

section
/-! PROOF LAYER. The operand stack: its pushes and pops in a row (`20_memory.md` R60, R61; O24, O25). -/

namespace Sys2Proof.Machine

/-! ### Cycles of one pop and one push -/

/-- On a full stack a pop does not shrink the storage and the push after it finds the room that the pop left. -/
theorem pop_push_of_full {s : State} (hfull : s.stack.length = s.cap) (hcap : 1 ≤ s.cap) (v : Value) {β : Type}
    (f : Unit → State → Res β) :
    ((pop s).bind fun _ t => (push v t).bind f) = f () (s.setStack (v :: s.stack.tail)) := by
  obtain ⟨w, rest, hs⟩ := List.length_pos_iff_exists_cons.mp (hfull ▸ hcap)
  have hkeep : ¬ s.cap > 2 * s.stack.length := by omega
  have hpopped : popped s = s.setStack rest := by
    rw [popped, if_neg hkeep, hs]
    rfl
  have hroom : (s.setStack rest).stack.length ≠ (s.setStack rest).cap := by
    have hlen : rest.length + 1 = s.cap := by rw [← hfull, hs, List.length_cons]
    exact (Nat.lt_of_succ_le hlen.le).ne
  have hgoes : PopGoesThrough s := ⟨by simp [hs], fun h => absurd h hkeep⟩
  rw [pop_ok hs hgoes, Res.bind_ok, hpopped, push_ok fun h => absurd h hroom, Res.bind_ok, pushed, if_neg hroom, hs]
  rfl

/-- Settles O24, by induction on the Values pushed: each cycle leaves a full stack. -/
theorem popPushCyclesKeepCap : Obligations.PopPushCyclesKeepCap := by
  intro vs
  induction vs with
  | nil => exact fun s _ _ => rfl
  | cons v vs ih =>
    intro s hfull hcap
    have hfull' : (v :: s.stack.tail).length = s.cap := by
      rw [List.length_cons, List.length_tail]
      omega
    rw [popPushCycles, pop_push_of_full hfull hcap, ih (s.setStack (v :: s.stack.tail)) hfull' hcap]
    rw [List.getLast?_cons]
    cases vs.getLast? <;> rfl

/-! ### Last in, first out -/

/-- The bounds of the stack (`10_state.md` R29). -/
def StackWithin (s : State) : Prop := s.stack.length ≤ s.cap ∧ 1 ≤ s.cap ∧ s.cap ≤ s.cfg.stackMax

theorem StackWithin.pushed {s : State} (h : StackWithin s) {v : Value} (hp : PushGoesThrough s) :
    StackWithin (pushed v s) := by
  obtain ⟨hsize, hcap, hmax⟩ := h
  rw [StackWithin, pushed_cfg]
  exact pushed_within hp hsize hcap hmax

theorem StackWithin.popped {s : State} (h : StackWithin s) (hp : PopGoesThrough s) : StackWithin (popped s) := by
  obtain ⟨hsize, _, hmax⟩ := h
  obtain ⟨hroom, hcap⟩ := popped_within hp hsize
  rw [StackWithin, popped_cfg]
  exact ⟨hroom.le, Nat.one_le_of_lt hroom, hcap.trans hmax⟩

/-- Pushes that go through leave the list on the stack, the last Value on top. -/
theorem pushAll_eq_ok {vs : List Value} {s t : State} (h : pushAll vs s = .ok () t) (hs : StackWithin s) :
    StackWithin t ∧ t.stack = vs.reverse ++ s.stack := by
  induction vs generalizing s with
  | nil =>
    cases h
    exact ⟨hs, rfl⟩
  | cons v vs ih =>
    obtain ⟨_, _, hpush, hrest⟩ := Res.bind_eq_ok.mp h
    obtain ⟨hgoes, rfl⟩ := push_eq_ok hpush
    obtain ⟨hwithin, hstack⟩ := ih hrest (hs.pushed hgoes)
    refine ⟨hwithin, ?_⟩
    rw [hstack, pushed_stack, List.reverse_cons, List.append_assoc, List.singleton_append]

/-- Pops that go through answer the Values from the top down. -/
theorem popMany_eq_ok {k : Nat} {ws : List Value} {s t : State} (h : popMany k s = .ok ws t) (hs : StackWithin s) :
    StackWithin t ∧ ws = s.stack.take k ∧ t.stack = s.stack.drop k := by
  induction k generalizing s ws with
  | zero =>
    cases h
    exact ⟨hs, rfl, rfl⟩
  | succ k ih =>
    obtain ⟨w, _, hpop, h⟩ := Res.bind_eq_ok.mp h
    obtain ⟨ws', _, hmany, h⟩ := Res.bind_eq_ok.mp h
    cases h
    obtain ⟨hgoes, hcons, rfl⟩ := pop_eq_ok hpop
    obtain ⟨hwithin, rfl, hrest⟩ := ih hmany (hs.popped hgoes)
    rw [popped_stack] at hrest ⊢
    rw [hcons, List.take_succ_cons, List.drop_succ_cons]
    exact ⟨hwithin, rfl, hrest⟩

/-- Settles O25: the pops take the first `k` Values of the reversed list. -/
theorem stackIsLifo : Obligations.StackIsLifo := by
  intro vs ws k s t u hsize hcap hmax hk hpush hpop
  obtain ⟨ht, hstack⟩ := pushAll_eq_ok hpush ⟨hsize, hcap, hmax⟩
  obtain ⟨hu, rfl, hrest⟩ := popMany_eq_ok hpop ht
  have hk : k ≤ vs.reverse.length := by rwa [List.length_reverse]
  refine ⟨ht, hu, ?_, ?_⟩
  · rw [hstack, List.take_append_of_le_length hk]
  · rw [hrest, hstack, List.drop_append_of_le_length hk]

end Sys2Proof.Machine
end

section
/-! PROOF LAYER. Values and integers (`20_memory.md` R49 to R51; O42, O43, O44), and from them a `call` and then a `ret`
(`44_control.md` R128, R129; O53). -/

namespace Sys2Proof.Machine

/-! ### Truncation -/

/-- Truncation toward zero divides the absolute value and keeps the sign. -/
theorem tdiv_signed (neg : Bool) (m d : Nat) : (signed neg m).tdiv d = signed neg (m / d) := by
  cases neg with
  | false => exact (Int.ofNat_tdiv m d).symm
  | true =>
    rw [signed, if_pos rfl, Int.neg_tdiv, ← Int.ofNat_tdiv, signed, if_pos rfl]

/-- A signed number is a natural number where it is not negative. -/
theorem signed_eq_natCast_iff (neg : Bool) (m t : Nat) :
    signed neg m = (t : Int) ↔ ¬ (neg = true ∧ m ≠ 0) ∧ m = t := by
  cases neg with
  | false => simp [signed]
  | true =>
    simp only [signed, if_true, true_and]
    omega

theorem truncBelow_of_not_finite {v : Value} (hv : ¬ IsFinite v) (bound : Nat) : truncBelow bound v = none := by
  have hexp : expField v = 2047 := not_not.mp hv
  by_cases hfrac : fracField v = 0
  · simp only [truncBelow, classify, if_pos hexp, if_pos hfrac]
  · simp only [truncBelow, classify, if_pos hexp, if_neg hfrac]

/-- Of a finite Value, `truncBelow` answers exactly the truncation that is in range. -/
theorem truncBelow_eq_some_iff {v : Value} (hv : IsFinite v) (bound t : Nat) :
    truncBelow bound v = some t ↔ (signedUnits v).tdiv (2 ^ 1074) = (t : Int) ∧ t < 2 ^ 64 ∧ t < bound := by
  have htrunc : (signedUnits v).tdiv (2 ^ 1074) = signed (signBit v) (unitsOf v / 2 ^ 1074) := by
    rw [signedUnits, ← tdiv_signed, Nat.cast_pow, Nat.cast_ofNat]
  rw [htrunc, signed_eq_natCast_iff]
  simp only [truncBelow, classify_fin v hv]
  generalize unitsOf v / 2 ^ 1074 = q
  by_cases hneg : signBit v = true ∧ q ≠ 0
  · rw [if_pos hneg]
    exact iff_of_false nofun fun ⟨⟨hpos, _⟩, _⟩ => hpos hneg
  rw [if_neg hneg]
  split
  · rename_i hword
    exact iff_of_false nofun fun ⟨⟨_, hq⟩, hlt, _⟩ => by omega
  split
  · rename_i hbound
    exact iff_of_false nofun fun ⟨⟨_, hq⟩, _, hlt⟩ => by omega
  · rw [Option.some.injEq]
    exact ⟨fun hq => ⟨⟨hneg, hq⟩, by omega, by omega⟩, fun ⟨⟨_, hq⟩, _⟩ => hq⟩

/-- Settles O42: ToIndex is `truncBelow` with its own bound. -/
theorem toIndexTruncates : Obligations.ToIndexTruncates := fun _ n =>
  ⟨fun hv => truncBelow_of_not_finite hv n, fun hv t => truncBelow_eq_some_iff hv n t⟩

theorem toAddress_eq_some_iff {v : Value} (hv : IsFinite v) (a : Addr) :
    toAddress v = some a ↔ (signedUnits v).tdiv (2 ^ 1074) = (a.toNat : Int) := by
  rw [toAddress, Option.map_eq_some_iff]
  constructor
  · rintro ⟨t, ht, rfl⟩
    obtain ⟨htrunc, hlt, -⟩ := (truncBelow_eq_some_iff hv _ t).mp ht
    rwa [BitVec.toNat_ofNat, Nat.mod_eq_of_lt hlt]
  · intro ha
    exact ⟨a.toNat, (truncBelow_eq_some_iff hv _ _).mpr ⟨ha, a.isLt, a.isLt⟩,
      (BitVec.ofNat_toNat 64 a).trans (BitVec.setWidth_eq a)⟩

/-- Settles O43: an address is a truncation below 2^64. -/
theorem toAddressTruncates : Obligations.ToAddressTruncates := fun _ =>
  ⟨fun hv => congrArg (Option.map _) (truncBelow_of_not_finite hv _), toAddress_eq_some_iff⟩

/-! ### Stream offsets as Values -/

/-- A number that a magnitude stands for is its own nearest: it is not rounded. -/
theorem roundRat_of_exact {num den mag : Nat} (hden : 0 < den) (hnum : unitsOfMagnitude mag * den = num)
    (hmag : mag < infMagnitude) (neg : Bool) : roundRat neg num den = pack neg mag := by
  obtain ⟨hnear, -⟩ := roundedMagnitude_nearest num hden mag
  have hrounded : unitsOfMagnitude (roundedMagnitude num den) * den = unitsOfMagnitude mag * den := by
    simp only [unitsDistance] at hnear
    omega
  have heq := unitsOfMagnitude_strictMono.injective (Nat.eq_of_mul_eq_mul_right hden hrounded)
  rw [roundRat_eq, heq, min_eq_left hmag.le]

/-- A natural number with a 53-bit significand stands on the grid: the significand filled up to 53 bits counts spacings
that are shorter by as much. -/
theorem exists_magnitude_of_le {n : Nat} (hn : n ≤ 2 ^ 53) :
    ∃ mag, mag < infMagnitude ∧ unitsOfMagnitude mag = n * 2 ^ 1074 := by
  rcases Nat.eq_zero_or_pos n with rfl | hpos
  · exact ⟨0, by decide, by rw [unitsOfMagnitude_zero, Nat.zero_mul]⟩
  obtain ⟨j, hj, hlow, hhigh⟩ : ∃ j ≤ 52, 2 ^ 52 ≤ n * 2 ^ j ∧ n * 2 ^ j ≤ 2 ^ 53 := by
    rcases Nat.lt_or_ge n (2 ^ 52) with hlt | hge
    · have hlog : n.log2 < 52 := (Nat.log2_lt hpos.ne').mpr hlt
      have hsplit : ∀ e, 2 ^ (n.log2 + e) * 2 ^ (52 - n.log2) = 2 ^ (52 + e) := fun e => by
        rw [← pow_add]
        congr 1
        omega
      exact ⟨52 - n.log2, Nat.sub_le .., hsplit 0 ▸ Nat.mul_le_mul_right _ (Nat.log2_self_le hpos.ne'),
        hsplit 1 ▸ Nat.mul_le_mul_right _ Nat.lt_log2_self.le⟩
    · exact ⟨0, Nat.zero_le _, by omega, by omega⟩
  have hinf := infMagnitude_eq
  refine ⟨(1074 - j) * 2 ^ 52 + n * 2 ^ j, by omega, ?_⟩
  rw [unitsOfMagnitude_of_le hhigh (.inr hlow), Nat.mul_assoc, ← pow_add, Nat.add_sub_cancel' (by omega)]

theorem valueOfNat_exact {n : Nat} (hn : n ≤ 2 ^ 53) :
    IsFinite (valueOfNat n) ∧ signedUnits (valueOfNat n) = (n : Int) * 2 ^ 1074 := by
  obtain ⟨mag, hmag, hunits⟩ := exists_magnitude_of_le hn
  have hvalue : valueOfNat n = pack false mag := roundRat_of_exact Nat.one_pos (by rw [Nat.mul_one, hunits]) hmag false
  have h63 := hmag.trans infMagnitude_lt_two_pow
  rw [hvalue, isFinite_iff, signedUnits_eq, magnitude_pack false h63, signBit_pack false h63, hunits]
  refine ⟨hmag, ?_⟩
  rw [signed, if_neg Bool.false_ne_true, Nat.cast_mul, Nat.cast_pow, Nat.cast_ofNat]

theorem toAddress_valueOfNat {n : Nat} (hn : n ≤ 2 ^ 53) : toAddress (valueOfNat n) = some (BitVec.ofNat 64 n) := by
  obtain ⟨hfinite, hunits⟩ := valueOfNat_exact hn
  have hword : n < 2 ^ 64 := by omega
  rw [toAddress_eq_some_iff hfinite, hunits, BitVec.toNat_ofNat, Nat.mod_eq_of_lt hword]
  exact Int.mul_tdiv_cancel _ (pow_ne_zero _ two_ne_zero)

/-- Settles O44: an offset has a Value of its own, so it is neither rounded nor truncated. -/
theorem streamOffsetsAreExactValues : Obligations.StreamOffsetsAreExactValues := fun _ hn =>
  have ⟨hfinite, hunits⟩ := valueOfNat_exact hn
  ⟨hfinite, hunits, toAddress_valueOfNat hn⟩

/-! ### A `call` and then a `ret` -/

theorem exec_call {s : State} (h : PushGoesThrough s) (target : Addr) :
    exec (.call target) s = .next { pushed (valueOfNat (s.ip + 9#64).toNat) s with
      ip := target, inputPending := false } := by
  have hpush : ∀ v, push v (decoded (.call target) s) = .ok () (pushed v (decoded (.call target) s)) :=
    fun v => push_ok h
  rw [exec_eq_commit rfl (Nat.zero_le _)]
  simp only [handlerOf, hpush, Res.bind_ok]
  rw [decoded, pushed_setIp]
  rfl

/-- A stack below STACK_MAX can grow (`20_memory.md` R54): half more of a capacity of at least 1, rounded up, is at
least one more. -/
theorem pushGoesThrough_of_room {s : State} (hcap : 1 ≤ s.cap) (hroom : s.stack.length < s.cfg.stackMax)
    (halloc : AllocNeverFails s.alloc) : PushGoesThrough s :=
  fun hfull => ⟨by omega, halloc.answer⟩

theorem allocNeverFails_pushed {s : State} (h : AllocNeverFails s.alloc) (v : Value) :
    AllocNeverFails (pushed v s).alloc := by
  rw [pushed_alloc]
  split
  · exact h.advance
  · exact h

/-- Settles O53: the return address is at most `len`, so it is an exact Value and `ret` gives it back. -/
theorem callThenRetResumesAfterTheCall : Obligations.CallThenRetResumesAfterTheCall := by
  intro s target hinv hprogram hroom halloc
  obtain ⟨⟨-, -, -, -, -, -, hmax, -⟩, -, hcap, -, hlen, -⟩ := hinv
  have hle : s.ip.toNat + 9 ≤ 2 ^ 53 := hprogram.trans (hlen.trans hmax)
  have hreturn : (s.ip + 9#64).toNat = s.ip.toNat + 9 := by
    rw [BitVec.toNat_add, BitVec.toNat_ofNat]
    omega
  have hcall := exec_call (pushGoesThrough_of_room hcap hroom halloc) target
  have hstack := pushed_stack (valueOfNat (s.ip + 9#64).toNat) s
  have hgoes : PopGoesThrough (pushed (valueOfNat (s.ip + 9#64).toNat) s) :=
    ⟨by simp, fun _ => (allocNeverFails_pushed halloc _).answer⟩
  have hret := exec_ret (s := { pushed (valueOfNat (s.ip + 9#64).toNat) s with ip := target, inputPending := false })
    hstack hgoes (toAddress_valueOfNat (hreturn ▸ hle))
  refine ⟨_, _, hcall, rfl, hret, ?_, ?_⟩
  · rw [hreturn, BitVec.toNat_ofNat]
    omega
  · simp

end Sys2Proof.Machine
end

section
/-! PROOF LAYER. An instruction cut short by the end of the stream: its opcode and tag are still read, and then a byte
is missing (`20_memory.md` R38; `40_execution_engine.md` R87, R91; O6). -/

namespace Sys2Proof

/-! ### The maps under injectivity -/

/-- Under an injective OPCODE_MAP a mnemonic is found by its byte (`30_encoding.md` R78). -/
theorem OpcodeMap.lookup_of_code {t : OpcodeMap} (h : Machine.OpcodesInjective t) (m : Mnemonic) :
    t.lookup (t.code m) = some m := by
  cases hlookup : t.lookup (t.code m) with
  | none => exact absurd rfl (OpcodeMap.lookup_eq_none.mp hlookup m)
  | some m' => rw [List.inj_on_of_nodup_map h m'.mem_all m.mem_all (OpcodeMap.lookup_code hlookup)]

theorem Tag.mem_pushTags (g : Tag) : g ∈ pushTags := by cases g <;> decide

/-- Under an injective TAG_MAP an admitted tag is found by its byte (log 22). -/
theorem TagMap.lookup_of_code {t : TagMap} (h : Machine.TagsInjective t) {allowed : List Tag} {g : Tag}
    (hg : g ∈ allowed) : t.lookup allowed (t.code g) = some g := by
  cases hlookup : t.lookup allowed (t.code g) with
  | none => exact absurd rfl (TagMap.lookup_eq_none.mp hlookup g hg)
  | some g' => rw [List.inj_on_of_nodup_map h g'.mem_pushTags g.mem_pushTags (TagMap.lookup_code hlookup).2]

theorem Operand.tag_mem_popTags {o : Operand} (h : o.isDestination = true) : o.tag ∈ popTags := by
  cases o with
  | const v => cases h
  | reg i | ram v | vram v => simp [popTags, Operand.tag]

/-! ### Readers that find too few bytes -/

theorem readValue_short {bs : List Byte} (h : bs.length < 8) : readValue bs = .error .outOfBounds := by
  rw [readValue, readBytes_error.mpr ⟨h, rfl⟩]
  rfl

theorem readAddress_short {bs : List Byte} (h : bs.length < addrBytes) : readAddress bs = .error .outOfBounds := by
  rw [readAddress, readBytes_error.mpr ⟨h, rfl⟩]
  rfl

/-- The operand bytes after the tag are one byte or eight. -/
theorem decodeTail_short {o : Operand} {bs : List Byte} (h : bs.length + 1 < o.length) :
    decodeTail o.tag bs = .error .outOfBounds := by
  cases o with
  | reg i =>
    obtain rfl : bs = [] := List.length_eq_zero_iff.mp (by simp only [Operand.length] at h; omega)
    rfl
  | const v | ram v | vram v =>
    have hbs : readValue bs = .error .outOfBounds := readValue_short (by simp only [Operand.length] at h; omega)
    simp only [Operand.tag, decodeTail, hbs]
    rfl

theorem decodeOperand_short {t : TagMap} {allowed : List Tag} {o : Operand} {k : Nat} (ht : Machine.TagsInjective t)
    (ho : o.tag ∈ allowed) (hk : k < o.length) :
    decodeOperand t allowed ((encodeOperand t o).take k) = .error .outOfBounds := by
  cases k with
  | zero => rfl
  | succ k =>
    have htail := fun bs : List Byte => decodeTail_short (o := o) (bs := bs.take k)
      (by have := List.length_take_le k bs; omega)
    simp only [encodeOperand, List.take_succ_cons, decodeOperand, readByte, TagMap.lookup_of_code ht ho, htail]

/-- The bytes of a well-formed instruction without the last ones. -/
theorem decode_short {e : Encoding} {i : Instr} {k : Nat} (he : Machine.EncodingInjective e)
    (hwf : i.wellFormed = true) (hpos : 0 < k) (hk : k < (encode e i).length) :
    decode e ((encode e i).take k) = .error .outOfBounds := by
  obtain ⟨hopcodes, htags⟩ := he
  obtain ⟨k, rfl⟩ := Nat.exists_eq_add_one.mpr hpos
  rw [encode_length] at hk
  have hshort : ((encodeFields e i).take k).length ≤ k := List.length_take_le ..
  simp only [encode, List.take_succ_cons, decode, readByte, OpcodeMap.lookup_of_code hopcodes]
  cases i with
  | push o =>
    have hoperand := decodeOperand_short htags o.tag.mem_pushTags (k := k) (by simp only [Instr.length] at hk; omega)
    simp only [Instr.mnemonic, encodeFields, hoperand]
    rfl
  | pop o =>
    have hoperand := decodeOperand_short htags (o.tag_mem_popTags hwf) (k := k)
      (by simp only [Instr.length] at hk; omega)
    simp only [Instr.mnemonic, encodeFields, hoperand]
    rfl
  | jmp a | ja a | jae a | jb a | jbe a | je a | jne a | call a =>
    have haddress := readAddress_short (hshort.trans_lt (by simp only [Instr.length] at hk; omega))
    simp only [Instr.mnemonic, haddress]
    rfl
  | _ => exact absurd hk (by simp [Instr.length])

end Sys2Proof

namespace Sys2Proof.Machine

/-- Settles O6: the fetch begins inside the stream, and the decoder misses a byte. -/
theorem truncatedInstructionFaults : Obligations.TruncatedInstructionFaults := by
  intro s i k hrun he hwf hpos hk hbytes
  have hinside : s.ip.toNat < s.len := by
    have hlen := congrArg List.length hbytes
    rw [List.length_drop, List.length_take, Nat.min_eq_left hk.le] at hlen
    exact Nat.lt_of_sub_pos (hlen ▸ hpos)
  have hfetch : fetch s = .fault .outOfBounds := by
    rw [fetch, if_neg hinside.ne, if_neg (Nat.not_lt.mpr hinside.le), bytesAtIp, hbytes, decode_short he hwf hpos hk]
    rfl
  rcases step_cases s with ⟨hne, -⟩ | ⟨-, hf, -⟩ | ⟨r, -, hf, hstep⟩ | ⟨j, -, hf, -⟩
  · exact absurd hrun hne
  · cases hfetch.symm.trans hf
  · cases hfetch.symm.trans hf
    exact hstep
  · cases hfetch.symm.trans hf

end Sys2Proof.Machine
end

section
/-! PROOF LAYER. Which fields an instruction may write (`20_memory.md` R36, R37, R52; O13, O14). The frame of an
instruction changes only `ip`, the status, the pending read and what a handler changed before. -/

namespace Sys2Proof.Machine

/-- What lies between `s` and `t` is nothing that `i` may not write: the stream and the configuration are as before, and
registers, regions, gfx, events and the host's input too, unless `i` is an instruction that writes them. -/
structure WritesOnlyAs (i : Instr) (s t : State) : Prop where
  regs : t.regs ≠ s.regs → ∃ k, i = .pop (.reg k)
  ram : t.ram ≠ s.ram → ∃ v, i = .pop (.ram v)
  vram : t.vram ≠ s.vram → (∃ v, i = .pop (.vram v)) ∨ i = .gFill
  gfx : t.gfx ≠ s.gfx → i = .gDrawOn ∨ i = .gDrawOff
  events : t.events ≠ s.events → i = .out ∨ i = .outN ∨ i = .gInit ∨ i = .gDraw
  input : t.input ≠ s.input → i = .inp
  cfg : t.cfg = s.cfg
  stream : t.stream = s.stream

/-- Every instruction may write the other fields. -/
theorem WritesOnlyAs.others (i : Instr) (s : State) (status : Status) (ip : Addr) (stack : List Value) (cap : Nat)
    (pending : Bool) (alloc : Allocator) (draws : Nat) :
    WritesOnlyAs i s { s with
      status := status, ip := ip, stack := stack, cap := cap, inputPending := pending, alloc := alloc,
      nanDraws := draws } := by
  constructor <;> simp

theorem WritesOnlyAs.refl (i : Instr) (s : State) : WritesOnlyAs i s s := .others ..

theorem WritesOnlyAs.pushed (i : Instr) (v : Value) (s : State) : WritesOnlyAs i s (pushed v s) := by
  constructor <;> simp

theorem WritesOnlyAs.popped (i : Instr) (s : State) : WritesOnlyAs i s (popped s) := by
  constructor <;> simp

theorem WritesOnlyAs.trans {i : Instr} {s t u : State} (h : WritesOnlyAs i s t) (h' : WritesOnlyAs i t u) :
    WritesOnlyAs i s u where
  regs hne := by_contra fun hi => hne ((not_not.mp (mt h'.regs hi)).trans (not_not.mp (mt h.regs hi)))
  ram hne := by_contra fun hi => hne ((not_not.mp (mt h'.ram hi)).trans (not_not.mp (mt h.ram hi)))
  vram hne := by_contra fun hi => hne ((not_not.mp (mt h'.vram hi)).trans (not_not.mp (mt h.vram hi)))
  gfx hne := by_contra fun hi => hne ((not_not.mp (mt h'.gfx hi)).trans (not_not.mp (mt h.gfx hi)))
  events hne := by_contra fun hi => hne ((not_not.mp (mt h'.events hi)).trans (not_not.mp (mt h.events hi)))
  input hne := by_contra fun hi => hne ((not_not.mp (mt h'.input hi)).trans (not_not.mp (mt h.input hi)))
  cfg := h'.cfg.trans h.cfg
  stream := h'.stream.trans h.stream

/-- A fault keeps of the state reached only the host's answers that were taken. -/
theorem WritesOnlyAs.takeFault {i : Instr} {s t : State} (h : WritesOnlyAs i s t) (r : FaultReason) :
    WritesOnlyAs i s (takeFault r s t) where
  __ := WritesOnlyAs.refl i s
  input := h.input

/-- The cell that an operand names is in its own region. -/
theorem WritesOnlyAs.writePlace {o : Operand} {c : Config} {p : Place} (hp : placeOf c o = some p) (v : Value)
    (s : State) : WritesOnlyAs (.pop o) s (writePlace p v s) := by
  cases o with
  | const w => cases hp
  | reg k =>
    obtain ⟨hk, hp⟩ := Option.dite_none_right_eq_some.mp hp
    cases hp
    exact { WritesOnlyAs.refl _ s with regs := fun _ => ⟨k, rfl⟩ }
  | ram w =>
    obtain ⟨k, -, rfl⟩ := Option.map_eq_some_iff.mp hp
    exact { WritesOnlyAs.refl _ s with ram := fun _ => ⟨w, rfl⟩ }
  | vram w =>
    obtain ⟨k, -, rfl⟩ := Option.map_eq_some_iff.mp hp
    exact { WritesOnlyAs.refl _ s with vram := fun _ => .inl ⟨w, rfl⟩ }

/-! ### The handlers -/

/-- An answer whose state `i` may leave, having started in `s`. -/
def Res.Within {α : Type} (i : Instr) (s : State) : Res α → Prop
  | .ok _ t => WritesOnlyAs i s t
  | .raise _ t => WritesOnlyAs i s t
  | .wait => True

theorem Res.Within.ok {α : Type} {a : α} {i : Instr} {s t : State} (h : WritesOnlyAs i s t) :
    (Res.ok a t).Within i s := h

theorem Res.Within.raise {α : Type} {r : FaultReason} {i : Instr} {s t : State} (h : WritesOnlyAs i s t) :
    (Res.raise r t : Res α).Within i s := h

theorem Res.Within.wait {α : Type} {i : Instr} {s : State} : (Res.wait : Res α).Within i s := trivial

/-- What may be written on the way from `s` to `t` and on from there may be written from `s`. -/
theorem Res.Within.after {α : Type} {i : Instr} {s t : State} {x : Res α} (h : WritesOnlyAs i s t)
    (hx : x.Within i t) : x.Within i s := by
  cases x with
  | ok a u => exact h.trans hx
  | raise r u => exact h.trans hx
  | wait => exact .wait

theorem Res.Within.bind {α β : Type} {i : Instr} {s : State} {x : Res α} {f : α → State → Res β}
    (hx : x.Within i s) (hf : ∀ a t, (f a t).Within i t) : (x.bind f).Within i s := by
  cases x with
  | ok a t => exact .after hx (hf a t)
  | raise r t => exact hx
  | wait => exact .wait

theorem push_within (i : Instr) (v : Value) (s : State) : (push v s).Within i s := by
  rw [push_eq]
  split
  · exact .ok (.pushed i v s)
  · split <;> exact .raise (.others ..)

theorem pop_within (i : Instr) (s : State) : (pop s).Within i s := by
  cases hs : s.stack with
  | nil =>
    rw [pop_nil hs]
    exact .raise (.refl i s)
  | cons v rest =>
    rw [pop_cons hs]
    split
    · exact .ok (.popped i s)
    · exact .raise (.others ..)

theorem top_within (i : Instr) (s : State) : (top s).Within i s := by
  unfold top
  split
  · exact .raise (.refl i s)
  · exact .ok (.refl i s)

theorem locate_within (i : Instr) (o : Operand) (s : State) : (locate o s).Within i s := by
  cases h : locate o s with
  | ok p t =>
    obtain ⟨rfl, -⟩ := locate_eq_ok h
    exact .ok (.refl i _)
  | raise r t =>
    obtain ⟨rfl, -⟩ := locate_eq_raise h
    exact .raise (.refl i _)
  | wait => exact .wait

theorem sourceValue_within (i : Instr) (o : Operand) (s : State) : (sourceValue o s).Within i s := by
  cases o with
  | const v => exact .ok (.refl i s)
  | reg k | ram v | vram v => exact (locate_within i _ s).bind fun _ t => .ok (.refl i t)

theorem push_proceed_within (i : Instr) (v : Value) (s : State) :
    ((push v s).bind fun _ t => .ok Signal.proceed t).Within i s :=
  (push_within i v s).bind fun _ t => .ok (.refl i t)

theorem binary_within (i : Instr) (op : Value → Value → Value) (s : State) : (binary op s).Within i s :=
  (pop_within i s).bind fun _ s => (pop_within i s).bind fun _ s => push_proceed_within i _ s

theorem unary_within (i : Instr) (f : Value → Value) (s : State) : (unary f s).Within i s :=
  (top_within i s).bind fun _ _ => .ok (.others ..)

theorem drawing_within {i : Instr} {handler : Value → State → Res Signal} (s : State)
    (h : ∀ nan t, (handler nan t).Within i t) : (drawing handler s).Within i s :=
  .after (.others ..) (h s.nanDraw (s.setNanDraws (s.nanDraws + 1)))

theorem condJump_within (i : Instr) (cond : Value → Value → Bool) (target : Addr) (s : State) :
    (condJump cond target s).Within i s :=
  (pop_within i s).bind fun _ s => (pop_within i s).bind fun _ s => by
    split <;> exact .ok (.others ..)

theorem returnToTop_within (i : Instr) (s : State) : (returnToTop s).Within i s :=
  (top_within i s).bind fun _ s => by
    split
    · exact .raise (.refl i s)
    · exact (pop_within i s).bind fun _ _ => .ok (.others ..)

theorem readInput_within (s : State) : (readInput s).Within .inp s := by
  have htaken : ∀ rest, WritesOnlyAs .inp s (s.setInput rest) := fun _ =>
    { WritesOnlyAs.refl .inp s with input := fun _ => rfl }
  unfold readInput
  split
  · exact .wait
  · exact .raise (htaken _)
  · exact .after (htaken _) (push_proceed_within ..)

theorem popTo_within (o : Operand) (s : State) : (popTo o s).Within (.pop o) s := by
  cases h : placeOf s.cfg o with
  | some p =>
    rw [popTo_of_placeOf h]
    exact (pop_within _ s).bind fun v t => .ok (.writePlace h v t)
  | none =>
    cases o with
    | const v => exact .raise (.refl _ s)
    | reg k | ram v | vram v =>
      rw [popTo, locate_of_placeOf_eq_none rfl h]
      exact .raise (.refl _ s)

theorem handlerOf_within (i : Instr) (start s : State) : (handlerOf i start s).Within i s := by
  cases i with
  | push source => exact (sourceValue_within _ source s).bind fun v t => push_proceed_within _ v t
  | pop dest => exact popTo_within dest s
  | dup => exact (top_within _ s).bind fun v t => push_proceed_within _ v t
  | add | sub | mul | div => exact drawing_within s fun _ => binary_within _ _
  | sin | cos | sqrt => exact drawing_within s fun _ => unary_within _ _
  | pw2 => exact drawing_within s fun nan => unary_within _ fun v => fmul nan v v
  | pwInv => exact drawing_within s fun nan => unary_within _ fun v => fdiv nan one v
  | abs => exact unary_within _ fabs s
  | inp => exact readInput_within s
  | out => exact (pop_within _ s).bind fun v t => .ok { WritesOnlyAs.refl .out t with events := fun _ => .inl rfl }
  | ja target | jae target | jb target | jbe target | je target | jne target =>
    exact condJump_within _ _ target s
  | call target => exact (push_within _ _ s).bind fun _ _ => .ok (.others ..)
  | ret => exact returnToTop_within _ s
  | gFill => exact (pop_within _ s).bind fun v t => .ok { WritesOnlyAs.refl .gFill t with vram := fun _ => .inr rfl }
  | jmp | halt => exact .ok (.others ..)
  | outN => exact .ok { WritesOnlyAs.refl .outN s with events := fun _ => .inr (.inl rfl) }
  | gInit => exact .ok { WritesOnlyAs.refl .gInit s with events := fun _ => .inr (.inr (.inl rfl)) }
  | gDraw => exact .ok { WritesOnlyAs.refl .gDraw s with events := fun _ => .inr (.inr (.inr rfl)) }
  | gDrawOn => exact .ok { WritesOnlyAs.refl .gDrawOn s with gfx := fun _ => .inl rfl }
  | gDrawOff => exact .ok { WritesOnlyAs.refl .gDrawOff s with gfx := fun _ => .inr rfl }

/-! ### Instructions and steps -/

theorem commit_writesOnlyAs {i : Instr} {s : State} {x : Res Signal} (hx : x.Within i s) :
    WritesOnlyAs i s (commit s x) := by
  cases x with
  | ok a t =>
    have ht : WritesOnlyAs i s t := hx
    cases a <;> exact ht.trans (.others ..)
  | raise r t => exact WritesOnlyAs.takeFault hx r
  | wait => exact .others ..

theorem exec_writesOnlyAs {i : Instr} {s t : State} (h : exec i s = .next t) : WritesOnlyAs i s t := by
  rw [exec_eq] at h
  cases h
  split
  · exact .others ..
  · split
    · exact .others ..
    · exact commit_writesOnlyAs (.after (.others ..) (handlerOf_within i s (decoded i s)))

/-- Settles O14, by what the handler of each instruction may write. -/
theorem onlyNamedInstructionsWrite : Obligations.OnlyNamedInstructionsWrite := fun _ _ _ h =>
  have ⟨hregs, hram, hvram, hgfx, hevents, hinput, hcfg, _⟩ := exec_writesOnlyAs h
  ⟨hregs, hram, hvram, hgfx, hevents, hinput, hcfg⟩

theorem finishStep_stream (start t : State) : (finishStep start t).stream = t.stream := by
  rw [finishStep_eq]

/-- Settles O13: neither an instruction nor the end of a step writes the stream. -/
theorem streamIsNeverWritten : Obligations.StreamIsNeverWritten := by
  intro s t h
  rcases step_cases s with ⟨-, hstep⟩ | ⟨-, -, hstep⟩ | ⟨r, -, -, hstep⟩ | ⟨i, -, -, hstep⟩
  · cases hstep.symm.trans h
    rfl
  · cases hstep.symm.trans h
    exact finishStep_stream s (haltAtEnd s)
  · cases hstep.symm.trans h
    rfl
  · cases (hstep _ (exec_eq i s)).symm.trans h
    rw [finishStep_stream]
    exact (exec_writesOnlyAs (exec_eq i s)).stream

end Sys2Proof.Machine
end

section
/-! PROOF LAYER. Registers, RAM, VRAM and gfx reach an instruction only through `push` and `g_draw` (`20_memory.md` R36,
R52; O59): every other handler, begun with other contents of them, answers the same but for them. -/

namespace Sys2Proof.Machine

/-- Contents of the registers, RAM and VRAM, and gfx. -/
structure Regions where
  regs : Vector Value 26
  ram : Memory
  vram : Memory
  gfx : Bool

/-- The state with these contents. -/
def State.withRegions (s : State) (c : Regions) : State :=
  { s with regs := c.regs, ram := c.ram, vram := c.vram, gfx := c.gfx }

theorem pushed_withRegions (v : Value) (s : State) (c : Regions) :
    pushed v (s.withRegions c) = (pushed v s).withRegions c := by
  by_cases h : s.stack.length = s.cap <;> simp [pushed, State.withRegions, h]

theorem popped_withRegions (s : State) (c : Regions) : popped (s.withRegions c) = (popped s).withRegions c := by
  by_cases h : s.cap > 2 * s.stack.length <;> simp [popped, State.withRegions, h]

/-! ### Answers -/

/-- An answer, its state with these contents. -/
def Res.withRegions {α : Type} (x : Res α) (c : Regions) : Res α :=
  match x with
  | .ok a s => .ok a (s.withRegions c)
  | .raise r s => .raise r (s.withRegions c)
  | .wait => .wait

/-- A part of a handler to which the contents make no difference, but for the contents that it leaves. -/
def RegionBlind {α : Type} (c : Regions) (handler : State → Res α) : Prop :=
  ∀ s, (handler (s.withRegions c)).withRegions c = (handler s).withRegions c

theorem RegionBlind.bind {α β : Type} {c : Regions} {x : State → Res α} {f : α → State → Res β}
    (hx : RegionBlind c x) (hf : ∀ a, RegionBlind c (f a)) : RegionBlind c fun s => (x s).bind f := by
  intro s
  have hbind : ∀ y : Res α, (y.bind f).withRegions c = ((y.withRegions c).bind f).withRegions c := by
    intro y
    cases y with
    | ok a t => exact (hf a t).symm
    | raise r t => rfl
    | wait => rfl
  rw [hbind, hx s, ← hbind]

/-- An operation that gives the same Value and, but for the contents, the same state. -/
theorem regionBlind_update {α : Type} {c : Regions} (a : α) {f : State → State}
    (hf : ∀ s, (f (s.withRegions c)).withRegions c = (f s).withRegions c) : RegionBlind c fun s => .ok a (f s) :=
  fun s => congrArg (Res.ok a) (hf s)

theorem regionBlind_ok {α : Type} (c : Regions) (a : α) : RegionBlind c (.ok a) := fun _ => rfl

theorem regionBlind_raise {α : Type} (c : Regions) (r : FaultReason) :
    RegionBlind c (.raise r : State → Res α) := fun _ => rfl

/-! ### The shared operations -/

theorem push_regionBlind (c : Regions) (v : Value) : RegionBlind c (push v) := by
  intro s
  by_cases h : PushGoesThrough s
  · have h' : PushGoesThrough (s.withRegions c) := h
    rw [push_ok h, push_ok h', pushed_withRegions]
    rfl
  · have h' : ¬ PushGoesThrough (s.withRegions c) := h
    rw [push_of_refused h, push_of_refused h']
    rfl

theorem pop_regionBlind (c : Regions) : RegionBlind c pop := by
  intro s
  cases hs : s.stack with
  | nil =>
    have hs' : (s.withRegions c).stack = [] := hs
    rw [pop_nil hs, pop_nil hs']
    rfl
  | cons v rest =>
    have hs' : (s.withRegions c).stack = v :: rest := hs
    by_cases h : PopGoesThrough s
    · have h' : PopGoesThrough (s.withRegions c) := h
      rw [pop_ok hs h, pop_ok hs' h', popped_withRegions]
      rfl
    · have h' : ¬ PopGoesThrough (s.withRegions c) := h
      rw [pop_of_refused hs h, pop_of_refused hs' h']
      rfl

theorem top_regionBlind (c : Regions) : RegionBlind c top := by
  intro s
  cases hs : s.stack with
  | nil =>
    have hs' : (s.withRegions c).stack = [] := hs
    rw [top_nil hs, top_nil hs']
    rfl
  | cons v rest =>
    have hs' : (s.withRegions c).stack = v :: rest := hs
    rw [top_cons hs, top_cons hs']
    rfl

/-- An operand names a cell by the sizes of the regions, whatever they hold. -/
theorem locate_regionBlind (c : Regions) {o : Operand} (hd : o.isDestination = true) : RegionBlind c (locate o) := by
  intro s
  cases h : placeOf s.cfg o with
  | some p =>
    rw [locate_of_placeOf h, locate_of_placeOf (s := s.withRegions c) h]
    rfl
  | none =>
    rw [locate_of_placeOf_eq_none hd h, locate_of_placeOf_eq_none (s := s.withRegions c) hd h]
    rfl

theorem writePlace_regionBlind (c : Regions) (p : Place) (v : Value) :
    RegionBlind c fun s => .ok Signal.proceed (writePlace p v s) :=
  regionBlind_update _ fun s => by cases p <;> rfl

/-! ### The handlers -/

theorem push_proceed_regionBlind (c : Regions) (v : Value) :
    RegionBlind c fun s => (push v s).bind fun _ t => .ok Signal.proceed t :=
  (push_regionBlind c v).bind fun _ => regionBlind_ok c _

theorem binary_regionBlind (c : Regions) (op : Value → Value → Value) : RegionBlind c (binary op) :=
  (pop_regionBlind c).bind fun _ => (pop_regionBlind c).bind fun _ => push_proceed_regionBlind c _

theorem unary_regionBlind (c : Regions) (f : Value → Value) : RegionBlind c (unary f) :=
  (top_regionBlind c).bind fun v => regionBlind_update _ (f := setTop (f v)) fun _ => rfl

theorem drawing_regionBlind {c : Regions} {handler : Value → State → Res Signal}
    (h : ∀ nan, RegionBlind c (handler nan)) : RegionBlind c (drawing handler) :=
  fun s => h s.nanDraw (s.setNanDraws (s.nanDraws + 1))

theorem setPosition_regionBlind (c : Regions) (target : Addr) :
    RegionBlind c fun s => .ok Signal.jumped (setPosition target s) :=
  regionBlind_update _ fun _ => rfl

theorem condJump_regionBlind (c : Regions) (cond : Value → Value → Bool) (target : Addr) :
    RegionBlind c (condJump cond target) :=
  (pop_regionBlind c).bind fun _ => (pop_regionBlind c).bind fun _ => by
    split
    · exact setPosition_regionBlind c target
    · exact regionBlind_ok c _

theorem returnToTop_regionBlind (c : Regions) : RegionBlind c returnToTop :=
  (top_regionBlind c).bind fun _ => by
    split
    · exact regionBlind_raise c _
    · exact (pop_regionBlind c).bind fun _ => setPosition_regionBlind c _

theorem readInput_regionBlind (c : Regions) : RegionBlind c readInput := by
  intro s
  simp only [readInput, State.withRegions]
  split
  · rfl
  · rfl
  · exact push_proceed_regionBlind c _ (s.setInput _)

theorem popTo_regionBlind (c : Regions) {o : Operand} (hd : o.isDestination = true) : RegionBlind c (popTo o) :=
  (locate_regionBlind c hd).bind fun p => (pop_regionBlind c).bind fun v => writePlace_regionBlind c p v

theorem handlerOf_regionBlind (c : Regions) {i : Instr} (hwf : i.wellFormed = true) (hpush : ∀ o, i ≠ .push o)
    (hdraw : i ≠ .gDraw) (start : State) : RegionBlind c (handlerOf i start) := by
  cases i with
  | push source => exact absurd rfl (hpush source)
  | gDraw => exact absurd rfl hdraw
  | pop dest => exact popTo_regionBlind c hwf
  | dup => exact (top_regionBlind c).bind fun v => push_proceed_regionBlind c v
  | add | sub | mul | div => exact drawing_regionBlind fun _ => binary_regionBlind c _
  | sin | cos | sqrt => exact drawing_regionBlind fun _ => unary_regionBlind c _
  | pw2 => exact drawing_regionBlind fun nan => unary_regionBlind c fun v => fmul nan v v
  | pwInv => exact drawing_regionBlind fun nan => unary_regionBlind c fun v => fdiv nan one v
  | abs => exact unary_regionBlind c fabs
  | inp => exact readInput_regionBlind c
  | out => exact (pop_regionBlind c).bind fun v => regionBlind_update _ (f := emit (.out v)) fun _ => rfl
  | ja | jae | jb | jbe | je | jne => exact condJump_regionBlind c _ _
  | call target =>
    exact fun s => (push_regionBlind c (valueOfNat s.ip.toNat)).bind (fun _ => setPosition_regionBlind c target) s
  | ret => exact returnToTop_regionBlind c
  | gFill =>
    exact (pop_regionBlind c).bind fun v =>
      regionBlind_update _ (f := fun s => s.setVram (Memory.fill s.cfg.vramSize v)) fun _ => rfl
  | jmp target => exact setPosition_regionBlind c target
  | outN | halt | gInit | gDrawOn | gDrawOff => exact fun _ => rfl

/-! ### Instructions -/

/-- `je` and `jne` take nothing of the contents from the state at their opcode. -/
theorem handlerOf_withRegions (i : Instr) (start : State) (c : Regions) :
    handlerOf i (start.withRegions c) = handlerOf i start := by
  cases i <;> rfl

theorem commit_withRegions (s : State) (x : Res Signal) (c : Regions) :
    (commit s x).withRegions c = commit (s.withRegions c) (x.withRegions c) := by
  cases x with
  | ok a t => cases a <;> rfl
  | raise r t => rfl
  | wait => rfl

theorem exec_withRegions {c : Regions} {i : Instr} (hpush : ∀ o, i ≠ .push o) (hdraw : i ≠ .gDraw) {s t u : State}
    (ht : exec i s = .next t) (hu : exec i (s.withRegions c) = .next u) : u.withRegions c = t.withRegions c := by
  rw [exec_eq] at ht hu
  rw [handlerOf_withRegions] at hu
  cases ht
  cases hu
  by_cases hwf : ¬ i.wellFormed = true
  · rw [if_pos hwf, if_pos hwf]
    rfl
  by_cases hdepth : s.stack.length < stackIn i.mnemonic
  · have hdepth' : (s.withRegions c).stack.length < stackIn i.mnemonic := hdepth
    rw [if_neg hwf, if_neg hwf, if_pos hdepth, if_pos hdepth']
    rfl
  have hdepth' : ¬ (s.withRegions c).stack.length < stackIn i.mnemonic := hdepth
  rw [if_neg hwf, if_neg hwf, if_neg hdepth, if_neg hdepth', commit_withRegions, commit_withRegions]
  exact congrArg (commit (s.withRegions c))
    (handlerOf_regionBlind c (not_not.mp hwf) hpush hdraw s (decoded i s))

/-- Settles O59: with the same contents put into both, the two states are equal. -/
theorem onlyPushAndDrawReadRegions : Obligations.OnlyPushAndDrawReadRegions := by
  intro i s t u regs ram vram gfx hpush hdraw ht hu
  have h := exec_withRegions (c := ⟨regs, ram, vram, gfx⟩) hpush hdraw ht hu
  have hfield : ∀ {α : Type} (f : State → α), f (u.withRegions _) = f (t.withRegions _) := fun f => congrArg f h
  exact ⟨hfield State.stack, hfield State.ip, hfield State.status, hfield State.cap, hfield State.events,
    hfield State.input⟩

end Sys2Proof.Machine
end

section
/-! PROOF LAYER. Decode and encode agree (`30_encoding.md` R68 to R73; O1, O2, O3): each reader undoes its writer and
leaves the bytes after it alone, and the decoder admits no ill-formed instruction. -/

namespace Sys2Proof

/-! ### From the instruction to its bytes and back -/

/-- The operand of an admitted tag is read back (`30_encoding.md` R70, R73). -/
theorem decodeOperand_encode {t : TagMap} {allowed : List Tag} {o : Operand} (ht : Machine.TagsInjective t)
    (ho : o.tag ∈ allowed) (rest : List Byte) :
    decodeOperand t allowed (encodeOperand t o ++ rest) = .ok (o, rest) := by
  simp only [encodeOperand, List.cons_append, decodeOperand, readByte, TagMap.lookup_of_code ht ho]
  cases o with
  | reg i => rfl
  | const v | ram v | vram v =>
    simp only [Operand.tag, decodeTail, readValue_encode]
    rfl

/-- A well-formed instruction is read back from its bytes. -/
theorem decode_encode {e : Encoding} {i : Instr} (he : Machine.EncodingInjective e) (hwf : i.wellFormed = true)
    (rest : List Byte) : decode e (encode e i ++ rest) = .ok (i, rest) := by
  obtain ⟨hopcodes, htags⟩ := he
  simp only [encode, List.cons_append, decode, readByte, OpcodeMap.lookup_of_code hopcodes]
  cases i with
  | push o =>
    simp only [Instr.mnemonic, encodeFields, decodeOperand_encode htags o.tag.mem_pushTags]
    rfl
  | pop o =>
    simp only [Instr.mnemonic, encodeFields, decodeOperand_encode htags (o.tag_mem_popTags hwf)]
    rfl
  | jmp a | ja a | jae a | jb a | jbe a | je a | jne a | call a =>
    simp only [Instr.mnemonic, encodeFields, readAddress_encode]
    rfl
  | _ => rfl

/-! ### From bytes to a well-formed instruction -/

theorem decodeTail_tag {g : Tag} {bs rest : List Byte} {o : Operand} (h : decodeTail g bs = .ok (o, rest)) :
    o.tag = g := by
  cases g with
  | const | reg | ram | vram =>
    obtain ⟨_, -, hfield⟩ := Read.map_eq_ok h
    cases hfield
    rfl

/-- Only an operand of an admitted tag is read (`30_encoding.md` R72). -/
theorem decodeOperand_tag_mem {t : TagMap} {allowed : List Tag} {bs rest : List Byte} {o : Operand}
    (h : decodeOperand t allowed bs = .ok (o, rest)) : o.tag ∈ allowed := by
  unfold decodeOperand at h
  split at h
  · cases h
  · split at h
    · cases h
    · rename_i g hlookup
      exact decodeTail_tag h ▸ (TagMap.lookup_code hlookup).1

theorem Operand.isDestination_of_tag_mem {o : Operand} (h : o.tag ∈ popTags) : o.isDestination = true := by
  cases o with
  | const v => exact absurd h (by decide : Tag.const ∉ popTags)
  | reg i | ram v | vram v => rfl

/-- What is decoded is well-formed: `pop` is read with a tag that it admits (`30_encoding.md` R72). -/
theorem decode_wellFormed {e : Encoding} {bs rest : List Byte} {i : Instr} (h : decode e bs = .ok (i, rest)) :
    i.wellFormed = true := by
  unfold decode at h
  split at h
  · cases h
  · split at h
    · cases h
    · rename_i m _
      cases m with
      | pop =>
        obtain ⟨⟨o, r⟩, hoperand, hfield⟩ := Read.map_eq_ok h
        cases hfield
        exact Operand.isDestination_of_tag_mem (decodeOperand_tag_mem hoperand)
      | push | jmp | ja | jae | jb | jbe | je | jne | call =>
        obtain ⟨_, -, hfield⟩ := Read.map_eq_ok h
        cases hfield
        rfl
      | _ =>
        cases h
        rfl

/-- Settles O2: the opcode, the tag and the operand bytes are each read back. -/
theorem decodeOfEncode : Obligations.DecodeOfEncode := fun _ _ rest he hwf => decode_encode he hwf rest

/-- Settles O3: each reader answers only what its writer wrote. -/
theorem decodedBytesAreTheEncoding : Obligations.DecodedBytesAreTheEncoding := fun _ _ _ _ h =>
  ⟨decode_wellFormed h, decode_eq_ok h⟩

theorem encodingInjective_reference : Machine.EncodingInjective Encoding.reference := by decide

/-- Settles O1: the words are the encodings of their instructions, so they are read back. -/
theorem writtenWordsDecode : Obligations.WrittenWordsDecode := by
  have hword : ∀ i : Instr, i.wellFormed = true →
      decode Encoding.reference (encode Encoding.reference i ++ []) = .ok (i, []) := fun _ hwf =>
    decode_encode encodingInjective_reference hwf []
  exact ⟨hword (.push (.const 0x4008000000000000#64)) rfl, hword (.pop (.reg 0)) rfl, hword (.jmp 60#64) rfl,
    hword (.call 21#64) rfl, hword .add rfl, hword .inp rfl, hword .gFill rfl⟩

end Sys2Proof
end

section
/-! PROOF LAYER. What the bytes at `ip` make a step do: the instruction that they decode to, or the fault of the decoder
(`40_execution_engine.md` R85 to R87, R91), and from it the bytes that no map assigns (`30_encoding.md` R72, R77 to R79;
O4, O5). -/

namespace Sys2Proof

/-! ### Bytes without a meaning -/

/-- The bytes from an offset on begin with the byte there. -/
theorem drop_eq_cons_of_getElem? {bs : List Byte} {n : Nat} {b : Byte} (h : bs[n]? = some b) :
    bs.drop n = b :: bs.drop (n + 1) := by
  rw [List.drop_eq_getElem?_toList_append, h]
  rfl

theorem decode_of_unassigned {e : Encoding} {b : Byte} (h : ∀ m, e.opcodes.code m ≠ b) (rest : List Byte) :
    decode e (b :: rest) = .error .invalidOpcode := by
  simp only [decode, readByte, OpcodeMap.lookup_eq_none.mpr h]

theorem decodeOperand_of_not_admitted {t : TagMap} {allowed : List Tag} {b : Byte}
    (h : ∀ g ∈ allowed, t.code g ≠ b) (rest : List Byte) :
    decodeOperand t allowed (b :: rest) = .error .invalidOperand := by
  simp only [decodeOperand, readByte, TagMap.lookup_eq_none.mpr h]

theorem decode_push_of_unassigned {e : Encoding} (he : Machine.OpcodesInjective e.opcodes) {b : Byte}
    (h : ∀ g, e.tags.code g ≠ b) (rest : List Byte) :
    decode e (e.opcodes.push :: b :: rest) = .error .invalidOperand := by
  have hopcode : e.opcodes.lookup e.opcodes.push = some .push := OpcodeMap.lookup_of_code he .push
  simp only [decode, readByte, hopcode, decodeOperand_of_not_admitted fun g _ => h g]
  rfl

theorem decode_pop_of_not_admitted {e : Encoding} (he : Machine.OpcodesInjective e.opcodes) {b : Byte}
    (h : ∀ g ∈ popTags, e.tags.code g ≠ b) (rest : List Byte) :
    decode e (e.opcodes.pop :: b :: rest) = .error .invalidOperand := by
  have hopcode : e.opcodes.lookup e.opcodes.pop = some .pop := OpcodeMap.lookup_of_code he .pop
  simp only [decode, readByte, hopcode, decodeOperand_of_not_admitted h]
  rfl

/-- Under an injective TAG_MAP no tag that `pop` admits has the byte of CONST (log 22). -/
theorem TagMap.code_ne_const {t : TagMap} (h : Machine.TagsInjective t) {g : Tag} (hg : g ∈ popTags) :
    t.code g ≠ t.const := fun heq =>
  (List.nodup_cons.mp h).1 (List.mem_map.mpr ⟨g, hg, heq⟩)

/-- The reference map numbers the catalogue from `0x01` on (`30_encoding.md` R77). -/
theorem OpcodeMap.codes_reference :
    Mnemonic.all.map OpcodeMap.reference.code = (List.range' 1 31).map (BitVec.ofNat 8) := rfl

theorem OpcodeMap.exists_code_reference_iff {b : Byte} :
    (∃ m, OpcodeMap.reference.code m = b) ↔ 0x01#8 ≤ b ∧ b < 0x20#8 := by
  have hmem : (∃ m, OpcodeMap.reference.code m = b) ↔ b ∈ Mnemonic.all.map OpcodeMap.reference.code := by
    simp [Mnemonic.mem_all]
  rw [hmem, OpcodeMap.codes_reference, List.mem_map]
  constructor
  · rintro ⟨k, hk, rfl⟩
    rw [List.mem_range'_1] at hk
    bv_omega
  · intro hb
    exact ⟨b.toNat, by rw [List.mem_range'_1]; bv_omega, by simp⟩

end Sys2Proof

namespace Sys2Proof.Machine

/-! ### What the bytes at `ip` make a step do -/

theorem fetch_of_decode_ok {s : State} {i : Instr} {rest : List Byte} (hip : s.ip.toNat < s.len)
    (h : decode s.cfg.encoding (bytesAtIp s) = .ok (i, rest)) : fetch s = .instr i := by
  rw [fetch, if_neg hip.ne, if_neg (Nat.not_lt.mpr hip.le), h]

theorem fetch_of_decode_error {s : State} {err : DecodeError} (hip : s.ip.toNat < s.len)
    (h : decode s.cfg.encoding (bytesAtIp s) = .error err) : fetch s = .fault (faultOf err) := by
  rw [fetch, if_neg hip.ne, if_neg (Nat.not_lt.mpr hip.le), h]

theorem step_of_fetch_fault {s : State} {r : FaultReason} (hrun : s.status = .running) (hf : fetch s = .fault r) :
    step s = .next (faultedAt r s) := by
  rcases step_cases s with ⟨hne, -⟩ | ⟨-, hf', -⟩ | ⟨r', -, hf', hstep⟩ | ⟨i, -, hf', -⟩
  · exact absurd hrun hne
  · cases hf.symm.trans hf'
  · cases hf.symm.trans hf'
    exact hstep
  · cases hf.symm.trans hf'

theorem step_of_fetch_instr {s t : State} {i : Instr} (hrun : s.status = .running) (hf : fetch s = .instr i)
    (h : step s = .next t) : ∃ u, exec i s = .next u ∧ t = finishStep s u := by
  rcases step_cases s with ⟨hne, -⟩ | ⟨-, hf', -⟩ | ⟨r, -, hf', -⟩ | ⟨j, -, hf', hstep⟩
  · exact absurd hrun hne
  · cases hf.symm.trans hf'
  · cases hf.symm.trans hf'
  · cases hf.symm.trans hf'
    cases (hstep _ (exec_eq i s)).symm.trans h
    exact ⟨_, exec_eq i s, rfl⟩

/-- A decoder's error at a byte of the stream is a fault that took no answer of the host. -/
theorem step_of_decode_error {s : State} {b : Byte} {err : DecodeError} (hrun : s.status = .running)
    (hb : s.stream[s.ip.toNat]? = some b)
    (h : decode s.cfg.encoding (b :: s.stream.drop (s.ip.toNat + 1)) = .error err) :
    step s = .next (faultedAt (faultOf err) s) := by
  obtain ⟨hip, -⟩ := List.getElem?_eq_some_iff.mp hb
  have hbytes : bytesAtIp s = b :: s.stream.drop (s.ip.toNat + 1) := drop_eq_cons_of_getElem? hb
  exact step_of_fetch_fault hrun (fetch_of_decode_error hip (hbytes ▸ h))

/-- Settles O4: a lookup finds no mnemonic, and the reference map assigns `0x01` to `0x1F`. -/
theorem unassignedOpcodeFaults : Obligations.UnassignedOpcodeFaults := by
  refine ⟨fun s b hrun hb hcode => step_of_decode_error hrun hb (decode_of_unassigned hcode _), fun b => ?_⟩
  rw [← not_exists, OpcodeMap.exists_code_reference_iff]
  bv_omega

/-- Settles O5: an admitted tag is read back, and any other tag byte is the decoder's error InvalidOperand. -/
theorem tagNotAdmittedFaults : Obligations.TagNotAdmittedFaults := by
  refine ⟨⟨rfl, rfl, rfl, rfl⟩, fun e o rest he => ⟨decode_encode he rfl rest, fun ho => decode_encode he ?_ rest⟩,
    fun s b hrun he hop hb htag => ?_, fun s b hrun he hop hb htag => ?_⟩
  · cases o with
    | const v => exact absurd rfl (ho v)
    | reg i | ram v | vram v => rfl
  · exact step_of_decode_error hrun hop (drop_eq_cons_of_getElem? hb ▸ decode_push_of_unassigned he.1 htag _)
  · have hpop : ∀ g ∈ popTags, s.cfg.encoding.tags.code g ≠ b := by
      intro g hg
      rcases htag with hnone | rfl
      · exact hnone g
      · exact TagMap.code_ne_const he.2 hg
    exact step_of_decode_error hrun hop (drop_eq_cons_of_getElem? hb ▸ decode_pop_of_not_admitted he.1 hpop _)

end Sys2Proof.Machine
end

section
/-! PROOF LAYER. Where `ip` stands after an instruction (`40_execution_engine.md` R87, R89, R90; O15). The frame puts
`ip` past the instruction before the handler runs; only a handler that answers jump-performed moves it again. -/

namespace Sys2Proof.Machine

/-! ### What a part of a handler leaves where it answers -/

/-- Where this part answers, it answers an `a` in a state `t` with `P a t`. -/
def Res.Answers {α : Type} (P : α → State → Prop) : Res α → Prop
  | .ok a t => P a t
  | .raise _ _ => True
  | .wait => True

theorem Res.Answers.of_eq_ok {α : Type} {P : α → State → Prop} {x : Res α} (h : ∀ a t, x = .ok a t → P a t) :
    x.Answers P := by
  cases x with
  | ok a t => exact h a t rfl
  | raise r t => trivial
  | wait => trivial

theorem Res.Answers.bind {α β : Type} {P : α → State → Prop} {Q : β → State → Prop} {x : Res α}
    {f : α → State → Res β} (hx : x.Answers P) (hf : ∀ a t, P a t → (f a t).Answers Q) : (x.bind f).Answers Q := by
  cases x with
  | ok a t => exact hf a t hx
  | raise r t => trivial
  | wait => trivial

/-- The answer of an operation that leaves `ip` at `ip`. -/
def IpAt {α : Type} (ip : Addr) (_ : α) (t : State) : Prop := t.ip = ip

theorem push_ipAt {s : State} {ip : Addr} (hip : s.ip = ip) (v : Value) : (push v s).Answers (IpAt ip) :=
  .of_eq_ok fun _ _ h => by
    obtain ⟨-, rfl⟩ := push_eq_ok h
    exact (pushed_ip v s).trans hip

theorem pop_ipAt {s : State} {ip : Addr} (hip : s.ip = ip) : (pop s).Answers (IpAt ip) :=
  .of_eq_ok fun _ _ h => by
    obtain ⟨-, -, rfl⟩ := pop_eq_ok h
    exact (popped_ip s).trans hip

theorem top_ipAt {s : State} {ip : Addr} (hip : s.ip = ip) : (top s).Answers (IpAt ip) :=
  .of_eq_ok fun _ _ h => by
    obtain ⟨-, rfl⟩ := top_eq_ok h
    exact hip

theorem locate_ipAt {s : State} {ip : Addr} (hip : s.ip = ip) (o : Operand) : (locate o s).Answers (IpAt ip) :=
  .of_eq_ok fun _ _ h => by
    obtain ⟨rfl, -⟩ := locate_eq_ok h
    exact hip

theorem sourceValue_ipAt {s : State} {ip : Addr} (hip : s.ip = ip) (o : Operand) :
    (sourceValue o s).Answers (IpAt ip) :=
  .of_eq_ok fun _ _ h => by
    obtain rfl := sourceValue_eq_ok_state h
    exact hip

/-! ### The control signals of the handlers -/

/-- The instructions whose handler may move `ip` itself (`44_control.md` R119 to R129). -/
def jumping : List Mnemonic := [.jmp, .ja, .jae, .jb, .jbe, .je, .jne, .call, .ret]

/-- What the control signal that the handler of `i` answers tells of `i` and of `ip`, which the handler found at `ip`
(`40_execution_engine.md` R89). -/
def SignalOf (i : Instr) (ip : Addr) (signal : Signal) (t : State) : Prop :=
  match signal with
  | .proceed => t.ip = ip
  | .jumped => i.mnemonic ∈ jumping
  | .halt => i = .halt ∧ t.ip = ip

section
variable {i : Instr} {ip : Addr} {s : State}

theorem push_proceed_signalOf (hip : s.ip = ip) (v : Value) :
    ((push v s).bind fun _ t => .ok Signal.proceed t).Answers (SignalOf i ip) :=
  (push_ipAt hip v).bind fun _ _ h => h

theorem binary_signalOf (hip : s.ip = ip) (op : Value → Value → Value) : (binary op s).Answers (SignalOf i ip) :=
  (pop_ipAt hip).bind fun _ _ h => (pop_ipAt h).bind fun _ _ h => push_proceed_signalOf h _

theorem unary_signalOf (hip : s.ip = ip) (f : Value → Value) : (unary f s).Answers (SignalOf i ip) :=
  (top_ipAt hip).bind fun _ _ h => h

/-- A draw changes only its counter. -/
theorem drawing_signalOf {handler : Value → State → Res Signal} (hip : s.ip = ip)
    (h : ∀ nan t, t.ip = ip → (handler nan t).Answers (SignalOf i ip)) : (drawing handler s).Answers (SignalOf i ip) :=
  h s.nanDraw (s.setNanDraws (s.nanDraws + 1)) hip

theorem condJump_signalOf (hjump : i.mnemonic ∈ jumping) (hip : s.ip = ip) (cond : Value → Value → Bool)
    (target : Addr) : (condJump cond target s).Answers (SignalOf i ip) :=
  (pop_ipAt hip).bind fun _ _ h => (pop_ipAt h).bind fun _ _ h => by
    split
    · exact hjump
    · exact h

theorem returnToTop_signalOf (hjump : i.mnemonic ∈ jumping) (hip : s.ip = ip) :
    (returnToTop s).Answers (SignalOf i ip) :=
  (top_ipAt hip).bind fun _ _ h => by
    split
    · trivial
    · exact (pop_ipAt h).bind fun _ _ _ => hjump

theorem readInput_signalOf (hip : s.ip = ip) : (readInput s).Answers (SignalOf i ip) := by
  unfold readInput
  split
  · trivial
  · trivial
  · rename_i v rest _
    exact push_proceed_signalOf (s := s.setInput rest) hip v

theorem popTo_signalOf (hip : s.ip = ip) (o : Operand) : (popTo o s).Answers (SignalOf i ip) :=
  (locate_ipAt hip o).bind fun p _ h => (pop_ipAt h).bind fun v t h => (writePlace_ip p v t).trans h

end

theorem handlerOf_signalOf (i : Instr) (start s : State) : (handlerOf i start s).Answers (SignalOf i s.ip) := by
  cases i with
  | push source => exact (sourceValue_ipAt rfl source).bind fun v _ h => push_proceed_signalOf h v
  | pop dest => exact popTo_signalOf rfl dest
  | dup => exact (top_ipAt rfl).bind fun v _ h => push_proceed_signalOf h v
  | add | sub | mul | div => exact drawing_signalOf rfl fun _ _ h => binary_signalOf h _
  | sin | cos | sqrt => exact drawing_signalOf rfl fun _ _ h => unary_signalOf h _
  | pw2 => exact drawing_signalOf rfl fun nan _ h => unary_signalOf h fun v => fmul nan v v
  | pwInv => exact drawing_signalOf rfl fun nan _ h => unary_signalOf h fun v => fdiv nan one v
  | abs => exact unary_signalOf rfl fabs
  | inp => exact readInput_signalOf rfl
  | out | gFill => exact (pop_ipAt rfl).bind fun _ _ h => h
  | outN | gInit | gDrawOn | gDrawOff | gDraw => exact rfl
  | jmp => exact (by decide : Mnemonic.jmp ∈ jumping)
  | ja | jae | jb | jbe | je | jne => exact condJump_signalOf (by simp [jumping, Instr.mnemonic]) rfl _ _
  | call => exact (push_ipAt rfl _).bind fun _ _ _ => (by decide : Mnemonic.call ∈ jumping)
  | ret => exact returnToTop_signalOf (by decide : Mnemonic.ret ∈ jumping) rfl
  | halt => exact ⟨rfl, rfl⟩

/-! ### Instructions and steps -/

/-- Where `ip` stands in the state `t` after the instruction `i`, begun in `s`: at its opcode after a fault, past it
after `halt`, and past it if the instruction has ended and is none that jumps. -/
structure IpAfter (i : Instr) (s t : State) : Prop where
  fault : ∀ r, t.status = .faulted r → t.ip = s.ip
  halt : t.status = .halted → i = .halt ∧ t.ip = (decoded i s).ip
  running : t.status = .running → t.inputPending = false → i.mnemonic ∉ jumping → t.ip = (decoded i s).ip

theorem IpAfter.takeFault (i : Instr) (s : State) (r : FaultReason) (reached : State) :
    IpAfter i s (takeFault r s reached) where
  fault _ _ := rfl
  halt := nofun
  running := nofun

theorem IpAfter.of_running {i : Instr} {s t : State} (ht : t.status = .running)
    (h : t.inputPending = false → i.mnemonic ∉ jumping → t.ip = (decoded i s).ip) : IpAfter i s t where
  fault _ hfault := nomatch ht.symm.trans hfault
  halt hhalt := nomatch ht.symm.trans hhalt
  running _ := h

theorem IpAfter.commit {i : Instr} {s : State} {x : Res Signal} (hrun : s.status = .running)
    (hstatus : x.Uncorrupted s.status) (hsignal : x.Answers (SignalOf i (decoded i s).ip)) :
    IpAfter i s (commit s x) := by
  cases x with
  | ok a t =>
    have ht : t.status = .running := Eq.trans hstatus hrun
    cases a with
    | proceed => exact .of_running ht fun _ _ => hsignal
    | jumped => exact .of_running ht fun _ hn => absurd hsignal hn
    | halt => exact ⟨nofun, fun _ => hsignal, nofun⟩
  | raise r t => exact .takeFault i s r t
  | wait => exact .of_running hrun nofun

theorem exec_ipAfter {i : Instr} {s t : State} (hrun : s.status = .running) (h : exec i s = .next t) :
    IpAfter i s t := by
  rw [exec_eq] at h
  cases h
  split
  · exact .takeFault i s _ s
  · split
    · exact .takeFault i s _ s
    · exact .commit hrun (handlerOf_uncorrupted i s (decoded i s)) (handlerOf_signalOf i s (decoded i s))

/-- The Render at the end of a step moves nothing. -/
theorem IpAfter.finishStep {i : Instr} {s t : State} (h : IpAfter i s t) : IpAfter i s (finishStep s t) := by
  rw [finishStep_eq]
  exact { h with }

/-- Settles O15: a step in which an instruction is decoded is that instruction and the end of the step. -/
theorem ipAfterAStep : Obligations.IpAfterAStep := by
  intro s t i rest hrun hip hdecode hstep
  obtain ⟨u, hexec, rfl⟩ := step_of_fetch_instr hrun (fetch_of_decode_ok hip hdecode) hstep
  obtain ⟨hfault, hhalt, hrunning⟩ := (exec_ipAfter hrun hexec).finishStep
  refine ⟨hfault, fun h => ?_, fun h hpending hn => encode_length s.cfg.encoding i ▸ hrunning h hpending hn⟩
  obtain ⟨rfl, hpast⟩ := hhalt h
  exact ⟨rfl, hpast⟩

end Sys2Proof.Machine
end

section
/-! PROOF LAYER. What a step answers (`40_execution_engine.md` R83 to R93; O7 to O10), and its Render: a completed step
that began with graphics active ends with it, and no instruction emits one (R92; O11). -/

namespace Sys2Proof.Machine

/-! ### The end of a step -/

theorem completed_eq_true_iff (t : State) : completed t = true ↔ t.unfaulted = true ∧ t.inputPending = false := by
  unfold completed State.unfaulted
  cases t.status with
  | running | halted => simp
  | faulted r => simp

/-- A fault has no Render after it. -/
theorem finishStep_of_faulted (start : State) {t : State} {r : FaultReason} (h : t.status = .faulted r) :
    finishStep start t = t := by
  have hc : completed t = false := by simp only [completed, h]
  simp [finishStep, hc]

/-- A step that does not wait ends with a Render, if it began with graphics active and did not fault
(`40_execution_engine.md` R92). -/
theorem finishStep_events (start : State) {t : State} (hpending : t.inputPending = false) :
    (finishStep start t).events =
      t.events ++ (if start.gfx = true ∧ t.unfaulted = true then [.render t.vramCells] else []) := by
  have hrenders : (start.gfx && completed t) = true ↔ start.gfx = true ∧ t.unfaulted = true := by
    rw [Bool.and_eq_true, completed_eq_true_iff, and_iff_left hpending]
  rw [finishStep_eq]
  exact congrArg (t.events ++ ·) (if_congr hrenders rfl rfl)

theorem finishStep_vram (start t : State) : (finishStep start t).vram = t.vram := by
  rw [finishStep_eq]

theorem finishStep_unfaulted (start t : State) : (finishStep start t).unfaulted = t.unfaulted := by
  rw [State.unfaulted, finishStep_status, State.unfaulted]

/-! ### What a step answers -/

theorem step_of_terminal {s : State} (h : s.status ≠ .running) : step s = .next s := by
  rcases step_cases s with ⟨-, hstep⟩ | ⟨hrun, -⟩ | ⟨_, hrun, -⟩ | ⟨_, hrun, -⟩
  · exact hstep
  · exact absurd hrun h
  · exact absurd hrun h
  · exact absurd hrun h

theorem fetch_at_end {s : State} (h : s.ip.toNat = s.len) : fetch s = .endOfStream := if_pos h

theorem fetch_past_end {s : State} (h : s.len < s.ip.toNat) : fetch s = .fault .outOfBounds := by
  rw [fetch, if_neg h.ne', if_pos h]

theorem step_of_fetch_end {s : State} (hrun : s.status = .running) (hf : fetch s = .endOfStream) :
    step s = .next (finishStep s (haltAtEnd s)) := by
  rcases step_cases s with ⟨hne, -⟩ | ⟨-, -, hstep⟩ | ⟨_, -, hf', -⟩ | ⟨_, -, hf', -⟩
  · exact absurd hrun hne
  · exact hstep
  · cases hf.symm.trans hf'
  · cases hf.symm.trans hf'

theorem step_answers (s : State) : ∃ t, step s = .next t := by
  rcases step_cases s with ⟨-, hstep⟩ | ⟨-, -, hstep⟩ | ⟨_, -, -, hstep⟩ | ⟨i, -, -, hstep⟩
  · exact ⟨_, hstep⟩
  · exact ⟨_, hstep⟩
  · exact ⟨_, hstep⟩
  · exact ⟨_, hstep _ (exec_eq i s)⟩

/-- Settles O7: the step is the instruction and the end of the step. -/
theorem stepRunsDecodedInstruction : Obligations.StepRunsDecodedInstruction := by
  intro s t i rest hrun hip hdecode hexec
  obtain ⟨u, hstep⟩ := step_answers s
  obtain ⟨t', hexec', rfl⟩ := step_of_fetch_instr hrun (fetch_of_decode_ok hip hdecode) hstep
  cases hexec.symm.trans hexec'
  rw [hstep, finishStep]
  congr 1
  exact if_congr (by rw [Bool.and_eq_true, completed_eq_true_iff]) rfl rfl

/-- Settles O8: `exec_eq` writes out the answer of every instruction, and `step_cases` that of every step. -/
theorem everyStepAnswers : Obligations.EveryStepAnswers :=
  ⟨fun i s => ⟨_, exec_eq i s⟩, step_answers⟩

/-- Settles O9: a terminal status is any but Running. -/
theorem terminalStepChangesNothing : Obligations.TerminalStepChangesNothing := by
  intro s h
  refine step_of_terminal ?_
  rcases h with h | ⟨r, h⟩ <;> simp [h]

/-- Settles O10: the end of the stream is met before any byte is read. -/
theorem fetchAtAndPastTheEnd : Obligations.FetchAtAndPastTheEnd := by
  refine ⟨fun s hrun h => ?_, fun s hrun h => step_of_fetch_fault hrun (fetch_past_end h)⟩
  have hcompleted : completed (haltAtEnd s) = true := rfl
  rw [step_of_fetch_end hrun (fetch_at_end h), finishStep_eq, hcompleted, Bool.and_true]
  rfl

/-! ### The Render -/

/-- From `s` to `t` events were emitted, none of them a Render. -/
def EmitsNoRender (s t : State) : Prop :=
  ∃ es : List Event, (∀ e ∈ es, ∀ cells, e ≠ .render cells) ∧ t.events = s.events ++ es

theorem EmitsNoRender.of_eq {s t : State} (h : t.events = s.events) : EmitsNoRender s t :=
  ⟨[], nofun, by rw [h, List.append_nil]⟩

theorem EmitsNoRender.of_emit {s t : State} {e : Event} (he : ∀ cells, e ≠ .render cells)
    (h : t.events = s.events ++ [e]) : EmitsNoRender s t :=
  ⟨[e], fun _ he' => List.mem_singleton.mp he' ▸ he, h⟩

/-- `out` emits the Value popped, or nothing where it faults. -/
theorem exec_out_emitsNoRender {s t : State} (h : exec .out s = .next t) : EmitsNoRender s t := by
  rw [exec_eq_perform rfl, perform_eq] at h
  split at h
  · cases h
    exact .of_eq rfl
  · cases h
    cases hpop : pop (decoded .out s) with
    | ok v u =>
      obtain ⟨-, -, rfl⟩ := pop_eq_ok hpop
      have hhandler : handlerOf .out s (decoded .out s) = .ok .proceed (emit (.out v) (popped (decoded .out s))) := by
        simp only [handlerOf, hpop, Res.bind_ok]
      rw [hhandler]
      exact .of_emit (e := .out v) nofun (congrArg (· ++ [Event.out v]) (popped_events (decoded .out s)))
    | raise r u =>
      have hhandler : handlerOf .out s (decoded .out s) = .raise r u := by simp only [handlerOf, hpop, Res.bind_raise]
      rw [hhandler]
      exact .of_eq rfl
    | wait => exact absurd hpop (pop_ne_wait _)

/-- None of the instructions that write the event history (`WritesOnlyAs`) emits a Render. -/
theorem exec_emitsNoRender {i : Instr} {s t : State} (h : exec i s = .next t) : EmitsNoRender s t := by
  by_cases hsame : t.events = s.events
  · exact .of_eq hsame
  · rcases (exec_writesOnlyAs h).events hsame with rfl | rfl | rfl | rfl
    · exact exec_out_emitsNoRender h
    · cases h
      exact .of_emit (e := .newline) nofun rfl
    · cases h
      exact .of_emit (e := .displayInit s.cfg.vramW s.cfg.vramH) nofun rfl
    · cases h
      exact .of_emit (e := .draw s.vramCells) nofun rfl

/-- Settles O11: the step halted at the end of the stream, faulted at the fetch, or ran an instruction, which emits no
Render and leaves the size of VRAM; the Render is the end of the step. -/
theorem renderEndsTheStep : Obligations.RenderEndsTheStep := by
  intro s t hrun h hpending
  obtain ⟨u, rfl, ⟨es, hes, hevents⟩, hcfg⟩ : ∃ u, t = finishStep s u ∧ EmitsNoRender s u ∧ u.cfg = s.cfg := by
    rcases step_cases s with ⟨hne, -⟩ | ⟨-, -, hstep⟩ | ⟨r, -, -, hstep⟩ | ⟨i, -, -, hstep⟩
    · exact absurd hrun hne
    · cases hstep.symm.trans h
      exact ⟨haltAtEnd s, rfl, .of_eq rfl, rfl⟩
    · cases hstep.symm.trans h
      exact ⟨takeFault r s s, (finishStep_of_faulted s rfl).symm, .of_eq rfl, rfl⟩
    · cases (hstep _ (exec_eq i s)).symm.trans h
      exact ⟨_, rfl, exec_emitsNoRender (exec_eq i s), (exec_writesOnlyAs (exec_eq i s)).cfg⟩
  rw [finishStep_inputPending] at hpending
  refine ⟨es, hes, ?_⟩
  rw [finishStep_events s hpending, hevents, finishStep_unfaulted, finishStep_vram, ← hcfg]
  rfl

end Sys2Proof.Machine
end

section
/-! PROOF LAYER. What a fault leaves (`40_execution_engine.md` R88, R90; O12, O18). A handler takes answers from the
host and gives none back. One that finds the Values it needs does not raise Underflow, so that fault is the frame's. -/

namespace Sys2Proof.Machine

/-! ### Answers taken from the host -/

/-- From `s` to `t` answers of the host were taken, in order, and nothing else happened to its channels
(`60_exceptions.md` R147). -/
def AnswersTaken (s t : State) : Prop :=
  ∃ j k : Nat, t.alloc = { s.alloc with coming := s.alloc.coming.drop j } ∧ t.input = s.input.drop k

theorem AnswersTaken.refl (s : State) : AnswersTaken s s := ⟨0, 0, rfl, rfl⟩

theorem AnswersTaken.trans {s t u : State} (h : AnswersTaken s t) (h' : AnswersTaken t u) : AnswersTaken s u := by
  obtain ⟨j, k, halloc, hinput⟩ := h
  obtain ⟨j', k', halloc', hinput'⟩ := h'
  refine ⟨j + j', k + k', ?_, ?_⟩
  · rw [halloc', halloc, List.drop_drop]
  · rw [hinput', hinput, List.drop_drop]

/-- One request to the allocator. -/
theorem AnswersTaken.of_advance {s t : State} (halloc : t.alloc = s.alloc.advance) (hinput : t.input = s.input) :
    AnswersTaken s t :=
  ⟨1, 0, by rw [halloc, List.drop_one, Allocator.advance], by rw [hinput, List.drop_zero]⟩

theorem AnswersTaken.of_eq {s t : State} (halloc : t.alloc = s.alloc) (hinput : t.input = s.input) :
    AnswersTaken s t :=
  ⟨0, 0, by rw [halloc, List.drop_zero], by rw [hinput, List.drop_zero]⟩

theorem AnswersTaken.pushed (v : Value) (s : State) : AnswersTaken s (pushed v s) := by
  by_cases hfull : s.stack.length = s.cap
  · exact .of_advance (by rw [pushed_alloc, if_pos hfull]) (pushed_input v s)
  · exact .of_eq (by rw [pushed_alloc, if_neg hfull]) (pushed_input v s)

theorem AnswersTaken.popped (s : State) : AnswersTaken s (popped s) := by
  by_cases hshrinks : s.cap > 2 * s.stack.length
  · exact .of_advance (by rw [popped_alloc, if_pos hshrinks]) (popped_input s)
  · exact .of_eq (by rw [popped_alloc, if_neg hshrinks]) (popped_input s)

/-! ### The shared operations -/

/-- An answer of a part of a handler that started in `s` and found the Values it needs there. -/
def Res.FindsItsValues {α : Type} (s : State) : Res α → Prop
  | .ok _ t => AnswersTaken s t
  | .raise r t => r ≠ .underflow ∧ AnswersTaken s t
  | .wait => True

theorem Res.FindsItsValues.after {α : Type} {s t : State} {x : Res α} (h : AnswersTaken s t)
    (hx : x.FindsItsValues t) : x.FindsItsValues s := by
  cases x with
  | ok a u => exact h.trans hx
  | raise r u =>
    obtain ⟨hne, htaken⟩ := hx
    exact ⟨hne, h.trans htaken⟩
  | wait => trivial

/-- The second part may use what the first one answered. -/
theorem Res.FindsItsValues.bind {α β : Type} {s : State} {x : Res α} {f : α → State → Res β}
    (hx : x.FindsItsValues s) (hf : ∀ a t, x = .ok a t → (f a t).FindsItsValues t) :
    (x.bind f).FindsItsValues s := by
  cases x with
  | ok a t => exact .after hx (hf a t rfl)
  | raise r t => exact hx
  | wait => trivial

theorem push_findsItsValues (v : Value) (s : State) : (push v s).FindsItsValues s := by
  rw [push_eq]
  split
  · exact .pushed v s
  · split
    · exact ⟨by decide, .refl s⟩
    · exact ⟨by decide, .of_advance rfl rfl⟩

/-- What follows a `Pop` of a stack that is not empty starts on the rest of the stack. -/
theorem pop_bind_findsItsValues {α : Type} {s : State} {f : Value → State → Res α} (hs : 1 ≤ s.stack.length)
    (hf : ∀ v, (f v (popped s)).FindsItsValues (popped s)) : ((pop s).bind f).FindsItsValues s := by
  obtain ⟨v, rest, hcons⟩ := List.length_pos_iff_exists_cons.mp hs
  rw [pop_cons hcons]
  split
  · exact .after (.popped s) (hf v)
  · exact ⟨by decide, .of_advance rfl rfl⟩

/-- What follows a `Top` of a stack that is not empty starts in the same state. -/
theorem top_bind_findsItsValues {α : Type} {s : State} {f : Value → State → Res α} (hs : 1 ≤ s.stack.length)
    (hf : ∀ v, (f v s).FindsItsValues s) : ((top s).bind f).FindsItsValues s := by
  obtain ⟨v, rest, hcons⟩ := List.length_pos_iff_exists_cons.mp hs
  rw [top_cons hcons]
  exact hf v

theorem locate_findsItsValues (o : Operand) (s : State) : (locate o s).FindsItsValues s := by
  cases h : locate o s with
  | ok p t =>
    obtain ⟨rfl, -⟩ := locate_eq_ok h
    exact .refl _
  | raise r t =>
    obtain ⟨rfl, ⟨rfl, -⟩ | ⟨rfl, -⟩⟩ := locate_eq_raise h
    · exact ⟨by decide, .refl _⟩
    · exact ⟨by decide, .refl _⟩
  | wait => trivial

theorem sourceValue_findsItsValues (o : Operand) (s : State) : (sourceValue o s).FindsItsValues s := by
  cases o with
  | const v => exact AnswersTaken.refl s
  | reg i | ram v | vram v => exact (locate_findsItsValues _ s).bind fun _ t _ => AnswersTaken.refl t

/-! ### The handlers -/

theorem push_proceed_findsItsValues (v : Value) (s : State) :
    ((push v s).bind fun _ t => .ok Signal.proceed t).FindsItsValues s :=
  (push_findsItsValues v s).bind fun _ t _ => AnswersTaken.refl t

/-- Two pops find their Values on a stack of at least two. -/
theorem pop_pop_findsItsValues {s : State} {f : Value → Value → State → Res Signal} (hs : 2 ≤ s.stack.length)
    (hf : ∀ a b t, (f a b t).FindsItsValues t) :
    ((pop s).bind fun a t => (pop t).bind fun b u => f a b u).FindsItsValues s :=
  pop_bind_findsItsValues (Nat.le_of_succ_le hs) fun a =>
    pop_bind_findsItsValues (by rw [popped_stack, List.length_tail]; omega) fun b => hf a b _

theorem binary_findsItsValues {s : State} (hs : 2 ≤ s.stack.length) (op : Value → Value → Value) :
    (binary op s).FindsItsValues s :=
  pop_pop_findsItsValues hs fun _ _ t => push_proceed_findsItsValues _ t

theorem unary_findsItsValues {s : State} (hs : 1 ≤ s.stack.length) (f : Value → Value) :
    (unary f s).FindsItsValues s :=
  top_bind_findsItsValues hs fun _ => AnswersTaken.refl s

theorem condJump_findsItsValues {s : State} (hs : 2 ≤ s.stack.length) (cond : Value → Value → Bool)
    (target : Addr) : (condJump cond target s).FindsItsValues s :=
  pop_pop_findsItsValues hs fun _ _ t => by
    split <;> exact AnswersTaken.refl t

theorem returnToTop_findsItsValues {s : State} (hs : 1 ≤ s.stack.length) : (returnToTop s).FindsItsValues s :=
  top_bind_findsItsValues hs fun _ => by
    split
    · exact ⟨by decide, .refl s⟩
    · exact pop_bind_findsItsValues hs fun _ => AnswersTaken.refl _

theorem readInput_findsItsValues (s : State) : (readInput s).FindsItsValues s := by
  have htaken : ∀ {a rest}, s.input = a :: rest → AnswersTaken s (s.setInput rest) :=
    fun h => ⟨0, 1, rfl, by simp [h]⟩
  unfold readInput
  split
  · trivial
  · rename_i h
    exact ⟨by decide, htaken h⟩
  · rename_i h
    exact .after (htaken h) (push_proceed_findsItsValues _ _)

theorem popTo_findsItsValues {s : State} (hs : 1 ≤ s.stack.length) (o : Operand) : (popTo o s).FindsItsValues s :=
  (locate_findsItsValues o s).bind fun p t h => by
    obtain ⟨rfl, -⟩ := locate_eq_ok h
    exact pop_bind_findsItsValues hs fun v => .of_eq (writePlace_alloc p v _) (writePlace_input p v _)

/-- A handler finds the Values that the stack-in column asks for (`30_encoding.md` R77). -/
theorem handlerOf_findsItsValues (i : Instr) (start : State) {s : State} (hs : stackIn i.mnemonic ≤ s.stack.length) :
    (handlerOf i start s).FindsItsValues s := by
  cases i with
  | push source => exact (sourceValue_findsItsValues source s).bind fun v t _ => push_proceed_findsItsValues v t
  | pop dest => exact popTo_findsItsValues hs dest
  | dup => exact top_bind_findsItsValues hs fun v => push_proceed_findsItsValues v s
  | add | sub | mul | div => exact binary_findsItsValues (s := s.setNanDraws (s.nanDraws + 1)) hs _
  | sin | cos | sqrt | pw2 | pwInv => exact unary_findsItsValues (s := s.setNanDraws (s.nanDraws + 1)) hs _
  | abs => exact unary_findsItsValues hs fabs
  | inp => exact readInput_findsItsValues s
  | out | gFill => exact pop_bind_findsItsValues hs fun _ => AnswersTaken.refl _
  | ja target | jae target | jb target | jbe target | je target | jne target =>
    exact condJump_findsItsValues hs _ target
  | call target => exact (push_findsItsValues _ s).bind fun _ t _ => AnswersTaken.refl t
  | ret => exact returnToTop_findsItsValues hs
  | outN | jmp | halt | gInit | gDrawOn | gDrawOff | gDraw => exact AnswersTaken.refl s

/-! ### Instructions and steps -/

/-- The end of a handler is a fault only where the handler raised it. -/
theorem commit_faulted {s : State} {x : Res Signal} {r : FaultReason} (hrun : s.status = .running)
    (hx : x.Uncorrupted s.status) (h : (commit s x).status = .faulted r) : ∃ u, x = .raise r u := by
  rcases commit_cases s x with ⟨t, rfl, hc⟩ | ⟨t, rfl, hc⟩ | ⟨t, -, hc⟩ | ⟨r', t, rfl, hc⟩ | ⟨-, hc⟩
  · have ht : t.status = .running := Eq.trans hx hrun
    simp [hc, ht] at h
  · have ht : t.status = .running := Eq.trans hx hrun
    simp [hc, ht] at h
  · simp [hc] at h
  · rw [hc, takeFault_status, Status.faulted.injEq] at h
    exact ⟨t, h ▸ rfl⟩
  · simp [hc, hrun] at h

/-- An instruction that faults rolls back all but the answers it took from the host, and the fault is Underflow only
where the stack holds too few Values. -/
theorem exec_faulted {i : Instr} {s t : State} {r : FaultReason} (hrun : s.status = .running)
    (h : exec i s = .next t) (hr : t.status = .faulted r) :
    (∃ u, t = takeFault r s u ∧ AnswersTaken s u) ∧ (r = .underflow → s.stack.length < stackIn i.mnemonic) := by
  rw [exec_eq] at h
  cases h
  by_cases hwf : ¬ i.wellFormed = true
  · rw [if_pos hwf] at hr ⊢
    cases hr
    exact ⟨⟨s, rfl, .refl s⟩, nofun⟩
  by_cases hdepth : s.stack.length < stackIn i.mnemonic
  · rw [if_neg hwf, if_pos hdepth] at hr ⊢
    cases hr
    exact ⟨⟨s, rfl, .refl s⟩, fun _ => hdepth⟩
  rw [if_neg hwf, if_neg hdepth] at hr ⊢
  have hfinds := handlerOf_findsItsValues i s (s := decoded i s) (Nat.le_of_not_lt hdepth)
  obtain ⟨u, hu⟩ := commit_faulted hrun (handlerOf_uncorrupted i s (decoded i s)) hr
  rw [hu] at hfinds ⊢
  obtain ⟨hne, htaken⟩ := hfinds
  exact ⟨⟨u, rfl, htaken⟩, fun hr => absurd hr hne⟩

/-- A fault that took answers of the host, with the rest of the state as the spec has it (`40_execution_engine.md`
R90). -/
theorem takeFault_of_answersTaken {s u : State} (h : AnswersTaken s u) (r : FaultReason) :
    ∃ j k : Nat, takeFault r s u = { faultedAt r s with
      alloc := { s.alloc with coming := s.alloc.coming.drop j }
      input := s.input.drop k } := by
  obtain ⟨j, k, halloc, hinput⟩ := h
  exact ⟨j, k, by rw [takeFault, halloc, hinput]; rfl⟩

/-- Settles O12: the fault is that of the fetch, which asks the host nothing, or that of the instruction. -/
theorem faultRollsBack : Obligations.FaultRollsBack := by
  intro s t r hrun h hr
  obtain ⟨u, rfl, hu⟩ : ∃ u, t = takeFault r s u ∧ AnswersTaken s u := by
    rcases step_cases s with ⟨hne, -⟩ | ⟨-, -, hstep⟩ | ⟨r', -, -, hstep⟩ | ⟨i, -, -, hstep⟩
    · exact absurd hrun hne
    · cases hstep.symm.trans h
      rw [finishStep_status] at hr
      cases hr
    · cases hstep.symm.trans h
      cases hr
      exact ⟨s, rfl, .refl s⟩
    · cases (hstep _ (exec_eq i s)).symm.trans h
      rw [finishStep_status] at hr
      rw [finishStep_of_faulted s hr]
      exact (exec_faulted hrun (exec_eq i s) hr).1
  exact takeFault_of_answersTaken hu r

/-! ### The depth check -/

theorem exec_of_too_few {i : Instr} {s : State} (hwf : i.wellFormed = true)
    (h : s.stack.length < stackIn i.mnemonic) : exec i s = .next (faultedAt .underflow s) := by
  rw [exec_eq, if_neg (not_not_intro hwf), if_pos h]

theorem exec_ne_underflow {i : Instr} {s t : State} (hrun : s.status = .running)
    (hdepth : stackIn i.mnemonic ≤ s.stack.length) (h : exec i s = .next t) : t.status ≠ .faulted .underflow :=
  fun hr => Nat.not_lt.mpr hdepth ((exec_faulted hrun h hr).2 rfl)

/-- Settles O18: the lists are the stack-in column. -/
theorem depthCheckIsUniform : Obligations.DepthCheckIsUniform := by
  have hnone : ∀ m ∈ [Mnemonic.push, .inp, .outN, .jmp, .call, .halt, .gInit, .gDrawOn, .gDrawOff, .gDraw],
      stackIn m = 0 := by decide
  have hone : ∀ m ∈ [Mnemonic.pop, .dup, .sin, .cos, .sqrt, .pw2, .pwInv, .abs, .out, .ret, .gFill],
      stackIn m = 1 := by decide
  have htwo : ∀ m ∈ [Mnemonic.add, .sub, .mul, .div, .ja, .jae, .jb, .jbe, .je, .jne], stackIn m = 2 := by decide
  refine ⟨fun i s hwf hs hi => ?_, fun i s hs hi => ?_, fun i s t hrun hi => ?_, fun i s t hrun hs hi => ?_,
    fun i s t hrun hs hi => ?_⟩
  · exact exec_of_too_few hwf (by simp [hone _ hi, hs])
  · exact exec_of_too_few (wellFormed_of_stackIn_two (htwo _ hi)) (hs.trans_eq (htwo _ hi).symm)
  · exact exec_ne_underflow hrun ((hnone _ hi).trans_le (Nat.zero_le _))
  · exact exec_ne_underflow hrun ((hone _ hi).trans_le (List.length_pos_iff.mpr hs))
  · exact exec_ne_underflow hrun ((htwo _ hi).trans_le hs)

end Sys2Proof.Machine
end

section
/-! PROOF LAYER. `in` with an answer of the host (`43_io.md` R115; O45). -/

namespace Sys2Proof.Machine

theorem exec_inp_of_value {s : State} {v : Value} {more : List InputAnswer} (hinput : s.input = .value v :: more)
    (h : PushGoesThrough s) :
    exec .inp s = .next { pushed v s with input := more, ip := s.ip + 1#64, inputPending := false } := by
  have hread : handlerOf .inp s (decoded .inp s) =
      (push v ((decoded .inp s).setInput more)).bind fun _ t => .ok .proceed t := by
    have hinput' : (decoded .inp s).input = .value v :: more := hinput
    simp only [handlerOf, readInput, hinput']
  have hpush : push v ((decoded .inp s).setInput more) = .ok () (pushed v ((decoded .inp s).setInput more)) := push_ok h
  rw [exec_eq_commit rfl (Nat.zero_le _), hread, hpush, pushed_setInput, decoded, pushed_setIp]
  rfl

theorem exec_inp_of_fail {s : State} {more : List InputAnswer} (hinput : s.input = .fail :: more) :
    exec .inp s = .next { faultedAt .inputFailed s with input := more } := by
  have hread : handlerOf .inp s (decoded .inp s) = .raise .inputFailed ((decoded .inp s).setInput more) := by
    have hinput' : (decoded .inp s).input = .fail :: more := hinput
    simp only [handlerOf, readInput, hinput']
  rw [exec_eq_commit rfl (Nat.zero_le _), hread]
  rfl

/-- Settles O45: the answer is taken before the push, and a fault gives no answer back. -/
theorem inTakesTheHostsAnswer : Obligations.InTakesTheHostsAnswer :=
  ⟨fun _ _ _ => exec_inp_of_value, fun _ _ _ hinput h => inp_refused h hinput, fun _ _ => exec_inp_of_fail⟩

end Sys2Proof.Machine
end

section
/-! PROOF LAYER. `dup` (`41_stack_transfer.md` R99; O29). -/

namespace Sys2Proof.Machine

/-- After the top is read, `dup` is a push. -/
theorem handlerOf_dup {u : State} {v : Value} {rest : List Value} (hs : u.stack = v :: rest) (start : State) :
    handlerOf .dup start u = (push v u).bind fun _ t => .ok .proceed t := by
  simp only [handlerOf, top_cons hs, Res.bind_ok]

theorem exec_dup {s : State} {v : Value} {rest : List Value} (hs : s.stack = v :: rest) (h : PushGoesThrough s) :
    exec .dup s = .next { pushed v s with ip := s.ip + 1#64, inputPending := false } := by
  have hs' : (decoded .dup s).stack = v :: rest := hs
  have hpush : push v (decoded .dup s) = .ok () (pushed v (decoded .dup s)) := push_ok h
  rw [exec_eq_commit (i := .dup) rfl (one_le_length_of_cons hs), handlerOf_dup hs', hpush, decoded, pushed_setIp]
  rfl

/-- Settles O29: a `dup` whose push goes through, one that finds no Value, and one whose push is refused. -/
theorem dupCopiesTheTop : Obligations.DupCopiesTheTop := by
  refine ⟨rfl, fun _ _ _ => exec_dup, fun s hs => ?_, fun s hne h => ?_⟩
  · have hdepth : s.stack.length < stackIn Instr.dup.mnemonic := by rw [hs]; exact Nat.zero_lt_one
    exact exec_of_too_few rfl hdepth
  · exact ⟨_, dup_refused h hne⟩

end Sys2Proof.Machine
end

section
/-! PROOF LAYER. The square root takes the nearer of the two neighbouring magnitudes, compared by squares
(`42_arithmetic.md` R111; O36). -/

namespace Sys2Proof.Machine

/-! ### The integer root -/

/-- A root kept between `r` and `r + 2^b`, halving the interval at each bit, ends at the integer square root. -/
theorem isqrtBits_eq_sqrt {b n r : Nat} (hlow : r * r ≤ n) (hhigh : n < (r + 2 ^ b) * (r + 2 ^ b)) :
    isqrtBits b n r = Nat.sqrt n := by
  induction b generalizing r with
  | zero => exact Nat.eq_sqrt.mpr ⟨hlow, hhigh⟩
  | succ b ih =>
    rw [isqrtBits]
    split
    · rename_i hfits
      refine ih hfits ?_
      rwa [Nat.add_assoc, ← Nat.two_mul, ← pow_succ']
    · rename_i hexceeds
      exact ih hlow (Nat.not_le.mp hexceeds)

/-- The exponent of the spacing that `roundSqrt` picks for the root of `n`. -/
def rootGridExp (n : Nat) : Nat := n.log2 / 2 - 52

/-- The root of `n` in whole spacings. -/
def rootFloor (n : Nat) : Nat := Nat.sqrt (n / 4 ^ rootGridExp n)

/-- From 4^52 on, `n` holds between 4^52 and 4^53 squares of the spacing: its root has 53 bits. -/
theorem rootGridExp_bounds {n : Nat} (hn : 4 ^ 52 ≤ n) :
    4 ^ 52 ≤ n / 4 ^ rootGridExp n ∧ n / 4 ^ rootGridExp n < 4 ^ 53 := by
  have hne : n ≠ 0 := by omega
  have hlog : 104 ≤ n.log2 := (Nat.le_log2 hne).mpr (by omega)
  have hsquares : ∀ j, 4 ^ j * 4 ^ rootGridExp n = 2 ^ (2 * (j + rootGridExp n)) := fun j => by
    rw [← pow_add, pow_mul]
    rfl
  constructor
  · rw [Nat.le_div_iff_mul_le (pow_pos four_pos _), hsquares, ← Nat.le_log2 hne, rootGridExp]
    omega
  · rw [Nat.div_lt_iff_lt_mul (pow_pos four_pos _), hsquares, ← Nat.log2_lt hne, rootGridExp]
    omega

theorem isSignificand_rootFloor {n : Nat} (hn : 4 ^ 52 ≤ n) : IsSignificand (rootGridExp n) (rootFloor n) := by
  obtain ⟨hlow, hhigh⟩ := rootGridExp_bounds hn
  exact ⟨Nat.sqrt_lt.mpr hhigh, .inr (Nat.le_sqrt.mpr hlow)⟩

/-- The root lies in the spacing that `rootFloor` counts. -/
theorem rootFloor_bounds (n : Nat) :
    (rootFloor n * 2 ^ rootGridExp n) * (rootFloor n * 2 ^ rootGridExp n) ≤ n ∧
      n ≤ ((rootFloor n + 1) * 2 ^ rootGridExp n) * ((rootFloor n + 1) * 2 ^ rootGridExp n) := by
  have hsquare : ∀ j, (j * 2 ^ rootGridExp n) * (j * 2 ^ rootGridExp n) = j * j * 4 ^ rootGridExp n := fun j => by
    rw [mul_mul_mul_comm, ← mul_pow]
    rfl
  have hpos : 0 < 4 ^ rootGridExp n := pow_pos four_pos _
  rw [hsquare, hsquare, ← Nat.le_div_iff_mul_le hpos]
  exact ⟨Nat.sqrt_le _, ((Nat.div_lt_iff_lt_mul hpos).mp (Nat.lt_succ_sqrt _)).le⟩

/-! ### The nearest magnitude -/

/-- The root of `n` units squared lies on the magnitude's side of its midpoint with every other, compared by squares. -/
def NearestRoot (n mag : Nat) : Prop :=
  ∀ m, (unitsOfMagnitude mag < unitsOfMagnitude m →
      4 * n ≤ (unitsOfMagnitude mag + unitsOfMagnitude m) * (unitsOfMagnitude mag + unitsOfMagnitude m)) ∧
    (unitsOfMagnitude m < unitsOfMagnitude mag →
      (unitsOfMagnitude mag + unitsOfMagnitude m) * (unitsOfMagnitude mag + unitsOfMagnitude m) ≤ 4 * n)

/-- Of two neighbours around the root, the one on whose side of their midpoint it lies is nearest among all magnitudes:
every other midpoint is beyond that one or beyond a neighbour. -/
theorem nearestRoot_of_neighbours {n low mid mag : Nat} (hlow : unitsOfMagnitude low * unitsOfMagnitude low ≤ n)
    (hhigh : n ≤ unitsOfMagnitude (low + 1) * unitsOfMagnitude (low + 1))
    (hmid : unitsOfMagnitude low + unitsOfMagnitude (low + 1) = mid)
    (hmag : (mag = low ∧ 4 * n ≤ mid * mid) ∨ (mag = low + 1 ∧ mid * mid ≤ 4 * n)) :
    NearestRoot n mag := by
  have hbelow : ∀ {x}, x ≤ 2 * unitsOfMagnitude low → x * x ≤ 4 * n := fun hx =>
    (Nat.mul_self_le_mul_self hx).trans (by rw [mul_mul_mul_comm]; omega)
  have habove : ∀ {x}, 2 * unitsOfMagnitude (low + 1) ≤ x → 4 * n ≤ x * x := fun hx =>
    le_trans (by rw [mul_mul_mul_comm]; omega) (Nat.mul_self_le_mul_self hx)
  have hmono := unitsOfMagnitude_strictMono.monotone
  intro m
  rcases hmag with ⟨rfl, hside⟩ | ⟨rfl, hside⟩ <;> refine ⟨fun h => ?_, fun h => ?_⟩
  · have hm := hmono (Nat.succ_le_of_lt (unitsOfMagnitude_strictMono.lt_iff_lt.mp h))
    exact hside.trans (Nat.mul_self_le_mul_self (hmid ▸ Nat.add_le_add_left hm _))
  · exact hbelow (by omega)
  · exact habove (by omega)
  · have hm := hmono (Nat.le_of_lt_succ (unitsOfMagnitude_strictMono.lt_iff_lt.mp h))
    exact (Nat.mul_self_le_mul_self (by omega)).trans hside

/-- The magnitude of the root rounded down. -/
def rootLow (n : Nat) : Nat := rootGridExp n * 2 ^ 52 + rootFloor n

/-- Twice the midpoint of the two neighbours of the root, in units. -/
def rootMidpoint (n : Nat) : Nat := (2 * rootFloor n + 1) * 2 ^ rootGridExp n

/-- The magnitude that `roundSqrt` gives before the cut at the infinity. -/
def roundedRoot (n : Nat) : Nat :=
  rootGridExp n * 2 ^ 52 + nearestEven (rootFloor n) (compare (4 * n) (rootMidpoint n * rootMidpoint n))

/-- The root is rounded down only below the midpoint and up only above it, compared by squares. -/
theorem roundedRoot_cases (n : Nat) :
    (roundedRoot n = rootLow n ∧ 4 * n ≤ rootMidpoint n * rootMidpoint n) ∨
    (roundedRoot n = rootLow n + 1 ∧ rootMidpoint n * rootMidpoint n ≤ 4 * n) := by
  unfold roundedRoot rootLow
  rcases nearestEven_cases (rootFloor n) (4 * n) (rootMidpoint n * rootMidpoint n) with
    ⟨hN, hside, -⟩ | ⟨hN, hside, -⟩
  · exact .inl ⟨by rw [hN], hside⟩
  · exact .inr ⟨by rw [hN, Nat.add_assoc], hside⟩

theorem roundSqrt_eq {n : Nat} (hn : 4 ^ 52 ≤ n) : roundSqrt n = pack false (min (roundedRoot n) infMagnitude) := by
  have hroot : isqrtBits 53 (n / 4 ^ rootGridExp n) 0 = rootFloor n := by
    refine isqrtBits_eq_sqrt (Nat.zero_le _) ?_
    rw [Nat.zero_add, ← mul_pow]
    exact (rootGridExp_bounds hn).2
  rw [roundedRoot, rootMidpoint, ← hroot]
  rfl

theorem roundedRoot_nearest {n : Nat} (hn : 4 ^ 52 ≤ n) : NearestRoot n (roundedRoot n) := by
  have hsig := isSignificand_rootFloor hn
  have hlow : unitsOfMagnitude (rootLow n) = rootFloor n * 2 ^ rootGridExp n := unitsOfMagnitude_significand hsig
  have hnext : unitsOfMagnitude (rootLow n + 1) = (rootFloor n + 1) * 2 ^ rootGridExp n :=
    unitsOfMagnitude_significand_succ hsig
  have hmid : unitsOfMagnitude (rootLow n) + unitsOfMagnitude (rootLow n + 1) = rootMidpoint n := by
    rw [hlow, hnext, rootMidpoint]
    ring
  obtain ⟨hfloor, hceil⟩ := rootFloor_bounds n
  rw [← hlow] at hfloor
  rw [← hnext] at hceil
  exact nearestRoot_of_neighbours hfloor hceil hmid (roundedRoot_cases n)

/-! ### No root overflows -/

/-- A rounded root is not zero, and its exponent field grows with half the bits of the square. -/
theorem roundedRoot_bounds {n : Nat} (hn : 4 ^ 52 ≤ n) :
    0 < roundedRoot n ∧ roundedRoot n ≤ (n.log2 / 2 - 50) * 2 ^ 52 := by
  obtain ⟨hq, hk⟩ := isSignificand_rootFloor hn
  obtain ⟨hlow, -⟩ := rootGridExp_bounds hn
  have hlog : 104 ≤ n.log2 := (Nat.le_log2 (by omega)).mpr (by omega)
  have hfloor : 4 ^ 26 ≤ rootFloor n := Nat.le_sqrt.mpr (by omega)
  have hexp : rootGridExp n = n.log2 / 2 - 52 := rfl
  have hrootLow : rootLow n = rootGridExp n * 2 ^ 52 + rootFloor n := rfl
  rcases roundedRoot_cases n with ⟨hN, -⟩ | ⟨hN, -⟩ <;> omega

theorem le_mul_two_pow {u e : Nat} (hpos : 0 < u) (he : 104 ≤ e) : 4 ^ 52 ≤ u * 2 ^ e :=
  calc 4 ^ 52 = 2 ^ 104 := by norm_num
    _ ≤ 2 ^ e := Nat.pow_le_pow_right two_pos he
    _ ≤ u * 2 ^ e := Nat.le_mul_of_pos_left _ hpos

theorem log2_mul_two_pow_lt {u a e : Nat} (hpos : 0 < u) (hu : u < 2 ^ a) : (u * 2 ^ e).log2 < a + e := by
  rw [Nat.log2_lt (Nat.mul_pos hpos (Nat.two_pow_pos e)).ne', pow_add]
  exact Nat.mul_lt_mul_of_pos_right hu (Nat.two_pow_pos e)

/-- The square of a Value's root, in units squared: a one is 2^1074 units. -/
def rootSquare (v : Value) : Nat := unitsOf v * 2 ^ 1074

theorem unitsOf_lt {v : Value} (hv : IsFinite v) : unitsOf v < 2 ^ (54 + 2044) := by
  rw [pow_add, ← topHalfSpacing, ← unitsOfMagnitude_infMagnitude, unitsOf_eq_unitsOfMagnitude]
  exact unitsOfMagnitude_strictMono ((isFinite_iff v).mp hv)

theorem le_rootSquare {v : Value} (hpos : 0 < unitsOf v) : 4 ^ 52 ≤ rootSquare v :=
  le_mul_two_pow hpos (by omega)

theorem roundedRoot_rootSquare_lt {v : Value} (hv : IsFinite v) (hpos : 0 < unitsOf v) :
    roundedRoot (rootSquare v) < infMagnitude := by
  have hlog : (rootSquare v).log2 < 54 + 2044 + 1074 := log2_mul_two_pow_lt hpos (unitsOf_lt hv)
  have hbound := (roundedRoot_bounds (le_rootSquare hpos)).2
  rw [infMagnitude_eq]
  omega

/-! ### The square root of a Value -/

/-- A number that is not negative is its absolute value, a negative zero's too. -/
theorem signedUnits_of_nonneg {v : Value} (h : 0 ≤ signedUnits v) : signedUnits v = unitsOf v := by
  rw [← natAbs_signed (signBit v) (unitsOf v)]
  exact (Int.natAbs_of_nonneg h).symm

theorem unitsOf_pos {v : Value} (h : 0 < signedUnits v) : 0 < unitsOf v := by
  rwa [signedUnits_of_nonneg h.le, Int.natCast_pos] at h

theorem signBit_ne_true_of_pos {v : Value} (h : 0 < signedUnits v) : signBit v ≠ true := fun hs =>
  absurd ((signed_lt_zero_iff (unitsOf_pos h)).mpr hs) h.not_gt

theorem fsqrt_of_pos (nan : Value) {v : Value} (hv : IsFinite v) (hpos : 0 < signedUnits v) :
    fsqrt nan v = pack false (roundedRoot (rootSquare v)) := by
  have hunits := unitsOf_pos hpos
  rw [fsqrt_finite nan hv, if_neg (mt (unitsOf_eq_zero_iff v).mpr hunits.ne'), if_neg (signBit_ne_true_of_pos hpos),
    ← rootSquare, roundSqrt_eq (le_rootSquare hunits), min_eq_left (roundedRoot_rootSquare_lt hv hunits).le]

theorem signedUnits_pack_false {mag : Nat} (h : mag < 2 ^ 63) : signedUnits (pack false mag) = unitsOfMagnitude mag := by
  rw [signedUnits_eq, signBit_pack false h, magnitude_pack false h]
  rfl

/-- Settles O36: `fsqrt` gives the magnitude nearest to the exact root, which is short of the infinity's. -/
theorem squareRootIsCorrectlyRounded : Obligations.SquareRootIsCorrectlyRounded := by
  intro nan v hv hpos
  have hunits := unitsOf_pos hpos
  have hlarge := le_rootSquare hunits
  have hfinite := roundedRoot_rootSquare_lt hv hunits
  have h63 := hfinite.trans infMagnitude_lt_two_pow
  have hsquare : 4 * (signedUnits v * 2 ^ 1074) = ((4 * rootSquare v : Nat) : Int) := by
    rw [signedUnits_of_nonneg hpos.le, rootSquare, Nat.cast_mul, Nat.cast_mul, Nat.cast_pow]
    rfl
  rw [fsqrt_of_pos nan hv hpos, hsquare]
  refine ⟨?finite, ?positive, fun c _ hc => ?nearest⟩
  case finite => rwa [isFinite_iff, magnitude_pack false h63]
  case positive =>
    rw [signedUnits_pack_false h63, Int.natCast_pos]
    exact unitsOfMagnitude_strictMono (roundedRoot_bounds hlarge).1
  case nearest =>
    rw [signedUnits_pack_false h63, signedUnits_of_nonneg hc, unitsOf_eq_unitsOfMagnitude]
    exact_mod_cast roundedRoot_nearest hlarge (magnitude c)

end Sys2Proof.Machine
end

section
/-! PROOF LAYER. The Values that the drawn NaN, `sin`, `cos`, `je` and `jne` give (`42_arithmetic.md` R102, R109, R110;
`44_control.md` R120; O34, O38, O41). -/

namespace Sys2Proof.Machine

/-! ### The drawn NaN -/

/-- `asNaN` keeps a NaN: its exponent field is all ones and its fraction is not zero already. -/
theorem asNaN_of_isNaN {v : Value} (h : isNaN v = true) : asNaN v = v := by
  obtain ⟨hexp, hfrac⟩ := (isNaN_iff v).mp h
  have hmag : magnitude v = infMagnitude + fracField v := by rw [magnitude_eq, hexp, infMagnitude_eq]
  rw [asNaN, if_neg hfrac, ← hmag, pack_fields]

/-- Settles O38: `asNaN` gives NaNs only, and gives every NaN from itself. -/
theorem everyNaNCanBeDrawn : Obligations.EveryNaNCanBeDrawn :=
  ⟨fun _ => isNaN_asNaN _, fun _ => asNaN_of_isNaN⟩

/-! ### The configuration functions -/

theorem transcendental_finite (f : Value → Value) (nan : Value) {v : Value} (hv : IsFinite v) :
    transcendental f nan v = if isNaN (f v) = true then nan else f v := by
  simp only [transcendental, classify_fin v hv]

theorem isInfinite_or_isNaN_of_not_isFinite {v : Value} (hv : ¬ IsFinite v) : IsInfinite v ∨ isNaN v = true := by
  rw [isFinite_iff, Nat.not_lt] at hv
  exact hv.eq_or_lt.imp Eq.symm decide_eq_true

theorem transcendental_not_finite (f : Value → Value) (nan : Value) {v : Value} (hv : ¬ IsFinite v) :
    transcendental f nan v = nan := by
  rcases isInfinite_or_isNaN_of_not_isFinite hv with h | h
  · simp only [transcendental, classify_of_isInfinite h]
  · simp only [transcendental, (classify_nan_iff v).mpr h]

/-- Settles O34: `sin` and `cos` are `transcendental` of the two configuration functions. -/
theorem sinAndCosAreTheConfiguredFunctions : Obligations.SinAndCosAreTheConfiguredFunctions := fun nan _ =>
  ⟨fun hv => ⟨transcendental_finite _ nan hv, transcendental_finite _ nan hv⟩,
    fun hv => ⟨transcendental_not_finite _ nan hv, transcendental_not_finite _ nan hv⟩⟩

/-! ### The draw inside `je` and `jne` -/

/-- A sum is the draw, whatever is drawn, or does not depend on the draw. -/
theorem fadd_draw_cases (b a : Value) :
    (∀ nan, fadd nan b a = nan) ∨ ∀ nan nan', fadd nan b a = fadd nan' b a := by
  unfold fadd
  cases classify b with
  | nan => exact .inl fun _ => rfl
  | inf s =>
    cases classify a with
    | nan => exact .inl fun _ => rfl
    | inf t =>
      by_cases hst : s = t
      · exact .inr fun _ _ => (if_pos hst).trans (if_pos hst).symm
      · exact .inl fun _ => if_neg hst
    | fin t n => exact .inr fun _ _ => rfl
  | fin s m =>
    cases classify a with
    | nan => exact .inl fun _ => rfl
    | inf t | fin t n => exact .inr fun _ _ => rfl

theorem toNat_fabs (v : Value) : (fabs v).toNat = v.toNat % 2 ^ 63 :=
  (BitVec.toNat_and ..).trans (Nat.and_two_pow_sub_one_eq_mod v.toNat 63)

theorem isNaN_fabs (v : Value) : isNaN (fabs v) = isNaN v := by
  rw [isNaN, magnitude, toNat_fabs, Nat.mod_mod, isNaN, magnitude]

theorem condNear_draw (epsilon a b : Value) {nan nan' : Value} (h : isNaN nan = true) (h' : isNaN nan' = true) :
    condNear nan epsilon a b = condNear nan' epsilon a b := by
  unfold condNear fsub
  rcases fadd_draw_cases a (fneg b) with hdraw | hsame
  · rw [hdraw, hdraw, flt_nan_left ((isNaN_fabs nan).trans h), flt_nan_left ((isNaN_fabs nan').trans h')]
  · rw [hsame nan nan']

/-- Settles O41: where the difference is the draw, its comparison is false whichever NaN is drawn. -/
theorem jumpIgnoresTheDrawnNaN : Obligations.JumpIgnoresTheDrawnNaN := fun _ _ epsilon a b h h' =>
  ⟨condNear_draw epsilon a b h h', congrArg (!·) (condNear_draw epsilon a b h h')⟩

end Sys2Proof.Machine
end

section
/-! PROOF LAYER. What the arithmetic instructions leave (`42_arithmetic.md` R103, R104, R114; O31, O32, O33). -/

namespace Sys2Proof.Machine

/-! ### Two operands -/

/-- A push that finds room does not grow the storage (`20_memory.md` R53). -/
theorem push_of_room {s : State} (h : s.stack.length < s.cap) (v : Value) :
    push v s = .ok () (s.setStack (v :: s.stack)) := by
  rw [push_ok fun hfull => absurd hfull h.ne, pushed, if_neg h.ne]
  rfl

theorem binary_of_cons {s : State} {a b : Value} {rest : List Value} (hs : s.stack = a :: b :: rest)
    (hsize : s.stack.length ≤ s.cap) (h : PopGoesThrough s) (h' : PopGoesThrough (popped s))
    (op : Value → Value → Value) : binary op s = .ok .proceed ((popped (popped s)).setStack (op b a :: rest)) := by
  have hrest : (popped s).stack = b :: rest := by rw [popped_stack, hs, List.tail_cons]
  have hrest' : (popped (popped s)).stack = rest := by rw [popped_stack, hrest, List.tail_cons]
  have hroom : (popped (popped s)).stack.length < (popped (popped s)).cap :=
    (popped_within h' (popped_within h hsize).1.le).1
  rw [binary, pop_ok hs h, Res.bind_ok, pop_ok hrest h', Res.bind_ok, push_of_room hroom, Res.bind_ok, hrest']

/-- Neither the advance of `ip` nor a draw has a part in a pop. -/
theorem popped_decoded_setNanDraws (i : Instr) (s : State) (draws : Nat) :
    popped ((decoded i s).setNanDraws draws) = (decoded i (popped s)).setNanDraws draws := by
  rw [popped_setNanDraws, decoded, popped_setIp, decoded, popped_ip]

theorem exec_binary {i : Instr} {op : Value → Value → Value → Value} (hi : stackIn i.mnemonic = 2)
    (hh : ∀ start, handlerOf i start = drawing fun nan => binary (op nan)) {s : State} {a b : Value}
    {rest : List Value} (hs : s.stack = a :: b :: rest) (hsize : s.stack.length ≤ s.cap) (h : PopGoesThrough s)
    (h' : PopGoesThrough (popped s)) :
    exec i s = .next { popped (popped s) with
      stack := op s.nanDraw b a :: rest, ip := s.ip + BitVec.ofNat 64 i.length, nanDraws := s.nanDraws + 1,
      inputPending := false } := by
  have hdepth : stackIn i.mnemonic ≤ s.stack.length := by simp [hi, hs]
  have hhandler : handlerOf i s (decoded i s) = binary (op s.nanDraw) ((decoded i s).setNanDraws (s.nanDraws + 1)) :=
    congrFun (hh s) _
  have hsecond : PopGoesThrough (popped ((decoded i s).setNanDraws (s.nanDraws + 1))) := by
    rw [popped_decoded_setNanDraws]
    exact h'
  rw [exec_eq_commit (wellFormed_of_stackIn_two hi) hdepth, hhandler,
    binary_of_cons (s := (decoded i s).setNanDraws (s.nanDraws + 1)) hs hsize h hsecond, popped_decoded_setNanDraws,
    popped_decoded_setNanDraws, decoded, popped_ip, popped_ip]
  rfl

/-- Settles O31: the four operations are `binary` with a draw. -/
theorem binaryInstructionsComplete : Obligations.BinaryInstructionsComplete := fun _ _ _ _ hs hsize h h' =>
  ⟨exec_binary (i := .add) rfl (fun _ => rfl) hs hsize h h', exec_binary (i := .sub) rfl (fun _ => rfl) hs hsize h h',
    exec_binary (i := .mul) rfl (fun _ => rfl) hs hsize h h', exec_binary (i := .div) rfl (fun _ => rfl) hs hsize h h'⟩

/-! ### One operand -/

theorem unary_of_cons {s : State} {v : Value} {rest : List Value} (hs : s.stack = v :: rest) (f : Value → Value) :
    unary f s = .ok .proceed (s.setStack (f v :: rest)) := by
  rw [unary, top_cons hs, Res.bind_ok, setTop, hs, List.tail_cons]

theorem exec_unary {i : Instr} {f : Value → Value → Value} (hwf : i.wellFormed = true) (hi : stackIn i.mnemonic = 1)
    (hh : ∀ start, handlerOf i start = drawing fun nan => unary (f nan)) {s : State} {v : Value} {rest : List Value}
    (hs : s.stack = v :: rest) :
    exec i s = .next { s with
      stack := f s.nanDraw v :: rest, ip := s.ip + BitVec.ofNat 64 i.length, nanDraws := s.nanDraws + 1,
      inputPending := false } := by
  have hs' : ((decoded i s).setNanDraws (s.nanDraws + 1)).stack = v :: rest := hs
  have hhandler : handlerOf i s (decoded i s) = unary (f s.nanDraw) ((decoded i s).setNanDraws (s.nanDraws + 1)) :=
    congrFun (hh s) _
  rw [exec_eq_commit hwf (hi.trans_le (one_le_length_of_cons hs)), hhandler, unary_of_cons hs']
  rfl

/-- Settles O32: the five functions are `unary` with a draw. -/
theorem unaryInstructionsComplete : Obligations.UnaryInstructionsComplete := fun _ _ _ hs =>
  ⟨exec_unary (i := .sin) rfl rfl (fun _ => rfl) hs, exec_unary (i := .cos) rfl rfl (fun _ => rfl) hs,
    exec_unary (i := .sqrt) rfl rfl (fun _ => rfl) hs,
    exec_unary (i := .pw2) (f := fun nan v => fmul nan v v) rfl rfl (fun _ => rfl) hs,
    exec_unary (i := .pwInv) (f := fun nan v => fdiv nan one v) rfl rfl (fun _ => rfl) hs⟩

/-! ### `abs` -/

theorem fabs_eq_ofNat (v : Value) : fabs v = BitVec.ofNat 64 (v.toNat % 2 ^ 63) := by
  rw [← toNat_fabs, BitVec.ofNat_toNat, BitVec.setWidth_eq]

theorem exec_abs {s : State} {v : Value} {rest : List Value} (hs : s.stack = v :: rest) :
    exec .abs s = .next { s with stack := fabs v :: rest, ip := s.ip + 1#64, inputPending := false } := by
  have hs' : (decoded .abs s).stack = v :: rest := hs
  have hunary : handlerOf .abs s (decoded .abs s) = .ok .proceed ((decoded .abs s).setStack (fabs v :: rest)) :=
    unary_of_cons hs' fabs
  rw [exec_eq_commit (i := .abs) rfl (one_le_length_of_cons hs), hunary]
  rfl

/-- Settles O33: the encoding, `abs` of a Value, and `abs` of the empty stack. -/
theorem absClearsTheSignBit : Obligations.AbsClearsTheSignBit := by
  refine ⟨rfl, fun s v rest hs => ?_, fun s hs => ?_⟩
  · rw [exec_abs hs, fabs_eq_ofNat]
  · have hdepth : s.stack.length < stackIn Instr.abs.mnemonic := by rw [hs]; exact Nat.zero_lt_one
    exact exec_of_too_few rfl hdepth

end Sys2Proof.Machine
end

section
/-! PROOF LAYER. The output instructions (`43_io.md` R116, R117; O47, O48). -/

namespace Sys2Proof.Machine

/-- `out` emits the Value that its pop takes. -/
theorem handlerOf_out {u : State} {v : Value} {rest : List Value} (hs : u.stack = v :: rest) (h : PopGoesThrough u)
    (start : State) : handlerOf .out start u = .ok .proceed (emit (.out v) (popped u)) := by
  simp only [handlerOf, pop_ok hs h, Res.bind_ok]

/-- Settles O47: the Value that `out` emits is the one that its pop takes, and the pop leaves `ip` and the events. -/
theorem outEmitsTheTop : Obligations.OutEmitsTheTop := by
  intro s v rest hs h
  have hs' : (decoded .out s).stack = v :: rest := hs
  rw [exec_eq_commit (i := .out) rfl (one_le_length_of_cons hs), handlerOf_out hs' h, decoded, popped_setIp, emit,
    State.setIp_events, popped_events]
  rfl

/-- Settles O48: `out_n` takes no operand and only emits, so it never faults. -/
theorem outNEmitsNewline : Obligations.OutNEmitsNewline := by
  refine ⟨rfl, fun s => ?_⟩
  have hhandler : handlerOf .outN s (decoded .outN s) = .ok .proceed (emit .newline (decoded .outN s)) := rfl
  rw [exec_eq_commit (i := .outN) rfl (Nat.zero_le _), hhandler]
  rfl

end Sys2Proof.Machine
end

section
/-! PROOF LAYER. The conditions of the conditional jumps on NaNs, infinities of one sign and zeros
(`44_control.md` R120; O40). -/

namespace Sys2Proof.Machine

/-! ### The conditions of `je` and `jne` -/

/-- A difference that is a NaN is not near. -/
theorem condNear_of_isNaN_fsub {nan a b : Value} (h : isNaN (fsub nan a b) = true) (epsilon : Value) :
    condNear nan epsilon a b = false :=
  flt_nan_left ((isNaN_fabs _).trans h) epsilon

theorem fabs_eq_zero {v : Value} (h : magnitude v = 0) : fabs v = 0#64 :=
  (fabs_eq_ofNat v).trans (congrArg (BitVec.ofNat 64) h)

/-- The difference of two zeros is a zero. -/
theorem magnitude_fsub_of_zeros (nan : Value) {a b : Value} (ha : magnitude a = 0) (hb : magnitude b = 0) :
    magnitude (fsub nan a b) = 0 := by
  rw [fsub, fadd_of_zeros nan ha ((magnitude_fneg b).trans hb), magnitude_pack _ (pow_pos two_pos 63)]

/-! ### The order on NaNs and on zeros -/

theorem flt_of_isNaN {x y : Value} (h : isNaN x = true ∨ isNaN y = true) : flt x y = false :=
  h.elim (fun hx => flt_nan_left hx y) (flt_nan_right x)

theorem fle_of_isNaN {x y : Value} (h : isNaN x = true ∨ isNaN y = true) : fle x y = false :=
  h.elim (fun hx => fle_nan_left hx y) (fle_nan_right x)

theorem orderKey_eq_zero {v : Value} (h : magnitude v = 0) : orderKey v = 0 := by
  rw [orderKey, h, signed_zero]

theorem flt_of_zeros {x y : Value} (hx : magnitude x = 0) (hy : magnitude y = 0) : flt x y = false := by
  rw [← Bool.not_eq_true, flt_iff (hx.trans_le (Nat.zero_le _)) (hy.trans_le (Nat.zero_le _)), orderKey_eq_zero hx,
    orderKey_eq_zero hy]
  exact lt_irrefl 0

theorem fle_of_zeros {x y : Value} (hx : magnitude x = 0) (hy : magnitude y = 0) : fle x y = true := by
  rw [fle_iff (hx.trans_le (Nat.zero_le _)) (hy.trans_le (Nat.zero_le _)), orderKey_eq_zero hx, orderKey_eq_zero hy]

/-- Settles O40: the order is false on a NaN and keeps the zeros together; `je` and `jne` compare the difference, which
is a NaN in the first two clauses and a zero in the third. -/
theorem jumpConditionsOnSpecialValues : Obligations.JumpConditionsOnSpecialValues := by
  intro nan epsilon a b hnan
  refine ⟨fun h => ?nanOperand, fun ha hb hsign => ?infinities, fun ha hb heps => ?zeros⟩
  case nanOperand =>
    obtain ⟨-, hsub, -, -⟩ := arithmetic_of_nan nan h
    have hnear := condNear_of_isNaN_fsub (hsub.symm ▸ hnan) epsilon
    exact ⟨flt_of_isNaN h.symm, fle_of_isNaN h.symm, flt_of_isNaN h, fle_of_isNaN h, hnear, congrArg (!·) hnear⟩
  case infinities =>
    have hsub : fsub nan a b = nan := (fsub_inf_inf nan ha hb).trans (if_pos hsign)
    have hnear := condNear_of_isNaN_fsub (hsub.symm ▸ hnan) epsilon
    exact ⟨hnear, congrArg (!·) hnear⟩
  case zeros =>
    have hnear : condNear nan epsilon a b = true := by
      rw [condNear, fabs_eq_zero (magnitude_fsub_of_zeros nan ha hb), heps]
    exact ⟨flt_of_zeros hb ha, fle_of_zeros hb ha, flt_of_zeros ha hb, fle_of_zeros ha hb, hnear,
      congrArg (!·) hnear⟩

end Sys2Proof.Machine
end

section
/-! PROOF LAYER. What the jumps, `call` and `halt` leave (`44_control.md` R118 to R128, R131; O49, O50, O51, O54). -/

namespace Sys2Proof.Machine

/-! ### `jmp` -/

/-- Settles O49: the handler of `jmp` only sets `ip`, after the decoder has set it. -/
theorem jmpSetsIp : Obligations.JmpSetsIp := by
  intro s target
  have hhandler : handlerOf (.jmp target) s (decoded (.jmp target) s) =
      .ok .jumped (setPosition target (decoded (.jmp target) s)) := rfl
  rw [exec_eq_commit rfl (Nat.zero_le _), hhandler]
  rfl

/-! ### The conditional jumps -/

/-- Both operands are popped, and only then the condition decides (`44_control.md` R119). -/
theorem condJump_of_cons {u : State} {a b : Value} {rest : List Value} (hs : u.stack = a :: b :: rest)
    (h : PopGoesThrough u) (h' : PopGoesThrough (popped u)) (cond : Value → Value → Bool) (target : Addr) :
    condJump cond target u =
      if cond a b then .ok .jumped (setPosition target (popped (popped u))) else .ok .proceed (popped (popped u)) := by
  have hrest : (popped u).stack = b :: rest := by rw [popped_stack, hs, List.tail_cons]
  rw [condJump, pop_ok hs h, Res.bind_ok, pop_ok hrest h', Res.bind_ok]

/-- The advance of `ip` has no part in a pop. -/
theorem popped_decoded (i : Instr) (s : State) : popped (decoded i s) = decoded i (popped s) := by
  rw [decoded, popped_setIp, decoded, popped_ip]

theorem exec_condJump {i : Instr} {cond : Value → Value → Bool} {target : Addr} (hi : stackIn i.mnemonic = 2)
    (hlen : i.length = 9) {s : State} (hh : handlerOf i s = condJump cond target) {a b : Value} {rest : List Value}
    (hs : s.stack = a :: b :: rest) (h : PopGoesThrough s) (h' : PopGoesThrough (popped s)) :
    exec i s = .next { popped (popped s) with
      ip := if cond a b then target else s.ip + 9#64, inputPending := false } := by
  have hdepth : stackIn i.mnemonic ≤ s.stack.length := by simp [hi, hs]
  have hsecond : PopGoesThrough (popped (decoded i s)) := by
    rw [popped_decoded]
    exact h'
  have hip : s.ip + 9#64 = (decoded i (popped (popped s))).ip := by
    rw [decoded, State.setIp_ip, popped_ip, popped_ip, hlen]
  rw [exec_eq_commit (wellFormed_of_stackIn_two hi) hdepth, hh,
    condJump_of_cons (u := decoded i s) hs h hsecond, popped_decoded, popped_decoded, hip]
  cases cond a b with
  | true => rfl
  | false => rfl

/-- Settles O50: the six jumps are `condJump` of their conditions. -/
theorem conditionalJumpsComplete : Obligations.ConditionalJumpsComplete := fun _ target _ _ _ hs h h' =>
  ⟨exec_condJump (i := .ja target) rfl rfl rfl hs h h', exec_condJump (i := .jae target) rfl rfl rfl hs h h',
    exec_condJump (i := .jb target) rfl rfl rfl hs h h', exec_condJump (i := .jbe target) rfl rfl rfl hs h h',
    exec_condJump (i := .je target) rfl rfl rfl hs h h', exec_condJump (i := .jne target) rfl rfl rfl hs h h'⟩

/-! ### `call` -/

/-- Settles O51: the return address is `ip` as the decoder left it, past the 9 bytes of `call`. -/
theorem callPushesTheReturnAddress : Obligations.CallPushesTheReturnAddress := fun _ target h => exec_call h target

/-! ### `halt` -/

theorem exec_halt (s : State) :
    exec .halt s = .next { s with status := .halted, ip := s.ip + 1#64, inputPending := false } := by
  have hhandler : handlerOf .halt s (decoded .halt s) = .ok .halt (decoded .halt s) := rfl
  rw [exec_eq_commit (i := .halt) rfl (Nat.zero_le _), hhandler]
  rfl

/-- A running step that fetches an instruction is the instruction and the end of the step. -/
theorem step_of_fetch_exec {s t : State} {i : Instr} (hrun : s.status = .running) (hf : fetch s = .instr i)
    (hexec : exec i s = .next t) : step s = .next (finishStep s t) := by
  obtain ⟨u, hstep⟩ := step_answers s
  obtain ⟨t', hexec', rfl⟩ := step_of_fetch_instr hrun hf hstep
  cases hexec.symm.trans hexec'
  exact hstep

/-- A step that completed and wrote no VRAM cell ends with the Render of the VRAM as it began. -/
theorem finishStep_of_completed {s t : State} (hcompleted : completed t = true) (hvram : t.vramCells = s.vramCells) :
    finishStep s t = { t with events := t.events ++ renderOf s } := by
  rw [finishStep_eq, hcompleted, Bool.and_true, hvram]
  rfl

/-- Settles O54: the encoding, the instruction, and its step, which leaves a terminal state. -/
theorem haltHalts : Obligations.HaltHalts := by
  refine ⟨rfl, exec_halt, fun s hrun hf => ⟨?_, step_of_terminal Status.noConfusion⟩⟩
  exact (step_of_fetch_exec hrun hf (exec_halt s)).trans (congrArg Host.Outcome.next (finishStep_of_completed rfl rfl))

end Sys2Proof.Machine
end

section
/-! PROOF LAYER. What the graphics instructions leave (`45_graphics.md` R133 to R137; O55, O56). -/

namespace Sys2Proof.Machine

/-- An instruction whose handler continues leaves what the handler leaves. -/
theorem exec_of_proceed {i : Instr} {s t : State} (hwf : i.wellFormed = true)
    (hdepth : stackIn i.mnemonic ≤ s.stack.length) (hh : handlerOf i s (decoded i s) = .ok .proceed t) :
    exec i s = .next (t.setInputPending false) := by
  rw [exec_eq_commit hwf hdepth, hh]
  rfl

/-! ### The instructions that need no Value -/

theorem exec_gInit (s : State) : exec .gInit s = .next { s with
    ip := s.ip + 1#64, inputPending := false, events := s.events ++ [.displayInit s.cfg.vramW s.cfg.vramH] } :=
  (exec_of_proceed rfl (Nat.zero_le _) rfl).trans rfl

theorem exec_gDrawOn (s : State) :
    exec .gDrawOn s = .next { s with ip := s.ip + 1#64, inputPending := false, gfx := true } :=
  (exec_of_proceed rfl (Nat.zero_le _) rfl).trans rfl

theorem exec_gDrawOff (s : State) :
    exec .gDrawOff s = .next { s with ip := s.ip + 1#64, inputPending := false, gfx := false } :=
  (exec_of_proceed rfl (Nat.zero_le _) rfl).trans rfl

theorem exec_gDraw (s : State) : exec .gDraw s = .next { s with
    ip := s.ip + 1#64, inputPending := false,
    events := s.events ++ [.draw ((List.range (s.cfg.vramW * s.cfg.vramH)).map s.vram.read)] } :=
  (exec_of_proceed rfl (Nat.zero_le _) rfl).trans rfl

/-! ### Their steps -/

/-- A step whose instruction keeps the machine running and writes no VRAM cell ends with a Render exactly if graphics
was active at its start: `gfx` as the instruction leaves it has no part in this (`40_execution_engine.md` R92). -/
theorem step_of_exec_running {s t : State} {i : Instr} (hrun : s.status = .running) (hf : fetch s = .instr i)
    (hexec : exec i s = .next t) (hstatus : t.status = .running) (hpending : t.inputPending = false)
    (hvram : t.vramCells = s.vramCells) : step s = .next { t with events := t.events ++ renderOf s } := by
  have hcompleted : completed t = true :=
    (completed_eq_true_iff t).mpr ⟨by rw [State.unfaulted, hstatus], hpending⟩
  rw [step_of_fetch_exec hrun hf hexec, finishStep_of_completed hcompleted hvram]

/-- Settles O55: the four handlers only emit or set `gfx`, and their steps end with the Render of the start. -/
theorem graphicsInstructionsComplete : Obligations.GraphicsInstructionsComplete := by
  refine ⟨⟨rfl, rfl, rfl, rfl⟩, fun s => ⟨exec_gInit s, exec_gDrawOn s, exec_gDrawOff s, exec_gDraw s,
    fun hrun => ⟨fun hf => ?gInit, fun hf => ?gDrawOn, fun hf => ?gDrawOff, fun hf => ?gDraw⟩⟩⟩
  case gInit => exact step_of_exec_running hrun hf (exec_gInit s) hrun rfl rfl
  case gDrawOn => exact step_of_exec_running hrun hf (exec_gDrawOn s) hrun rfl rfl
  case gDrawOff => exact step_of_exec_running hrun hf (exec_gDrawOff s) hrun rfl rfl
  case gDraw => exact step_of_exec_running hrun hf (exec_gDraw s) hrun rfl rfl

/-! ### `g_fill` -/

/-- `g_fill` fills the VRAM with the Value that its pop takes. -/
theorem handlerOf_gFill {u : State} {v : Value} {rest : List Value} (hs : u.stack = v :: rest) (h : PopGoesThrough u)
    (start : State) :
    handlerOf .gFill start u = .ok .proceed ((popped u).setVram (Memory.fill u.cfg.vramSize v)) := by
  simp only [handlerOf, pop_ok hs h, Res.bind_ok, popped_cfg]

theorem exec_gFill {s : State} {v : Value} {rest : List Value} (hs : s.stack = v :: rest) (h : PopGoesThrough s) :
    exec .gFill s = .next { popped s with
      vram := Memory.fill s.cfg.vramSize v, ip := s.ip + 1#64, inputPending := false } := by
  have hs' : (decoded .gFill s).stack = v :: rest := hs
  rw [exec_of_proceed (i := .gFill) rfl (one_le_length_of_cons hs) (handlerOf_gFill hs' h s), decoded, popped_setIp]
  rfl

/-- Settles O56: a `g_fill` whose pop goes through, one that finds no Value, and one whose shrink is refused. -/
theorem gFillFillsVram : Obligations.GFillFillsVram := by
  refine ⟨rfl, fun s v rest hs h => ?fills, fun s hs => ?underflow, fun s hne h => ?refused⟩
  case fills =>
    exact ⟨Memory.fill s.cfg.vramSize v, exec_gFill hs h, Memory.fill_wf _ v, Memory.read_fill _ v⟩
  case underflow =>
    have hdepth : s.stack.length < stackIn Instr.gFill.mnemonic := by rw [hs]; exact Nat.zero_lt_one
    exact exec_of_too_few rfl hdepth
  case refused =>
    obtain ⟨v, rest, hs⟩ := List.exists_cons_of_ne_nil hne
    exact exec_eq_popRefused (i := .gFill) (draws := s.nanDraws) rfl (one_le_length_of_cons hs) hs h rfl

end Sys2Proof.Machine
end

section
/-! PROOF LAYER. The machine as constructed, the host's `load` into it, and its first step without one
(`70_reset_and_hazards.md` R155 to R157; O21 to O23). -/

namespace Sys2Proof.Machine

/-! ### Construction -/

theorem construct_regs_get (cfg : Config) (input : List InputAnswer) (alloc : Allocator) (i : Fin 26) :
    (State.construct cfg input alloc).regs[i] = plusZero :=
  Vector.getElem_replicate i.isLt

/-- A region that lists no cell holds `+0.0` everywhere. -/
theorem Memory.read_nil (i : Nat) : Memory.read [] i = plusZero := rfl

/-- Settles O21: the registers are 26 times `+0.0`, and RAM and VRAM list no cell; every other field is written out in
the construction, of which reset is one (R155). -/
theorem constructionZeroInitialises : Obligations.ConstructionZeroInitialises := by
  refine ⟨fun cfg input alloc => ?constructed, ?reset⟩
  case constructed =>
    exact ⟨construct_regs_get cfg input alloc, Memory.read_nil, Memory.read_nil, rfl, rfl, rfl, rfl, rfl, rfl, rfl⟩
  case reset => exact ⟨referenceConfig, [], { coming := [], thereafter := true }, rfl⟩

/-! ### `load` -/

/-- Into a machine as constructed, the length of the program alone decides what `load` answers. -/
theorem load_construct (cfg : Config) (input : List InputAnswer) (alloc : Allocator) (bytes : List Byte) :
    load bytes (State.construct cfg input alloc) =
      if bytes.length ≤ cfg.maxProgram then
        .next { State.construct cfg input alloc with stream := bytes, ip := 0#64, status := .running }
      else .refused .programTooLong :=
  if_pos rfl

/-- Settles O22: a program of at most MAX_PROGRAM bytes, and a longer one. -/
theorem loadInstallsTheProgram : Obligations.LoadInstallsTheProgram := by
  refine fun cfg input alloc bytes => ⟨fun hfits => ?installed, fun hlong => ?refused⟩
  case installed => exact (load_construct cfg input alloc bytes).trans (if_pos hfits)
  case refused => exact (load_construct cfg input alloc bytes).trans (if_neg hlong.not_ge)

/-! ### A step before any `load` -/

/-- Settles O23: the stream is empty and `ip` is 0, so this is a fetch at the end of the stream (O10); graphics is not
active, so the step has no Render. -/
theorem stepBeforeLoadHalts : Obligations.StepBeforeLoadHalts := by
  intro cfg input alloc
  obtain ⟨step_at_end, -⟩ := fetchAtAndPastTheEnd
  have hnoRender : renderOf (State.construct cfg input alloc) = [] := if_neg Bool.false_ne_true
  rw [step_at_end _ rfl rfl, hnoRender]
  rfl

end Sys2Proof.Machine
end
